-- ==== Sys2Proof/Word.lean ====
section
/-! DEFINITION. The word types of the operation port and of the registers (R6, R7, R80). -/

namespace Sys2Proof

/-- One operation word, 32 bits (R80). -/
abbrev Word := BitVec 32

/-- A raw reading, u16 (R7). -/
abbrev Raw := BitVec 16

/-- A temperature in 1/16 °C, s16; its value is `toInt` (R7). -/
abbrev Temp := BitVec 16

/-- A gain in 1/256, u16 (R7). -/
abbrev GainWord := BitVec 16

/-- A duty in ticks per PWM period, u8 (R7). -/
abbrev Duty := BitVec 8

/-- The six opaque calibration cells of one channel, u16 each (R20, R64). -/
abbrev Cal := Vector (BitVec 16) 6

end Sys2Proof
end

