-- ==== Sys2Proof/Config.lean ====
section
/-! DEFINITION. The parameters of R4. Those the document itself values are plain definitions; every parameter that R4 leaves OPEN or that
93_implementation_defined.md makes a parameter with a default is a field of `Config`, whose proof fields are the constraints of R4 and
R5 and the conversion laws R102 to R104. The block's operations take a `Config` as argument; the machine of the fixed names runs on
the one constant `config`. -/

namespace Sys2Proof

/-! ## Numbers of the document -/

/-- `N_PHASE` (R4). -/
abbrev nPhase : Nat := 8

/-- `OVERSAMPLE` (R4). -/
abbrev oversample : Nat := 16

/-- `PWM_PERIOD` (R4). -/
abbrev pwmPeriod : Nat := 128

/-- `DEBOUNCE_N` (R4). -/
abbrev debounceN : Int := 3

/-- `ISUM_TOP`, the largest value of the integral accumulator (R4). -/
abbrev isumTop : Int := 2 ^ 31 - 1

/-! ## Channels and modes -/

/-- A valid channel number of a block with `n` extruders: 0, the bed, to n (R60, R61). -/
abbrev Chan (n : Nat) := Fin (n + 1)

/-- The bed, channel 0 (R61). -/
def bed {n : Nat} : Chan n := 0

/-- The regulation modes the block admits; there is no `remote` to configure (R136; U14 of 93_implementation_defined.md). -/
inductive Mode where
  | pid
  | bangbang
deriving DecidableEq, Repr

/-! ## The test configuration's conversion (R106) -/

/-- `OFFS(c)` of the test configuration (R106). -/
def tcfgOffs {n : Nat} (c : Chan n) : Int := if c = bed then 1600 else 1583

/-- `rawToTemp` of the test configuration (R106). -/
def tcfgRawToTemp {n : Nat} (c : Chan n) (_ : Cal) (r : Raw) : Temp :=
  BitVec.ofInt 16 (max (-32768) (min 32767 ((r.toNat : Int) - tcfgOffs c)))

/-- `tempToRaw` of the test configuration, whose FULL_SCALE is 16383 (R106). -/
def tcfgTempToRaw {n : Nat} (full : Nat) (c : Chan n) (_ : Cal) (t : Temp) : Raw :=
  BitVec.ofInt 16 (max 0 (min (full : Int) (t.toInt + tcfgOffs c)))

theorem tcfgOffs_cases {n : Nat} (c : Chan n) : tcfgOffs c = 1600 ∨ tcfgOffs c = 1583 := by
  unfold tcfgOffs
  split <;> simp

theorem tcfgRawToTemp_toInt {n : Nat} (c : Chan n) (cal : Cal) (r : Raw) :
    (tcfgRawToTemp c cal r).toInt = max (-32768) (min 32767 ((r.toNat : Int) - tcfgOffs c)) := by
  unfold tcfgRawToTemp
  rw [BitVec.toInt_ofInt, Int.bmod_def]
  omega

theorem tcfgTempToRaw_toNat {n full : Nat} (hf : full ≤ 65535) (c : Chan n) (cal : Cal) (t : Temp) :
    ((tcfgTempToRaw full c cal t).toNat : Int) = max 0 (min (full : Int) (t.toInt + tcfgOffs c)) := by
  unfold tcfgTempToRaw
  rw [BitVec.toNat_ofInt]
  omega

theorem tcfgTempToRaw_le {n full : Nat} (hf : full ≤ 65535) (c : Chan n) (cal : Cal) (t : Temp) :
    (tcfgTempToRaw full c cal t).toNat ≤ full := by
  have h := tcfgTempToRaw_toNat hf c cal t
  omega

theorem tcfgTempToRaw_mono {n full : Nat} (hf : full ≤ 65535) (c : Chan n) (cal : Cal) (t t' : Temp) (h : t.toInt ≤ t'.toInt) :
    (tcfgTempToRaw full c cal t).toNat ≤ (tcfgTempToRaw full c cal t').toNat := by
  have h1 := tcfgTempToRaw_toNat hf c cal t
  have h2 := tcfgTempToRaw_toNat hf c cal t'
  omega

theorem tcfgRawToTemp_mono {n : Nat} (c : Chan n) (cal : Cal) (r r' : Raw) (h : r.toNat ≤ r'.toNat) :
    (tcfgRawToTemp c cal r).toInt ≤ (tcfgRawToTemp c cal r').toInt := by
  rw [tcfgRawToTemp_toInt, tcfgRawToTemp_toInt]
  omega

theorem tcfg_round_trip {n full : Nat} (hf : full ≤ 65535) (h : 6400 ≤ full) (c : Chan n) (cal : Cal) (t : Temp) (h0 : 0 ≤ t.toInt)
    (h1 : t.toInt ≤ 4800) : tcfgRawToTemp c cal (tcfgTempToRaw full c cal t) = t := by
  apply BitVec.eq_of_toInt_eq
  have h2 := tcfgTempToRaw_toNat hf c cal t
  rw [tcfgRawToTemp_toInt]
  rcases tcfgOffs_cases c with h3 | h3 <;> rw [h3] at h2 ⊢ <;> omega

/-! ## The configuration -/

/-- The parameters of R4 that a configuration chooses, each with the default of R4's table (for an OPEN one, the value of the test
configuration TCFG in R4's last column and R106), and the constraints it must meet. A configuration that violates one cannot be built,
which is how R5 and U35 of 93_implementation_defined.md have it refused. -/
structure Config where
  /-- `N_EXT`, the number of extruder channels (R4, U15). -/
  nExt : Nat := 3
  /-- `ADC_BITS`, the width of one conversion result (R4, U5). -/
  adcBits : Nat := 10
  /-- `FULL_SCALE`, the constant of the polarity inversion (R4, U5). -/
  fullScale : Nat := oversample * 2 ^ adcBits - 1
  /-- `LINEAR[c]`: the sensor is a linear-output type, not inverted (R4, R118). -/
  linear : Chan nExt → Bool := fun c => c = bed
  /-- `AIN[c]`: the analog input of the channel's sensor, 0..15 (R4, R113). -/
  ain : Chan nExt → BitVec 4 := fun c => BitVec.ofNat 4 c.val
  /-- `MODE[c]` (R4, R136, U14). -/
  mode : Chan nExt → Mode := fun c => if c = bed then .bangbang else .pid
  /-- `MAX_DUTY` (R4, U6). -/
  maxDuty : Nat := 127
  /-- `BAND`, the saturation band in TEMP units (R4, U7). -/
  band : Nat := 160
  /-- `K1`, the numerator of the derivative's smoothing coefficient (R4, U8). -/
  k1 : Nat := 243
  /-- `K2` = 256 − K1 (R4). -/
  k2 : Nat := 256 - k1
  /-- `I_MIN`, the lower clamp of the integral (R4, U9). -/
  iMin : Int := 0
  /-- `BED_INTERVAL`, in ticks (R4, R168). -/
  bedInterval : Nat := 256
  /-- `BED_ABSMAX` (R4, R169). -/
  bedAbsMax : Temp := 2400
  /-- `MINTEMP[c]` (R4, R19). -/
  minTemp : Chan nExt → Temp := fun _ => 80
  /-- `MAXTEMP[c]` (R4, R19). -/
  maxTemp : Chan nExt → Temp := fun c => if c = bed then 2080 else 4400
  /-- `KP0` (R4, R40). -/
  kp0 : GainWord := 0x1000
  /-- `KI0` (R4, R40). -/
  ki0 : GainWord := 0x0080
  /-- `KD0` (R4, R40). -/
  kd0 : GainWord := 0x2000
  /-- `KIMAX0` (R4, R40). -/
  kimax0 : GainWord := 0x4000
  /-- `CAL0[c]` (R4, R40). -/
  cal0 : Chan nExt → Cal := fun _ => Vector.replicate 6 0
  /-- The Conversion Engine's `rawToTemp(c, cal, r)`: total and pure (R8, R100, R101). -/
  rawToTemp : Chan nExt → Cal → Raw → Temp := tcfgRawToTemp
  /-- The Conversion Engine's `tempToRaw(c, cal, t)`: total and pure (R8, R100, R101). -/
  tempToRaw : Chan nExt → Cal → Temp → Raw := tcfgTempToRaw fullScale
  /-- `EPS`, the round-trip tolerance (R104); no rule of the block depends on it. -/
  eps : Nat := 0
  /-- Which calibrations are "representative" (R104). DESIGN CHOICE (log entry 12): the spec never says which they are, and R4 has no such
  parameter; here they are a free predicate on the six cells alone, the same for every channel, by default true of all. -/
  representative : Cal → Bool := fun _ => true
  /-- `AT_MARGIN`, of the host's autotune procedure, in duty units (R4, R201); the default is that of scenario S3. -/
  atMargin : Rat := 20
  /-- 1 ≤ N_EXT (R4, R5). -/
  one_le_nExt : 1 ≤ nExt := by decide
  /-- N_EXT ≤ 3 (R4, R5). -/
  nExt_le : nExt ≤ 3 := by decide
  /-- FULL_SCALE ≥ OVERSAMPLE × ADC_MAX (R5). -/
  window_le_fullScale : oversample * (2 ^ adcBits - 1) ≤ fullScale := by decide
  /-- FULL_SCALE ≤ 65535 (R5). -/
  fullScale_le : fullScale ≤ 65535 := by decide
  /-- 1 ≤ MAX_DUTY (R4, R5). -/
  one_le_maxDuty : 1 ≤ maxDuty := by decide
  /-- MAX_DUTY ≤ PWM_PERIOD − 1 (R4, R5). -/
  maxDuty_le : maxDuty ≤ pwmPeriod - 1 := by decide
  /-- BAND ≤ 32767 (R4). -/
  band_le : band ≤ 32767 := by decide
  /-- K1 + K2 = 256 (R5); so K1 ≤ 256 (R4). -/
  k1_add_k2 : k1 + k2 = 256 := by decide
  /-- −2^31 ≤ I_MIN (R4). -/
  le_iMin : -2 ^ 31 ≤ iMin := by decide
  /-- I_MIN ≤ 0 (R4, R5). -/
  iMin_le : iMin ≤ 0 := by decide
  /-- 1 ≤ BED_INTERVAL (R4). -/
  one_le_bedInterval : 1 ≤ bedInterval := by decide
  /-- BED_INTERVAL < 2^31 (R4). -/
  bedInterval_lt : bedInterval < 2 ^ 31 := by decide
  /-- MINTEMP[c] < MAXTEMP[c] (R4). -/
  minTemp_lt_maxTemp : ∀ c, (minTemp c).toInt < (maxTemp c).toInt := by decide
  /-- Saturation: tempToRaw never exceeds FULL_SCALE (R102). -/
  tempToRaw_le : ∀ c cal t, (tempToRaw c cal t).toNat ≤ fullScale := by exact tcfgTempToRaw_le (by decide)
  /-- `tempToRaw` is non-decreasing in t (R103). -/
  tempToRaw_mono : ∀ c cal t t', t.toInt ≤ t'.toInt → (tempToRaw c cal t).toNat ≤ (tempToRaw c cal t').toNat := by
    exact tcfgTempToRaw_mono (by decide)
  /-- `rawToTemp` is non-decreasing in r over 0 .. FULL_SCALE (R103). -/
  rawToTemp_mono : ∀ c cal r r', r.toNat ≤ r'.toNat → r'.toNat ≤ fullScale →
      (rawToTemp c cal r).toInt ≤ (rawToTemp c cal r').toInt := by
    exact fun c cal r r' h _ => tcfgRawToTemp_mono c cal r r' h
  /-- Round trip within `EPS` for 0 ≤ t ≤ 4800 and a representative calibration (R104). -/
  round_trip : ∀ c cal t, representative cal = true → 0 ≤ t.toInt → t.toInt ≤ 4800 →
      ((rawToTemp c cal (tempToRaw c cal t)).toInt - t.toInt).natAbs ≤ eps := by
    intro c cal t _ h0 h1
    rw [tcfg_round_trip (by decide) (by decide) c cal t h0 h1]
    simp
  /-- 0 ≤ AT_MARGIN. DESIGN CHOICE (log entry 10): R4 gives no constraint; a negative margin would let the relay command a duty outside
  0 .. MAX_DUTY. -/
  atMargin_nonneg : 0 ≤ atMargin := by norm_num
  /-- AT_MARGIN ≤ MAX_DUTY − AT_MARGIN, without which R6 gives the clamp of R201 no meaning (DESIGN CHOICE, log entry 10). -/
  two_mul_atMargin_le : 2 * atMargin ≤ maxDuty := by norm_num
deriving Inhabited

/-- `NCH`, the number of channels (R4, R61). -/
abbrev Config.nch (cfg : Config) : Nat := cfg.nExt + 1

/-- `ADC_MAX` = 2^ADC_BITS − 1 (R4). -/
abbrev Config.adcMax (cfg : Config) : Nat := 2 ^ cfg.adcBits - 1

/-- The raw bounds of every channel come out in order: the last constraint of R5 follows from R103 and MINTEMP[c] < MAXTEMP[c]. -/
theorem Config.rawBounds_le (cfg : Config) (c : Chan cfg.nExt) :
    (cfg.tempToRaw c (cfg.cal0 c) (cfg.minTemp c)).toNat ≤ (cfg.tempToRaw c (cfg.cal0 c) (cfg.maxTemp c)).toNat :=
  cfg.tempToRaw_mono _ _ _ _ (Int.le_of_lt (cfg.minTemp_lt_maxTemp c))

/-! ## The machine's configuration -/

/-- A configuration with the ADC_BITS that spec/opcode_table.json and R84 write their masks for. -/
structure TableConfig where
  /-- The configuration. -/
  cfg : Config := {}
  /-- ADC_BITS = 10 (R84). -/
  adcBits_eq : cfg.adcBits = 10 := by rfl
deriving Inhabited

/-- The parameters of the machine of the fixed names: a constant with no body, so nothing is known of it but the laws of `Config`
(log entry 4). -/
opaque tableConfig : TableConfig

/-- The configuration of the machine of the fixed names, `State`, `exec` and `step`: every parameter is free but ADC_BITS, which is that
of the opcode table (log entries 3 and 4). -/
def config : Config :=
  { tableConfig.cfg with
    adcBits := 10
    window_le_fullScale := by
      have h := tableConfig.cfg.window_le_fullScale
      rwa [tableConfig.adcBits_eq] at h }

/-! ## Free values of the host's procedure -/

/-- The quotient of a number by zero in the host's autotune formula R201, which states none: a free value (log entry 10). -/
opaque unstatedQuotient : Rat → Rat

/-- The quotient of a number by zero in the host's autotune formulas of R202, which state none: a free value (log entry 10). -/
noncomputable opaque unstatedRealQuotient : ℝ → ℝ

end Sys2Proof
end

