-- ==== Sys2Proof/Syntax.lean ====
section
/-! DEFINITION. The sixteen operations of R84, one constructor per row of spec/opcode_table.json, with the fields R82's formats give
them at their encoded widths (R81, R83). -/

namespace Sys2Proof

/-- An operation of the block (R84). Operand widths are those of the fields, so an operand may still be out of the range that
R67 or R83 allows it in a block: such an operation is answered (ERR, 0). -/
inductive Instr where
  /-- `NOP` (R228). -/
  | nop
  /-- `TICK adc`: one expiry of the hardware timer, with the sample on the ADC result pins (R110). The immediate is ADC_BITS wide, which
  is a parameter of the block (R4), so the operand is the whole immediate field and may be above ADC_MAX. -/
  | tick (adc : BitVec 16)
  /-- `DRAIN` (R131). -/
  | drain
  /-- `REG c` (R133). -/
  | reg (c : BitVec 4)
  /-- `SETTGT c, t` (R216); t is a TEMP value. -/
  | settgt (c : BitVec 4) (t : Temp)
  /-- `GETTGT c` (R218). -/
  | gettgt (c : BitVec 4)
  /-- `GETTEMP c` (R219). -/
  | gettemp (c : BitVec 4)
  /-- `GETPWR c` (R221). -/
  | getpwr (c : BitVec 4)
  /-- `SETDUTY c, d` (R220). -/
  | setduty (c : BitVec 4) (d : Duty)
  /-- `CLRTGT c` (R217). -/
  | clrtgt (c : BitVec 4)
  /-- `SETGAIN j, g` (R222). -/
  | setgain (j : BitVec 4) (g : GainWord)
  /-- `GETGAIN j` (R223). -/
  | getgain (j : BitVec 4)
  /-- `SETCAL c, j, v` (R224). -/
  | setcal (c j : BitVec 4) (v : BitVec 16)
  /-- `GETCAL c, j` (R225). -/
  | getcal (c j : BitVec 4)
  /-- `SETSTOP s` (R226). -/
  | setstop (s : BitVec 1)
  /-- `RESET` (R227). -/
  | reset
deriving DecidableEq, Repr

end Sys2Proof
end

