-- ==== Sys2Proof/WellFormed.lean ====
section
/-! DEFINITION. Which operations have every index and immediate in the range a configured block gives them (R67, R83). -/

namespace Sys2Proof

/-- The channel field names a channel: c < NCH (R60, R67). -/
abbrev ChannelOk (cfg : Config) (c : BitVec 4) : Prop := c.toNat < cfg.nch

/-- The gain number is one of 0..3 (R60, R63, R67). -/
abbrev GainOk (j : BitVec 4) : Prop := j.toNat < 4

/-- The calibration cell number is one of 0..5 (R60, R64, R67). -/
abbrev CellOk (j : BitVec 4) : Prop := j.toNat < 6

/-- The duty immediate is at most MAX_DUTY (R83, R220). -/
abbrev DutyOk (cfg : Config) (d : Duty) : Prop := d.toNat ≤ cfg.maxDuty

/-- The sample is at most ADC_MAX (R83); above it the word has a must-be-zero bit set (R86). -/
abbrev SampleOk (cfg : Config) (adc : BitVec 16) : Prop := adc.toNat ≤ cfg.adcMax

/-- Every index and immediate of the operation is in the range its rule gives in the block configured by `cfg` (R67, R83). -/
def wellFormedFor (cfg : Config) : Instr → Bool
  | .nop => true
  | .tick adc => SampleOk cfg adc
  | .drain => true
  | .reg c => ChannelOk cfg c
  | .settgt c _ => ChannelOk cfg c
  | .gettgt c => ChannelOk cfg c
  | .gettemp c => ChannelOk cfg c
  | .getpwr c => ChannelOk cfg c
  | .setduty c d => ChannelOk cfg c && DutyOk cfg d
  | .clrtgt c => ChannelOk cfg c
  | .setgain j _ => GainOk j
  | .getgain j => GainOk j
  | .setcal c j _ => ChannelOk cfg c && CellOk j
  | .getcal c j => ChannelOk cfg c && CellOk j
  | .setstop _ => true
  | .reset => true

/-- Every index and immediate of the operation is in range in the machine's block. -/
def WellFormed (i : Instr) : Bool := wellFormedFor config i

/-- The operation is one an encoding exists for: its sample, if it has one, is at most ADC_MAX (R83). Every other operand is as wide as
its field. -/
def sampleFits (cfg : Config) : Instr → Bool
  | .tick adc => SampleOk cfg adc
  | _ => true

end Sys2Proof
end

