-- ==== Sys2Proof/Decode.lean ====
section
/-! DEFINITION. The decoder of operation words (R81 to R87), rejecting by name, and the encoder after it. -/

namespace Sys2Proof

/-- Why a word is illegal (event E1 of R240). -/
inductive IllegalWord where
  /-- The opcode is not one of the sixteen (R87). -/
  | reservedOpcode
  /-- A bit of a field the operation's format does not use is not zero (R86). -/
  | mustBeZero
deriving DecidableEq, Repr

/-- `op` = W[31:24] (R81). -/
def opField (w : Word) : BitVec 8 := w.extractLsb' 24 8

/-- `c` = W[23:20] (R81). -/
def chanField (w : Word) : BitVec 4 := w.extractLsb' 20 4

/-- `j` = W[19:16] (R81). -/
def subField (w : Word) : BitVec 4 := w.extractLsb' 16 4

/-- `imm` = W[15:0] (R81). -/
def immField (w : Word) : BitVec 16 := w.extractLsb' 0 16

/-- The sample immediate of format T, imm[ADC_BITS−1:0], with zeros above it (R82, R83). -/
def adcField (cfg : Config) (w : Word) : BitVec 16 := BitVec.ofNat 16 ((immField w).toNat % 2 ^ cfg.adcBits)

/-- The mask of `TICK`'s row: every bit above the sample (R84, where ADC_BITS = 10 and the mask is 0xFFFFFC00). -/
def tickMask (cfg : Config) : Word := BitVec.ofNat 32 (2 ^ 32 - 2 ^ cfg.adcBits)

/-- The duty immediate of format CD, imm[7:0] (R82, R83). -/
def dutyField (w : Word) : Duty := w.extractLsb' 0 8

/-- The one-bit immediate of format B (R82, R83). -/
def bitField (w : Word) : BitVec 1 := w.extractLsb' 0 1

/-- One row's word check: the instruction where `W & mask = match` (R84, R85), else the word has a must-be-zero bit set (R86). -/
def row (w mask pattern : Word) (i : Instr) : Except IllegalWord Instr :=
  if w &&& mask = pattern then .ok i else .error .mustBeZero

/-- The row of the opcode W[31:24] chooses the mask, the match and the fields; no row, no operation (R84, R85, R87). -/
def decodeFor (cfg : Config) (w : Word) : Except IllegalWord Instr :=
  match (opField w).toNat with
  | 0x00 => row w 0xFFFFFFFF 0x00000000 .nop
  | 0x01 => row w (tickMask cfg) 0x01000000 (.tick (adcField cfg w))
  | 0x02 => row w 0xFFFFFFFF 0x02000000 .drain
  | 0x03 => row w 0xFF0FFFFF 0x03000000 (.reg (chanField w))
  | 0x10 => row w 0xFF0F0000 0x10000000 (.settgt (chanField w) (immField w))
  | 0x11 => row w 0xFF0FFFFF 0x11000000 (.gettgt (chanField w))
  | 0x12 => row w 0xFF0FFFFF 0x12000000 (.gettemp (chanField w))
  | 0x13 => row w 0xFF0FFFFF 0x13000000 (.getpwr (chanField w))
  | 0x14 => row w 0xFF0FFF00 0x14000000 (.setduty (chanField w) (dutyField w))
  | 0x15 => row w 0xFF0FFFFF 0x15000000 (.clrtgt (chanField w))
  | 0x20 => row w 0xFFF00000 0x20000000 (.setgain (subField w) (immField w))
  | 0x21 => row w 0xFFF0FFFF 0x21000000 (.getgain (subField w))
  | 0x22 => row w 0xFF000000 0x22000000 (.setcal (chanField w) (subField w) (immField w))
  | 0x23 => row w 0xFF00FFFF 0x23000000 (.getcal (chanField w) (subField w))
  | 0x30 => row w 0xFFFFFFFE 0x30000000 (.setstop (bitField w))
  | 0xFF => row w 0xFFFFFFFF 0xFF000000 .reset
  | _ => .error .reservedOpcode

/-- The decoder of the machine's block. -/
def decode (w : Word) : Except IllegalWord Instr := decodeFor config w

/-- The four fields of R81 put together as one word, `op` highest. -/
def assemble (op : BitVec 8) (c j : BitVec 4) (imm : BitVec 16) : Word := op ++ c ++ j ++ imm

/-- The word of an operation: its opcode, its fields, and zero in every field its format does not use (R82, R84). A sample
above ADC_MAX, which no encoding holds, sets a bit that must be zero, so its word is illegal (R86). -/
def encode : Instr → Word
  | .nop => assemble 0x00 0 0 0
  | .tick adc => assemble 0x01 0 0 adc
  | .drain => assemble 0x02 0 0 0
  | .reg c => assemble 0x03 c 0 0
  | .settgt c t => assemble 0x10 c 0 t
  | .gettgt c => assemble 0x11 c 0 0
  | .gettemp c => assemble 0x12 c 0 0
  | .getpwr c => assemble 0x13 c 0 0
  | .setduty c d => assemble 0x14 c 0 (d.setWidth 16)
  | .clrtgt c => assemble 0x15 c 0 0
  | .setgain j g => assemble 0x20 0 j g
  | .getgain j => assemble 0x21 0 j 0
  | .setcal c j v => assemble 0x22 c j v
  | .getcal c j => assemble 0x23 c j 0
  | .setstop s => assemble 0x30 0 0 (s.setWidth 16)
  | .reset => assemble 0xFF 0 0 0

/-- The word an opcode-table row's bits stand for: one 32-bit word, bit 0 its least significant bit, bits above `nbits` zero. -/
def tableWord (nbits w : Nat) : Word := BitVec.ofNat 32 (w % 2 ^ nbits)

/-- What the decoder reads from an opcode-table word. -/
def decodeTableWord (nbits w : Nat) : Option Instr :=
  match decode (tableWord nbits w) with
  | .ok i => some i
  | .error _ => none

end Sys2Proof
end

