-- ==== Sys2Proof/Machine/State.lean ====
section
/-! DEFINITION. The registers of a block with n extruders (R10 to R35), the machine's state, which adds the model's own port and response
fields, the reset state (R40), and the reasons a step can stop. -/

namespace Sys2Proof.Machine

/-- The labels an operation word can carry (R88, R254). -/
inductive Agent where
  /-- The timer agent. -/
  | timer
  /-- The host agent, the outer firmware included. -/
  | host
  /-- Power-on and the reset pin (R88, R260; log entry 6). -/
  | resetSource
deriving DecidableEq, Repr

/-- One operation word as presented on the operation port, with its agent as the step's label (R80, R88). -/
structure Operation where
  agent : Agent
  word : Word
deriving DecidableEq, Repr

/-- The status of a response (R6, R80). -/
inductive Status where
  | ok
  | err
deriving DecidableEq, Repr

/-- The response of an operation: a status and a 32-bit result (R80). -/
structure Response where
  status : Status
  result : BitVec 32
deriving DecidableEq, Repr

/-- The cause of a notification (R243). -/
inductive Cause where
  | maxTemp
  | minTemp
  | bedTemp
deriving DecidableEq, Repr

/-- An entry of the `NOTIFY` history: (cause, sub, c) (R35, R243). -/
structure Notification where
  cause : Cause
  sub : BitVec 4
  /-- The channel number c. -/
  chan : Nat
deriving DecidableEq, Repr

/-- The registers of one channel (R10, "per channel"). -/
structure Channel where
  /-- `RAW_CUR[c]` (R11). -/
  rawCur : Raw
  /-- `RAW_TGT[c]`; 0 is "no target" (R12). -/
  rawTgt : Raw
  /-- `DUTY[c]` (R13). -/
  duty : Duty
  /-- `RAW_MIN[c]` (R19). -/
  rawMin : Raw
  /-- `RAW_MAX[c]` (R19). -/
  rawMax : Raw
  /-- `CAL[c][0..5]` (R20). -/
  cal : Cal
  /-- `DEB[c]`, s8: a count, or −1 or −2 when latched (R21). -/
  deb : BitVec 8
  /-- `ISUM[c]`, s32 (R22). -/
  isum : BitVec 32
  /-- `DTERM[c]`, s40 (R23). -/
  dterm : BitVec 40
  /-- `TPREV[c]`, s16 (R24). -/
  tprev : Temp
  /-- `PIDRST[c]` (R25). -/
  pidrst : Bool
  /-- `ACC[c]` (R26). -/
  acc : BitVec 16
  /-- `SNAP[c]` (R28). -/
  snap : Raw
  /-- `PEND[c]` (R29). -/
  pend : Bool
  /-- `PWM_SNAP[c]` (R30). -/
  pwmSnap : Duty
  /-- `HEAT[c]`, the output pin; true is asserted (R31). -/
  heat : Bool
deriving DecidableEq, Repr

/-- The registers of R10 and the two output histories of a block with N_EXT = n; nothing else is state of the block. -/
structure Block (n : Nat) where
  /-- The per-channel registers; for an absent channel there is no state at all (R38 item 7). -/
  chan : Vector Channel (n + 1)
  /-- `PHASE`, u3 (R14). -/
  phase : BitVec 3
  /-- `PASS`, u5 (R15). -/
  pass : BitVec 5
  /-- `READY` (R27). -/
  ready : Bool
  /-- `PWM_CNT`, u7 (R16). -/
  pwmCnt : BitVec 7
  /-- `TICKS`, u32 (R17). -/
  ticks : BitVec 32
  /-- `BED_LAST`, u32 (R18). -/
  bedLast : BitVec 32
  /-- `KP` (R32). -/
  kp : GainWord
  /-- `KI` (R32). -/
  ki : GainWord
  /-- `KD` (R32). -/
  kd : GainWord
  /-- `KIMAX` (R32). -/
  kimax : GainWord
  /-- `STOPPED` (R33). -/
  stopped : Bool
  /-- `ADCREQ`, oldest first (R34). -/
  adcreq : List (BitVec 4)
  /-- `NOTIFY`, oldest first (R35). -/
  notify : List Notification
deriving DecidableEq, Repr

/-- The state: the registers of the machine's block, and the model's own two fields `port` and `response`. -/
structure State extends Block config.nExt where
  /-- MODEL'S OWN, DESIGN CHOICE (log entry 1): the operation words still to be presented, in the total order of R71. -/
  port : List Operation
  /-- MODEL'S OWN, DESIGN CHOICE (log entry 2): the response of the last operation (R36, R80); none before the first. -/
  response : Option Response
deriving DecidableEq, Repr

/-- Faults: none. No operation of the block stops it ("none of them throw/unwind", 60_exceptions.md; "nothing makes the block stop
taking operation words", 93_implementation_defined.md): the events F1 to F5, E1 and E2 of R240 are next states. -/
inductive Fault where
deriving DecidableEq, Repr

/-- Refusals. -/
inductive Refusal where
  /-- The arm of an instruction that has no meaning yet; no arm raises it. Safe. -/
  | notModelled (mnemonic : String)
  /-- Raised by `step` alone, for a word its agent may not issue: "A model ... gives no step to a word issued by the wrong agent (it
  refuses the trace)" (R88). Safe: the model stops and claims nothing (log entry 5). -/
  | wrongAgent
deriving DecidableEq, Repr

/-- A channel's registers after reset (R40): 0, but for the calibration cells and the bounds of R19. -/
def Channel.reset (cfg : Config) (c : Chan cfg.nExt) : Channel where
  rawCur := 0
  rawTgt := 0
  duty := 0
  rawMin := cfg.tempToRaw c (cfg.cal0 c) (cfg.minTemp c)
  rawMax := cfg.tempToRaw c (cfg.cal0 c) (cfg.maxTemp c)
  cal := cfg.cal0 c
  deb := 0
  isum := 0
  dterm := 0
  tprev := 0
  pidrst := false
  acc := 0
  snap := 0
  pend := false
  pwmSnap := 0
  heat := false

/-- The reset state of a block configured by `cfg` (R40). -/
def Block.reset (cfg : Config) : Block cfg.nExt where
  chan := Vector.ofFn (Channel.reset cfg)
  phase := 0
  pass := 0
  ready := false
  pwmCnt := 0
  ticks := 0
  bedLast := 0
  kp := cfg.kp0
  ki := cfg.ki0
  kd := cfg.kd0
  kimax := cfg.kimax0
  stopped := false
  adcreq := []
  notify := []

/-- The machine right after reset (R40, R261). The port is empty and nothing has been answered (log entries 1, 2). -/
def State.reset : State where
  toBlock := Block.reset config
  port := []
  response := none

end Sys2Proof.Machine
end

