-- ==== Sys2Proof/Machine/Operands.lean ====
section
/-! DEFINITION. Operand forms: the direct indices (R60, R67), the immediates (R83), the width of results (R69), and the integer
arithmetic every rule uses (R6, R152). -/

namespace Sys2Proof.Machine

/-- `clamp(v, lo, hi)` (R6). -/
def clamp (v lo hi : Int) : Int := if v < lo then lo else if hi < v then hi else v

/-- `floor_div(a, b)` for b > 0: the largest q with q × b ≤ a (R6, R152). -/
def floorDiv (a b : Int) : Int := a / b

/-- The channel the field `c` names, if it names one (R60, R61, R67). -/
def channel? (cfg : Config) (c : BitVec 4) : Option (Chan cfg.nExt) := if h : ChannelOk cfg c then some ⟨c.toNat, h⟩ else none

/-- The gain registers, in the order of their numbers (R63). -/
inductive Gain where
  | kp
  | ki
  | kd
  | kimax
deriving DecidableEq, Repr

/-- The gain register numbered `j`, if there is one (R63, R67). -/
def gain? (j : BitVec 4) : Option Gain :=
  match j.toNat with
  | 0 => some .kp
  | 1 => some .ki
  | 2 => some .kd
  | 3 => some .kimax
  | _ => none

/-- The calibration cell numbered `j`, if there is one (R64, R67). -/
def cell? (j : BitVec 4) : Option (Fin 6) := if h : CellOk j then some ⟨j.toNat, h⟩ else none

/-- The duty immediate, if it is in range (R67, R83, R220). -/
def duty? (cfg : Config) (d : Duty) : Option Duty := if DutyOk cfg d then some d else none

/-- The sample immediate, if it is in range (R83). -/
def sample? (cfg : Config) (adc : BitVec 16) : Option (BitVec 16) := if SampleOk cfg adc then some adc else none

/-- The one-bit immediate as the new level of `STOPPED` (R83, R226). -/
def stopImm (s : BitVec 1) : Bool := s = 1

/-- An unsigned result: RAW, DUTY, GAIN or cell, zero-extended to 32 bits (R69). -/
def zextResult {w : Nat} (v : BitVec w) : BitVec 32 := v.setWidth 32

/-- A TEMP result, sign-extended to 32 bits (R69). -/
def sextResult (t : Temp) : BitVec 32 := t.signExtend 32

end Sys2Proof.Machine
end

