-- ==== Sys2Proof/Machine/Ops.lean ====
section
/-! DEFINITION. The named operations over the registers and the ports, taking a fault (`latch`, R165, R251) and the one return from
it (`resetBlock`, R252). -/

namespace Sys2Proof.Machine

/-! ## Registers -/

/-- The registers of channel `c`: `s.ch c` is every `R[c]` (R6, R60). -/
def Block.ch {n : Nat} (s : Block n) (c : Chan n) : Channel := s.chan[c]

/-- `R[c] <- v` for one channel: replace the registers of `c` by `f` of them (R6). -/
def Block.modCh {n : Nat} (s : Block n) (c : Chan n) (f : Channel → Channel) : Block n :=
  { s with chan := s.chan.set c (f (s.ch c)) }

/-- A loop `for c in 0 .. NCH−1` whose turn for `c` touches the registers of `c` only. -/
def Block.modAll {n : Nat} (s : Block n) (f : Chan n → Channel → Channel) : Block n :=
  { s with chan := Vector.ofFn fun c => f c (s.ch c) }

/-- The gain register `g` (R32, R63). -/
def Block.gain {n : Nat} (s : Block n) : Gain → GainWord
  | .kp => s.kp
  | .ki => s.ki
  | .kd => s.kd
  | .kimax => s.kimax

/-- Write the gain register `g` (R32, R63). -/
def Block.setGain {n : Nat} (s : Block n) (g : Gain) (v : GainWord) : Block n :=
  match g with
  | .kp => { s with kp := v }
  | .ki => { s with ki := v }
  | .kd => { s with kd := v }
  | .kimax => { s with kimax := v }

/-! ## Outputs -/

/-- `respond(st, v)`: the operation ends with this block and this response (R6, R80). -/
def respond {n : Nat} (st : Status) (v : BitVec 32) (s : Block n) : Block n × Response := (s, ⟨st, v⟩)

/-- `respond(OK, v)`. -/
def respondOk {n : Nat} (v : BitVec 32) (s : Block n) : Block n × Response := respond .ok v s

/-- An operand out of range: (ERR, 0), no state change, no output (event E2 of R240, R67). -/
def operandError {n : Nat} (s : Block n) : Block n × Response := respond .err 0 s

/-- An illegal word: (ERR, 0), no state change, no output (event E1 of R240, R86, R87). -/
def illegalWord {n : Nat} (s : Block n) : Block n × Response := respond .err 0 s

/-- The machine performs an operation of its block: the registers it leaves, its response on the response port (R66, R80), and the words
still waiting as they are. -/
def State.perform (s : State) (f : Block config.nExt → Block config.nExt × Response) : Host.Outcome State Fault Refusal :=
  .next { s with toBlock := (f s.toBlock).1, response := some (f s.toBlock).2 }

/-- `emit ADCREQ(a)` (R6, R34). -/
def Block.emitAdcReq {n : Nat} (s : Block n) (a : BitVec 4) : Block n := { s with adcreq := s.adcreq ++ [a] }

/-- `emit NOTIFY(cause, sub, c)` (R6, R35). -/
def Block.emitNotify {n : Nat} (s : Block n) (note : Notification) : Block n := { s with notify := s.notify ++ [note] }

/-- The numeric code of a cause (R243). -/
def Cause.code : Cause → BitVec 4
  | .maxTemp => 1
  | .minTemp => 2
  | .bedTemp => 3

/-- A notification as one word, `(cause << 8) | (sub << 4) | c` (R243). -/
def Notification.word (n : Notification) : BitVec 12 := n.cause.code ++ n.sub ++ BitVec.ofNat 4 n.chan

/-! ## Taking a fault, and the return from it -/

/-- The sentinel −1 of `DEB`: latched over-temperature (R21, R165). -/
def sentinelOver : BitVec 8 := BitVec.ofInt 8 (-1)

/-- The sentinel −2 of `DEB`: latched under-temperature (R21, R165). -/
def sentinelUnder : BitVec 8 := BitVec.ofInt 8 (-2)

/-- `latch(c, sentinel, cause, sub)` (R161, R165): the entry sequence of R251, sentinel, then target, then, unless stopped
(R172), the notification. Nothing else is saved or changed. -/
def latch {n : Nat} (c : Chan n) (sentinel : BitVec 8) (cause : Cause) (sub : BitVec 4) (s : Block n) : Block n :=
  let s := s.modCh c fun k => { k with deb := sentinel }
  let s := s.modCh c fun k => { k with rawTgt := 0 }
  if s.stopped then s else s.emitNotify ⟨cause, sub, c.val⟩

/-- The reset of the block (R40, R227), the only exit from a latch (R252): whatever the block held, every register takes its reset value
and both histories are emptied (log entry 9). The words still waiting in the agents are not the block's and stay. -/
def resetBlock (cfg : Config) (_ : Block cfg.nExt) : Block cfg.nExt := Block.reset cfg

/-! ## The operation port -/

/-- The opcode of `TICK` (R84). -/
def opcodeTick : BitVec 8 := 0x01

/-- The opcode of `RESET` (R84). -/
def opcodeReset : BitVec 8 := 0xFF

/-- R88: `TICK` from the timer only, `RESET` from the reset source or the host, every other word from the host only (log entry 5). -/
def mayIssue (a : Agent) (w : Word) : Bool :=
  if opField w = opcodeTick then a = .timer
  else if opField w = opcodeReset then a = .resetSource || a = .host
  else a = .host

/-- The agent a word comes from when nothing else is said: the timer for `TICK`, the host for any other (R88). -/
def issuer (w : Word) : Agent := if opField w = opcodeTick then .timer else .host

/-- What the block finds on its port at a step. -/
inductive Presented where
  /-- No agent presents a word: the block idles (log entry 1). -/
  | nothing
  /-- A word its agent may not issue (R88). -/
  | wrongAgent
  /-- A word, and the state with that word taken from the port. -/
  | word (w : Word) (s : State)
deriving DecidableEq, Repr

/-- Take the next operation word of the total order (R66, R71). -/
def present (s : State) : Presented :=
  match s.port with
  | [] => .nothing
  | op :: rest => if mayIssue op.agent op.word then .word op.word { s with port := rest } else .wrongAgent

/-- `s` with the word `w` put before all words still waiting, from the agent that may issue it. -/
def State.presenting (s : State) (w : Word) : State := { s with port := ⟨issuer w, w⟩ :: s.port }

end Sys2Proof.Machine
end

