-- ==== Sys2Proof/Machine/Access.lean ====
section
/-! DEFINITION. The access operations: targets, temperatures, duty, gains and calibration (R215 to R225). -/

namespace Sys2Proof.Machine

/-- `SETTGT c, t` (R216). -/
def settgtOp (cfg : Config) (c : BitVec 4) (t : Temp) (s : Block cfg.nExt) : Block cfg.nExt × Response :=
  match channel? cfg c with
  | none => operandError s
  | some c =>
    let v := cfg.tempToRaw c (s.ch c).cal t
    respondOk (zextResult v) (s.modCh c fun k => { k with rawTgt := v })

/-- `SETTGT` on the machine. -/
def execSettgt (c : BitVec 4) (t : Temp) (s : State) : Host.Outcome State Fault Refusal := s.perform (settgtOp config c t)

/-- `GETTGT c` (R218). -/
def gettgtOp (cfg : Config) (c : BitVec 4) (s : Block cfg.nExt) : Block cfg.nExt × Response :=
  match channel? cfg c with
  | none => operandError s
  | some c => respondOk (sextResult (cfg.rawToTemp c (s.ch c).cal (s.ch c).rawTgt)) s

/-- `GETTGT` on the machine. -/
def execGettgt (c : BitVec 4) (s : State) : Host.Outcome State Fault Refusal := s.perform (gettgtOp config c)

/-- `GETTEMP c` (R219): the latest published window, not the drained one. -/
def gettempOp (cfg : Config) (c : BitVec 4) (s : Block cfg.nExt) : Block cfg.nExt × Response :=
  match channel? cfg c with
  | none => operandError s
  | some c => respondOk (sextResult (cfg.rawToTemp c (s.ch c).cal (s.ch c).rawCur)) s

/-- `GETTEMP` on the machine. -/
def execGettemp (c : BitVec 4) (s : State) : Host.Outcome State Fault Refusal := s.perform (gettempOp config c)

/-- `GETPWR c` (R221). -/
def getpwrOp (cfg : Config) (c : BitVec 4) (s : Block cfg.nExt) : Block cfg.nExt × Response :=
  match channel? cfg c with
  | none => operandError s
  | some c => respondOk (zextResult (s.ch c).duty) s

/-- `GETPWR` on the machine. -/
def execGetpwr (c : BitVec 4) (s : State) : Host.Outcome State Fault Refusal := s.perform (getpwrOp config c)

/-- `SETDUTY c, d` (R220). -/
def setdutyOp (cfg : Config) (c : BitVec 4) (d : Duty) (s : Block cfg.nExt) : Block cfg.nExt × Response :=
  match channel? cfg c, duty? cfg d with
  | some c, some d => respondOk 0 (s.modCh c fun k => { k with duty := d })
  | _, _ => operandError s

/-- `SETDUTY` on the machine. -/
def execSetduty (c : BitVec 4) (d : Duty) (s : State) : Host.Outcome State Fault Refusal := s.perform (setdutyOp config c d)

/-- `CLRTGT c` (R217). -/
def clrtgtOp (cfg : Config) (c : BitVec 4) (s : Block cfg.nExt) : Block cfg.nExt × Response :=
  match channel? cfg c with
  | none => operandError s
  | some c => respondOk 0 (s.modCh c fun k => { k with rawTgt := 0 })

/-- `CLRTGT` on the machine. -/
def execClrtgt (c : BitVec 4) (s : State) : Host.Outcome State Fault Refusal := s.perform (clrtgtOp config c)

/-- `SETGAIN j, g` (R222). -/
def setgainOp {n : Nat} (j : BitVec 4) (g : GainWord) (s : Block n) : Block n × Response :=
  match gain? j with
  | none => operandError s
  | some r => respondOk 0 (s.setGain r g)

/-- `SETGAIN` on the machine. -/
def execSetgain (j : BitVec 4) (g : GainWord) (s : State) : Host.Outcome State Fault Refusal := s.perform (setgainOp j g)

/-- `GETGAIN j` (R223). -/
def getgainOp {n : Nat} (j : BitVec 4) (s : Block n) : Block n × Response :=
  match gain? j with
  | none => operandError s
  | some r => respondOk (zextResult (s.gain r)) s

/-- `GETGAIN` on the machine. -/
def execGetgain (j : BitVec 4) (s : State) : Host.Outcome State Fault Refusal := s.perform (getgainOp j)

/-- `SETCAL c, j, v` (R224): one cell, and nothing recomputed from it. -/
def setcalOp (cfg : Config) (c j : BitVec 4) (v : BitVec 16) (s : Block cfg.nExt) : Block cfg.nExt × Response :=
  match channel? cfg c, cell? j with
  | some c, some j => respondOk 0 (s.modCh c fun k => { k with cal := k.cal.set j v })
  | _, _ => operandError s

/-- `SETCAL` on the machine. -/
def execSetcal (c j : BitVec 4) (v : BitVec 16) (s : State) : Host.Outcome State Fault Refusal := s.perform (setcalOp config c j v)

/-- `GETCAL c, j` (R225). -/
def getcalOp (cfg : Config) (c j : BitVec 4) (s : Block cfg.nExt) : Block cfg.nExt × Response :=
  match channel? cfg c, cell? j with
  | some c, some j => respondOk (zextResult ((s.ch c).cal[j])) s
  | _, _ => operandError s

/-- `GETCAL` on the machine. -/
def execGetcal (c j : BitVec 4) (s : State) : Host.Outcome State Fault Refusal := s.perform (getcalOp config c j)

end Sys2Proof.Machine
end

