-- ==== Sys2Proof/Machine/Flags.lean ====
section
/-! DEFINITION. The derived predicates: the range predicate (R162), the latch predicates and the heater enable (R37, R171). The
one-bit registers themselves are fields of Block; the block has no condition codes (R37). -/

namespace Sys2Proof.Machine

/-- `hi`: the reading is at or above the max bound, unsigned (R162). -/
def Channel.over (k : Channel) (r : Raw) : Bool := k.rawMax ≤ r

/-- `lo`: the reading is below the min bound, unsigned (R162). -/
def Channel.under (k : Channel) (r : Raw) : Bool := r < k.rawMin

/-- The reading is outside [RAW_MIN, RAW_MAX) (R162). -/
def Channel.outOfRange (k : Channel) (r : Raw) : Bool := k.over r || k.under r

/-- The channel is latched: `DEB[c] < 0` (R9, R21). -/
def Channel.latched (k : Channel) : Bool := k.deb.toInt < 0

/-- `LATCH_OVER` (R171). -/
def Block.latchOver {n : Nat} (s : Block n) : Bool := ∃ c : Chan n, (s.ch c).deb = sentinelOver

/-- `LATCH_UNDER` (R171). -/
def Block.latchUnder {n : Nat} (s : Block n) : Bool := ∃ c : Chan n, (s.ch c).deb = sentinelUnder

/-- `HEAT_EN`, global, a function of the current state (R171). -/
def Block.heatEn {n : Nat} (s : Block n) : Bool := !s.stopped && !s.latchOver && !s.latchUnder

end Sys2Proof.Machine
end

