-- ==== Sys2Proof/Machine/Monitor.lean ====
section
/-! DEFINITION. The Safety Monitor's part of `REG` (R160 to R169). The fault entry `latch` is in Machine/Ops.lean, the range and
enable predicates in Machine/Flags.lean. -/

namespace Sys2Proof.Machine

/-- The cause and the sub-code of a range fault: MAXTEMP or MINTEMP with 0 for an extruder, BEDTEMP with 1 or 2 for the bed (R161,
R243). -/
def rangeFault {n : Nat} (c : Chan n) (hi : Bool) : Cause × BitVec 4 :=
  if c = bed then (.bedTemp, if hi then 1 else 2) else (if hi then .maxTemp else .minTemp, 0)

/-- The latch of the reading that reached the threshold: the bound it crossed names the fault (R164, R165). -/
def latchRange {n : Nat} (c : Chan n) (hi : Bool) (s : Block n) : Block n :=
  latch c (if hi then sentinelOver else sentinelUnder) (rangeFault c hi).1 (rangeFault c hi).2 s

/-- `debounce(c, hi, lo)` (R161, R164). The count that reaches DEBOUNCE_N is never stored: `latch` overwrites it in the same
operation (R21). -/
def debounce {n : Nat} (c : Chan n) (hi lo : Bool) (s : Block n) : Block n :=
  if (s.ch c).latched then s
  else if hi || lo then
    let count := (s.ch c).deb.toInt + 1
    if debounceN ≤ count then latchRange c hi s else s.modCh c fun k => { k with deb := BitVec.ofInt 8 count }
  else s.modCh c fun k => { k with deb := 0 }

/-- The bed is above its absolute maximum: strict, signed (R169). -/
def bedTooHot (cfg : Config) (t : Temp) : Bool := cfg.bedAbsMax.toInt < t.toInt

/-- The absolute-maximum check's effect on the state: latch at once, if not latched yet (R169). -/
def bedAbsCheck (cfg : Config) (t : Temp) (s : Block cfg.nExt) : Block cfg.nExt :=
  if bedTooHot cfg t && !(s.ch bed).latched then latch bed sentinelOver .bedTemp 3 s else s

/-- `(TICKS − BED_LAST) mod 2^32 ≥ BED_INTERVAL` (R168). -/
def bedGateOpen (cfg : Config) (s : Block cfg.nExt) : Bool := cfg.bedInterval ≤ (s.ticks - s.bedLast).toNat

/-- The bed's interval-gated range debounce (R168). -/
def bedGatedDebounce (cfg : Config) (hi lo : Bool) (s : Block cfg.nExt) : Block cfg.nExt :=
  if bedGateOpen cfg s then debounce bed hi lo { s with bedLast := s.ticks } else s

/-- The state after `safety(c, r, T, d)`: for the bed the absolute maximum, then the gated debounce; for an extruder the debounce
(R161, R167). -/
def safetyState (cfg : Config) (c : Chan cfg.nExt) (r : Raw) (t : Temp) (s : Block cfg.nExt) : Block cfg.nExt :=
  let hi := (s.ch c).over r
  let lo := (s.ch c).under r
  if c = bed then bedGatedDebounce cfg hi lo (bedAbsCheck cfg t s) else debounce c hi lo s

/-- The duty `safety(c, r, T, d)` returns: 0 for a bed above its absolute maximum (R169) and for any reading out of range (R166),
else the regulator's. -/
def safetyDuty (cfg : Config) (c : Chan cfg.nExt) (r : Raw) (t : Temp) (d : Duty) (s : Block cfg.nExt) : Duty :=
  let d := if c = bed ∧ bedTooHot cfg t then 0 else d
  if (s.ch c).outOfRange r then 0 else d

/-- `safety(c, r, T, d)`: the new state and the duty to store (R161). `RAW_MIN`, `RAW_MAX` are written by reset only (R19), so both
parts may read them from the state `safety` is called in. -/
def safety (cfg : Config) (c : Chan cfg.nExt) (r : Raw) (t : Temp) (d : Duty) (s : Block cfg.nExt) : Block cfg.nExt × Duty :=
  (safetyState cfg c r t s, safetyDuty cfg c r t d s)

end Sys2Proof.Machine
end

