-- ==== Sys2Proof/Machine/Regulator.lean ====
section
/-! DEFINITION. `DRAIN`, `REG` and the PID Regulator (R130 to R149). -/

namespace Sys2Proof.Machine

/-! ## DRAIN -/

/-- The effect of `DRAIN` when a window is ready (R131). -/
def takeWindow {n : Nat} (s : Block n) : Block n :=
  let s := { s with ready := false }
  s.modAll fun _ k => { k with snap := k.rawCur, pend := true }

/-- `DRAIN` (R131, R132). -/
def drainOp {n : Nat} (s : Block n) : Block n × Response :=
  if s.ready then respondOk 1 (takeWindow s) else respondOk 0 s

/-- `DRAIN` on the machine. -/
def execDrain (s : State) : Host.Outcome State Fault Refusal := s.perform drainOp

/-! ## The PID computation -/

/-- `imax()`, the upper clamp of the integral, from the gain registers as they are now (R138, R143). -/
def imax {n : Nat} (s : Block n) : Int :=
  if s.ki.toNat = 0 then isumTop else min isumTop (floorDiv ((s.kimax.toNat : Int) * 16) (s.ki.toNat : Int))

/-- The integral accumulator the accumulation starts from: zeroed if the reset flag is set (R141). -/
def integralStart (k : Channel) : Int := if k.pidrst then 0 else k.isum.toInt

/-- The clamped accumulator `s` of R138 (R143). -/
def integralSum (cfg : Config) (top e : Int) (k : Channel) : Int := clamp (integralStart k + e) cfg.iMin top

/-- The filtered derivative term `dt` of R138 (R145). -/
def derivativeTerm (cfg : Config) (kd : GainWord) (t : Int) (k : Channel) : Int :=
  let x := (kd.toNat : Int) * (t - k.tprev.toInt)
  floorDiv ((cfg.k2 : Int) * x + (cfg.k1 : Int) * k.dterm.toInt) 256

/-- `out` of R138, clamped (R146): the duty from the proportional, integral and derivative terms. -/
def pidOutput (cfg : Config) (p i dt : Int) : Duty := BitVec.ofInt 8 (clamp (floorDiv (p + i - dt) 4096) 0 (cfg.maxDuty : Int))

/-- The duty MAX_DUTY (R139, R148). -/
def fullDuty (cfg : Config) : Duty := BitVec.ofNat 8 cfg.maxDuty

/-- `pid(c, SP, T)` on the channel's registers: the new registers and the duty (R138). Either saturated branch writes the reset flag
and nothing else (R139, R140, R149). -/
def pidChannel {n : Nat} (cfg : Config) (s : Block n) (sp t : Temp) (k : Channel) : Channel × Duty :=
  let e := sp.toInt - t.toInt
  if (cfg.band : Int) < e then ({ k with pidrst := true }, fullDuty cfg)
  else if e < -(cfg.band : Int) then ({ k with pidrst := true }, 0)
  else
    let sum := integralSum cfg (imax s) e k
    let dt := derivativeTerm cfg s.kd t.toInt k
    let p := (s.kp.toNat : Int) * e
    let i := (s.ki.toNat : Int) * sum
    ({ k with isum := BitVec.ofInt 32 sum, pidrst := false, dterm := BitVec.ofInt 40 dt, tprev := t }, pidOutput cfg p i dt)

/-- `pid(c, SP, T)` (R138). -/
def pid {n : Nat} (cfg : Config) (c : Chan n) (sp t : Temp) (s : Block n) : Block n × Duty :=
  (s.modCh c fun k => (pidChannel cfg s sp t k).1, (pidChannel cfg s sp t (s.ch c)).2)

/-- `bangbang(c, r)`: raw against raw, unsigned (R148). -/
def bangbang {n : Nat} (cfg : Config) (c : Chan n) (r : Raw) (s : Block n) : Duty := if r < (s.ch c).rawTgt then fullDuty cfg else 0

/-- The regulator of the channel's mode, whichever channel it is (R133, R136). -/
def regulator (cfg : Config) (c : Chan cfg.nExt) (sp t : Temp) (r : Raw) (s : Block cfg.nExt) : Block cfg.nExt × Duty :=
  match cfg.mode c with
  | .pid => pid cfg c sp t s
  | .bangbang => (s, bangbang cfg c r s)

/-! ## REG -/

/-- `T`: the drained reading as a temperature (R134). -/
def measuredTemp (cfg : Config) (c : Chan cfg.nExt) (s : Block cfg.nExt) : Temp := cfg.rawToTemp c (s.ch c).cal (s.ch c).snap

/-- `SP`: the raw target as a temperature, by the same conversion (R135). -/
def setpoint (cfg : Config) (c : Chan cfg.nExt) (s : Block cfg.nExt) : Temp := cfg.rawToTemp c (s.ch c).cal (s.ch c).rawTgt

/-- `if DEB[c] < 0: RAW_TGT[c] <- 0`: a latched channel keeps its target at zero (R163). -/
def holdLatchedTarget {n : Nat} (c : Chan n) (s : Block n) : Block n :=
  if (s.ch c).latched then s.modCh c fun k => { k with rawTgt := 0 } else s

/-- `PEND[c] <- 0` and the target of a latched channel: what `REG c` does before it regulates (R133, R163). -/
def beginRegulation {n : Nat} (c : Chan n) (s : Block n) : Block n := holdLatchedTarget c (s.modCh c fun k => { k with pend := false })

/-- The body of `REG c` for a pending window: regulate, gate, and only then write the duty, once (R133, R137). -/
def regulate (cfg : Config) (c : Chan cfg.nExt) (s : Block cfg.nExt) : Block cfg.nExt × Duty :=
  let r := (s.ch c).snap
  let t := measuredTemp cfg c s
  let s := beginRegulation c s
  let (s, d) := regulator cfg c (setpoint cfg c s) t r s
  let (s, d) := safety cfg c r t d s
  (s.modCh c fun k => { k with duty := d }, d)

/-- The result word of a `REG` that regulated: 256 + d (R133). -/
def regResult (d : Duty) : BitVec 32 := BitVec.ofNat 32 (256 + d.toNat)

/-- `REG c` for a channel number in range (R133); with nothing pending it does nothing (R268). -/
def regChannel (cfg : Config) (c : Chan cfg.nExt) (s : Block cfg.nExt) : Block cfg.nExt × Response :=
  if (s.ch c).pend then respondOk (regResult (regulate cfg c s).2) (regulate cfg c s).1 else respondOk 0 s

/-- `REG c` (R133). -/
def regOp (cfg : Config) (c : BitVec 4) (s : Block cfg.nExt) : Block cfg.nExt × Response :=
  match channel? cfg c with
  | none => operandError s
  | some c => regChannel cfg c s

/-- `REG c` on the machine. -/
def execReg (c : BitVec 4) (s : State) : Host.Outcome State Fault Refusal := s.perform (regOp config c)

end Sys2Proof.Machine
end

