-- ==== Sys2Proof/Machine/Pwm.lean ====
section
/-! DEFINITION. The Software PWM Driver: the PWM sub-step of `TICK` (R180 to R184). -/

namespace Sys2Proof.Machine

/-- A channel at the leading edge: the duty is snapshot, and the pin asserted if the snapshot is nonzero and the heaters are
enabled; else the pin is left as it is (R182). -/
def Channel.leadingEdge (en : Bool) (k : Channel) : Channel :=
  let k := { k with pwmSnap := k.duty }
  if k.pwmSnap ≠ 0 ∧ en then { k with heat := true } else k

/-- A channel at every other tick: a snapshot at or below the counter deasserts the pin, whatever `HEAT_EN` is (R183). -/
def Channel.trailingEdge (cnt : BitVec 7) (k : Channel) : Channel :=
  if k.pwmSnap.toNat ≤ cnt.toNat then { k with heat := false } else k

/-- `PWM_CNT <- (PWM_CNT + 1) mod PWM_PERIOD` (R184). -/
def Block.advancePwm {n : Nat} (s : Block n) : Block n := { s with pwmCnt := BitVec.ofNat 7 ((s.pwmCnt.toNat + 1) % pwmPeriod) }

/-- `pwm_step()` (R181). -/
def pwmStep {n : Nat} (s : Block n) : Block n :=
  let s' :=
    if s.pwmCnt = 0 then s.modAll fun _ => Channel.leadingEdge s.heatEn
    else s.modAll fun _ => Channel.trailingEdge s.pwmCnt
  s'.advancePwm

end Sys2Proof.Machine
end

