-- ==== Sys2Proof/Machine/Sampling.lean ====
section
/-! DEFINITION. The Sampling Scheduler and the operation `TICK` (R110 to R120). -/

namespace Sys2Proof.Machine

/-- `PHCH(p)`: the channel number of phase p (R62). It may be the number of an absent channel (R115). -/
def phch (p : BitVec 3) : Nat :=
  match p.toNat with
  | 0 => 1
  | 1 => 1
  | 2 => 0
  | 3 => 0
  | 4 => 2
  | 5 => 2
  | 6 => 3
  | _ => 3

/-- `final(c, a)`: the undivided sum, its polarity inverted unless the sensor is linear (R118). -/
def finalReading (cfg : Config) (c : Chan cfg.nExt) (a : BitVec 16) : Raw :=
  if cfg.linear c then a else BitVec.ofNat 16 cfg.fullScale - a

/-- Prepare phase of a present channel: select its analog input and start a conversion (R113). -/
def prepareConversion (cfg : Config) (c : Chan cfg.nExt) (s : Block cfg.nExt) : Block cfg.nExt := s.emitAdcReq (cfg.ain c)

/-- Read phase of a present channel: `ACC[c] <- ACC[c] + adc` (R114). -/
def readConversion {n : Nat} (c : Chan n) (adc : BitVec 16) (s : Block n) : Block n :=
  s.modCh c fun k => { k with acc := k.acc + adc }

/-- The action of the current phase; none when its channel is absent (R112, R115). -/
def samplePhase (cfg : Config) (adc : BitVec 16) (s : Block cfg.nExt) : Block cfg.nExt :=
  if h : phch s.phase < cfg.nch then
    if s.phase.toNat % 2 = 0 then prepareConversion cfg ⟨phch s.phase, h⟩ s else readConversion ⟨phch s.phase, h⟩ adc s
  else s

/-- `publish()`: readings, then accumulators, then the pass counter, then the ready flag last (R117). -/
def publish (cfg : Config) (s : Block cfg.nExt) : Block cfg.nExt :=
  let s := s.modAll fun c k => { k with rawCur := finalReading cfg c k.acc }
  let s := s.modAll fun _ k => { k with acc := 0 }
  let s := { s with pass := 0 }
  { s with ready := true }

/-- The advance of the phase; the step from the last phase to 0 counts a pass, and the sixteenth pass publishes (R112, R116). -/
def advancePhase (cfg : Config) (s : Block cfg.nExt) : Block cfg.nExt :=
  if s.phase.toNat = nPhase - 1 then
    let s := { s with phase := 0, pass := s.pass + 1 }
    if s.pass.toNat = oversample then publish cfg s else s
  else { s with phase := s.phase + 1 }

/-- `sample_step(adc)` (R112). -/
def sampleStep (cfg : Config) (adc : BitVec 16) (s : Block cfg.nExt) : Block cfg.nExt := advancePhase cfg (samplePhase cfg adc s)

/-- `TICKS <- (TICKS + 1) mod 2^32` (R17). -/
def countTick {n : Nat} (s : Block n) : Block n := { s with ticks := s.ticks + 1 }

/-- The three lines of `TICK`, in order (R110, R111). -/
def tickState (cfg : Config) (adc : BitVec 16) (s : Block cfg.nExt) : Block cfg.nExt := countTick (sampleStep cfg adc (pwmStep s))

/-- `TICK adc` (R110). A sample above ADC_MAX is the immediate of no legal word (R83, R86). -/
def tickOp (cfg : Config) (adc : BitVec 16) (s : Block cfg.nExt) : Block cfg.nExt × Response :=
  match sample? cfg adc with
  | none => illegalWord s
  | some adc => respondOk 0 (tickState cfg adc s)

/-- `TICK adc` on the machine. -/
def execTick (adc : BitVec 16) (s : State) : Host.Outcome State Fault Refusal := s.perform (tickOp config adc)

end Sys2Proof.Machine
end

