-- ==== Sys2Proof/Machine/System.lean ====
section
/-! DEFINITION. The system operations `NOP`, `SETSTOP` and `RESET` (R226 to R228). -/

namespace Sys2Proof.Machine

/-- `NOP` (R228). -/
def nopOp {n : Nat} (s : Block n) : Block n × Response := respondOk 0 s

/-- `NOP` on the machine. -/
def execNop (s : State) : Host.Outcome State Fault Refusal := s.perform nopOp

/-- `SETSTOP s` (R226). -/
def setstopOp {n : Nat} (v : BitVec 1) (s : Block n) : Block n × Response := respondOk 0 { s with stopped := stopImm v }

/-- `SETSTOP` on the machine. -/
def execSetstop (v : BitVec 1) (s : State) : Host.Outcome State Fault Refusal := s.perform (setstopOp v)

/-- `RESET` (R227). -/
def resetOp (cfg : Config) (s : Block cfg.nExt) : Block cfg.nExt × Response := respondOk 0 (resetBlock cfg s)

/-- `RESET` on the machine. -/
def execReset (s : State) : Host.Outcome State Fault Refusal := s.perform (resetOp config)

end Sys2Proof.Machine
end

