-- ==== Sys2Proof/Machine/Dispatch.lean ====
section
/-! DEFINITION. One arm per operation of the block (R84). -/

namespace Sys2Proof.Machine

/-- The meaning of every operation. -/
def exec (i : Instr) (s : State) : Host.Outcome State Fault Refusal :=
  match i with
  | .nop => Sys2Proof.Machine.execNop s
  | .tick adc => Sys2Proof.Machine.execTick adc s
  | .drain => Sys2Proof.Machine.execDrain s
  | .reg c => Sys2Proof.Machine.execReg c s
  | .settgt c t => Sys2Proof.Machine.execSettgt c t s
  | .gettgt c => Sys2Proof.Machine.execGettgt c s
  | .gettemp c => Sys2Proof.Machine.execGettemp c s
  | .getpwr c => Sys2Proof.Machine.execGetpwr c s
  | .setduty c d => Sys2Proof.Machine.execSetduty c d s
  | .clrtgt c => Sys2Proof.Machine.execClrtgt c s
  | .setgain j g => Sys2Proof.Machine.execSetgain j g s
  | .getgain j => Sys2Proof.Machine.execGetgain j s
  | .setcal c j v => Sys2Proof.Machine.execSetcal c j v s
  | .getcal c j => Sys2Proof.Machine.execGetcal c j s
  | .setstop v => Sys2Proof.Machine.execSetstop v s
  | .reset => Sys2Proof.Machine.execReset s

end Sys2Proof.Machine
end

