-- ==== Sys2Proof/Machine/Step.lean ====
section
/-! DEFINITION. One step: take the next operation word from the port, decode it, run it (R66, R85). -/

namespace Sys2Proof.Machine

/-- One operation of the block. With no word presented the block idles; a word from the wrong agent is no step (R88); an illegal word
is answered (ERR, 0) (R86, R87); a decoded operation is run by `exec`. -/
def step (s : State) : Host.Outcome State Fault Refusal :=
  match present s with
  | .nothing => .next s
  | .wrongAgent => .refused .wrongAgent
  | .word w s' =>
    match decode w with
    | .ok i => exec i s'
    | .error _ => s'.perform illegalWord

/-- `s` with the opcode-table word `w` presented as the next operation, by the agent that may issue it. -/
def State.withFetchWord (s : State) (nbits w : Nat) : State := s.presenting (tableWord nbits w)

end Sys2Proof.Machine
end

