-- ==== Sys2Proof/Machine/Block.lean ====
section
/-! DEFINITION. A block of any configuration as a function of the operations and of the operation words it takes (R66, R80). The machine
of the fixed names is the one configured by `config`: `exec i` performs `operate config i` on its registers. -/

namespace Sys2Proof.Machine

/-- The registers and the response the operation `i` leaves in a block configured by `cfg` (R66, R84). -/
def operate (cfg : Config) (i : Instr) (s : Block cfg.nExt) : Block cfg.nExt × Response :=
  match i with
  | .nop => nopOp s
  | .tick adc => tickOp cfg adc s
  | .drain => drainOp s
  | .reg c => regOp cfg c s
  | .settgt c t => settgtOp cfg c t s
  | .gettgt c => gettgtOp cfg c s
  | .gettemp c => gettempOp cfg c s
  | .getpwr c => getpwrOp cfg c s
  | .setduty c d => setdutyOp cfg c d s
  | .clrtgt c => clrtgtOp cfg c s
  | .setgain j g => setgainOp j g s
  | .getgain j => getgainOp j s
  | .setcal c j v => setcalOp cfg c j v s
  | .getcal c j => getcalOp cfg c j s
  | .setstop v => setstopOp v s
  | .reset => resetOp cfg s

/-- The same for an operation word; an illegal word is answered (ERR, 0) (R80, R85 to R87). -/
def operateWord (cfg : Config) (w : Word) (s : Block cfg.nExt) : Block cfg.nExt × Response :=
  match decodeFor cfg w with
  | .ok i => operate cfg i s
  | .error _ => illegalWord s

/-- The registers and the responses, in order, a sequence of operations leaves (R71). -/
def operateAll (cfg : Config) : List Instr → Block cfg.nExt → Block cfg.nExt × List Response
  | [], s => (s, [])
  | i :: is, s =>
    let (s, r) := operate cfg i s
    let (s, rs) := operateAll cfg is s
    (s, r :: rs)

end Sys2Proof.Machine
end

