-- ==== Sys2Proof/Machine/Assembly.lean ====
section
/-! DEFINITION. Sequences of operations, the pseudo-operations (R90, R229 to R231) and the textual form of an operation (R89). -/

namespace Sys2Proof.Machine

/-- Run operations one after another, stopping at the first that does not answer a next state. -/
def execAll : List Instr → State → Host.Outcome State Fault Refusal
  | [], s => .next s
  | i :: is, s =>
    match exec i s with
    | .next t => execAll is t
    | .fault r => .fault r
    | .refused r => .refused r

/-- The pseudo-operations (R90). -/
inductive Pseudo where
  /-- `MANAGE` (R229). -/
  | manage
  /-- `ALLOFF` (R230). -/
  | alloff
  /-- `SETPID kp, ki, kd, kimax` (R231). -/
  | setpid (kp ki kd kimax : GainWord)
  /-- `TICKS n, adc` (R231). -/
  | ticks (n : Nat) (adc : BitVec 16)
deriving DecidableEq, Repr

/-- The channel field of a channel number. -/
def chanImm (c : Nat) : BitVec 4 := BitVec.ofNat 4 c

/-- The fixed sequence of operations a pseudo-operation stands for; `MANAGE` regulates the extruders before the bed, `ALLOFF` goes
from channel 0 to N_EXT (R90, R229, R230, R231). -/
def Pseudo.expand (cfg : Config) : Pseudo → List Instr
  | .manage => .drain :: ((List.range cfg.nExt).map fun k => .reg (chanImm (k + 1))) ++ [.reg 0]
  | .alloff => ((List.range cfg.nch).map fun c => [.clrtgt (chanImm c), .setduty (chanImm c) 0]).flatten
  | .setpid kp ki kd kimax => [.setgain 0 kp, .setgain 1 ki, .setgain 2 kd, .setgain 3 kimax]
  | .ticks n adc => List.replicate n (.tick adc)

/-- A mnemonic and its operands, separated by commas (R89). -/
def mnemonicText (m : String) (operands : List String) : String :=
  if operands = [] then m else m ++ " " ++ ", ".intercalate operands

/-- An unsigned operand in decimal (R89). -/
def decimal {w : Nat} (v : BitVec w) : String := toString v.toNat

/-- The textual form: mnemonic, then channel, sub-index, immediate; decimal, and signed for `SETTGT` only (R89). -/
def instrText : Instr → String
  | .nop => mnemonicText "NOP" []
  | .tick adc => mnemonicText "TICK" [decimal adc]
  | .drain => mnemonicText "DRAIN" []
  | .reg c => mnemonicText "REG" [decimal c]
  | .settgt c t => mnemonicText "SETTGT" [decimal c, toString t.toInt]
  | .gettgt c => mnemonicText "GETTGT" [decimal c]
  | .gettemp c => mnemonicText "GETTEMP" [decimal c]
  | .getpwr c => mnemonicText "GETPWR" [decimal c]
  | .setduty c d => mnemonicText "SETDUTY" [decimal c, decimal d]
  | .clrtgt c => mnemonicText "CLRTGT" [decimal c]
  | .setgain j g => mnemonicText "SETGAIN" [decimal j, decimal g]
  | .getgain j => mnemonicText "GETGAIN" [decimal j]
  | .setcal c j v => mnemonicText "SETCAL" [decimal c, decimal j, decimal v]
  | .getcal c j => mnemonicText "GETCAL" [decimal c, decimal j]
  | .setstop s => mnemonicText "SETSTOP" [decimal s]
  | .reset => mnemonicText "RESET" []

end Sys2Proof.Machine
end

