-- ==== Sys2Proof/Safety.lean ====
section
/-! DEFINITION. What the claims call a good state and a safe run: the invariants of R38 with what makes them inductive, the ownership of
registers between the two agents (R39), and the all-off condition of R187. -/

namespace Sys2Proof.Safety

open Sys2Proof.Machine

/-- The largest |DTERM| (R23). -/
abbrev dtermMax : Int := 65535 * 65535

/-- The read phase of a channel (R62). -/
def readPhase {n : Nat} (c : Chan n) : Nat :=
  match c.val with
  | 0 => 3
  | 1 => 1
  | 2 => 5
  | _ => 7

/-- The read phases of channel c executed in the current window (R26's PASS'). -/
def readsDone {n : Nat} (s : Block n) (c : Chan n) : Nat := s.pass.toNat + if readPhase c < s.phase.toNat then 1 else 0

/-- The notifications of channel c in the history. -/
def notesOf {n : Nat} (s : Block n) (c : Chan n) : List Notification := s.notify.filter fun e => e.chan = c.val

/-- The registers of one channel are as R38 and the register rules say. -/
structure ChannelInv (cfg : Config) (s : Block cfg.nExt) (c : Chan cfg.nExt) : Prop where
  /-- DUTY[c] ≤ MAX_DUTY (R38 item 1). -/
  duty_le : (s.ch c).duty.toNat ≤ cfg.maxDuty
  /-- PWM_SNAP[c] ≤ MAX_DUTY (R38 item 1). -/
  pwmSnap_le : (s.ch c).pwmSnap.toNat ≤ cfg.maxDuty
  /-- RAW_CUR[c] ≤ FULL_SCALE (R38 item 2). -/
  rawCur_le : (s.ch c).rawCur.toNat ≤ cfg.fullScale
  /-- SNAP[c] ≤ FULL_SCALE (R38 item 2). -/
  snap_le : (s.ch c).snap.toNat ≤ cfg.fullScale
  /-- RAW_TGT[c] ≤ FULL_SCALE (R38 item 2). -/
  rawTgt_le : (s.ch c).rawTgt.toNat ≤ cfg.fullScale
  /-- −2 ≤ DEB[c] (R21, R38 item 3). -/
  le_deb : -2 ≤ (s.ch c).deb.toInt
  /-- DEB[c] ≤ 2 (R21, R38 item 3). -/
  deb_le : (s.ch c).deb.toInt ≤ 2
  /-- I_MIN ≤ ISUM[c] ≤ ISUM_TOP (R22, R38 item 4). -/
  isum_range : cfg.iMin ≤ (s.ch c).isum.toInt ∧ (s.ch c).isum.toInt ≤ isumTop
  /-- |DTERM[c]| ≤ 65535 × 65535 (R23, R38 item 4). -/
  dterm_range : -dtermMax ≤ (s.ch c).dterm.toInt ∧ (s.ch c).dterm.toInt ≤ dtermMax
  /-- A high pin was asserted in this period and has not met its snapshot yet (R185); so every pin is low at a leading edge (R38 item
  5, R186). -/
  heat_high : (s.ch c).heat = true → 1 ≤ s.pwmCnt.toNat ∧ s.pwmCnt.toNat ≤ (s.ch c).pwmSnap.toNat
  /-- ACC[c] ≤ PASS' × ADC_MAX (R26). -/
  acc_le : (s.ch c).acc.toNat ≤ readsDone s c * cfg.adcMax
  /-- RAW_MIN[c] is what reset computed (R19). -/
  rawMin_eq : (s.ch c).rawMin = cfg.tempToRaw c (cfg.cal0 c) (cfg.minTemp c)
  /-- RAW_MAX[c] is what reset computed (R19). -/
  rawMax_eq : (s.ch c).rawMax = cfg.tempToRaw c (cfg.cal0 c) (cfg.maxTemp c)
  /-- A bang-bang channel never writes PID state (10_state.md section 6, R148), so it is as reset left it. -/
  bangbang_idle : cfg.mode c = .bangbang →
    (s.ch c).isum = 0 ∧ (s.ch c).dterm = 0 ∧ (s.ch c).tprev = 0 ∧ (s.ch c).pidrst = false
  /-- At most one notification per channel since reset (R244). -/
  notes_le_one : (notesOf s c).length ≤ 1
  /-- A channel that has notified is latched (R170, R244). -/
  notes_latched : notesOf s c ≠ [] → (s.ch c).deb.toInt < 0

/-- The good states of a block: what R38, R16 and R119 say holds between operations in every state reachable from reset. -/
structure BlockInv (cfg : Config) (s : Block cfg.nExt) : Prop where
  chan : ∀ c, ChannelInv cfg s c
  /-- PASS ≤ 15 (R15, R38 item 3). -/
  pass_le : s.pass.toNat ≤ 15
  /-- PWM_CNT = 8 × PASS + PHASE (R16). -/
  pwmCnt_eq : s.pwmCnt.toNat = 8 * s.pass.toNat + s.phase.toNat
  /-- Publications and periods both count 128 ticks from reset (R119). -/
  ticks_mod : s.ticks.toNat % 128 = s.pwmCnt.toNat

/-- The good states of the machine. -/
abbrev Inv (s : State) : Prop := BlockInv config s.toBlock

/-- Every heater output is deasserted (R187). -/
def AllOff {n : Nat} (s : Block n) : Prop := ∀ c, (s.ch c).heat = false

/-- Some channel is latched (R9). -/
def SomeLatched {n : Nat} (s : Block n) : Prop := ∃ c, (s.ch c).deb.toInt < 0

/-- The registers only the timer agent writes are the same in two states (R39). `READY`, which it shares with `DRAIN`, is apart. -/
structure SameTimerRegs {n : Nat} (s t : Block n) : Prop where
  chan : ∀ c, (t.ch c).rawCur = (s.ch c).rawCur ∧ (t.ch c).acc = (s.ch c).acc ∧ (t.ch c).pwmSnap = (s.ch c).pwmSnap ∧
    (t.ch c).heat = (s.ch c).heat
  block : t.phase = s.phase ∧ t.pass = s.pass ∧ t.pwmCnt = s.pwmCnt ∧ t.ticks = s.ticks ∧ t.adcreq = s.adcreq

/-- The registers only the host agent writes are the same in two states (R39). -/
structure SameHostRegs {n : Nat} (s t : Block n) : Prop where
  chan : ∀ c, t.ch c = { s.ch c with
    rawCur := (t.ch c).rawCur, acc := (t.ch c).acc, pwmSnap := (t.ch c).pwmSnap, heat := (t.ch c).heat }
  block : t.bedLast = s.bedLast ∧ t.kp = s.kp ∧ t.ki = s.ki ∧ t.kd = s.kd ∧ t.kimax = s.kimax ∧ t.stopped = s.stopped ∧
    t.notify = s.notify

/-- Every register has the reset value of R10's column, and both histories are empty (R40). -/
structure ResetRegs (cfg : Config) (s : Block cfg.nExt) : Prop where
  chan : ∀ c, s.ch c = {
    rawCur := 0, rawTgt := 0, duty := 0, deb := 0, isum := 0, dterm := 0, tprev := 0, pidrst := false, acc := 0, snap := 0, pend := false,
    pwmSnap := 0, heat := false
    rawMin := cfg.tempToRaw c (cfg.cal0 c) (cfg.minTemp c)
    rawMax := cfg.tempToRaw c (cfg.cal0 c) (cfg.maxTemp c)
    cal := cfg.cal0 c }
  block : s.phase = 0 ∧ s.pass = 0 ∧ s.ready = false ∧ s.pwmCnt = 0 ∧ s.ticks = 0 ∧ s.bedLast = 0 ∧ s.stopped = false
  gains : s.kp = cfg.kp0 ∧ s.ki = cfg.ki0 ∧ s.kd = cfg.kd0 ∧ s.kimax = cfg.kimax0
  histories : s.adcreq = [] ∧ s.notify = []

/-- The operation is a `TICK` with a sample that its word can hold; any other `TICK` is an illegal word (R83, R86). -/
def isTick (cfg : Config) : Instr → Bool
  | .tick adc => SampleOk cfg adc
  | _ => false

/-- The samples of the ticks a sequence of operations holds, in order. -/
def tickSamples (cfg : Config) (is : List Instr) : List (BitVec 16) :=
  is.filterMap fun i => match i with
    | .tick adc => sample? cfg adc
    | _ => none

/-- How many ticks a sequence of operations holds. -/
def tickCount (cfg : Config) (is : List Instr) : Nat := (tickSamples cfg is).length

end Sys2Proof.Safety
end

