-- ==== Sys2Proof/Certificates/Slice0/Obligations.lean ====
section
/-! DEFINITION. The statements for the provers, from the numbered rules of spec/. -/

open Sys2Proof Sys2Proof.Machine Sys2Proof.Safety

/-! ## Encoding -/

/-- R82, R84, R85: for every configuration, the decoder reads back every operation from its word, with every operand at every value the
encoding admits (a sample is ADC_BITS wide, R83). -/
def Obligations.DecodeOfEncodeIsTheInstruction : Prop :=
  ∀ (cfg : Config) (i : Instr), sampleFits cfg i = true → decodeFor cfg (encode i) = .ok i

/-- R85, R86: for every configuration, a word the decoder accepts is the one word of the operation it reads, so no bit of it is dropped. -/
def Obligations.DecodedWordIsItsEncoding : Prop :=
  ∀ (cfg : Config) (w : Word) (i : Instr), decodeFor cfg w = .ok i → encode i = w ∧ sampleFits cfg i = true

/-- R89: words of the spec's own examples, one or more per format, decode to the operations they stand for. -/
def Obligations.ExampleWordsDecode : Prop :=
  decode 0x00000000 = .ok .nop ∧ decode 0x01000307 = .ok (.tick 775) ∧ decode 0x03100000 = .ok (.reg 1) ∧
    decode 0x10100C80 = .ok (.settgt 1 3200) ∧ decode 0x1410007F = .ok (.setduty 1 127) ∧
    decode 0x20010080 = .ok (.setgain 1 0x0080) ∧ decode 0x21030000 = .ok (.getgain 3) ∧
    decode 0x22121234 = .ok (.setcal 1 2 0x1234) ∧ decode 0x23120000 = .ok (.getcal 1 2) ∧
    decode 0x30000001 = .ok (.setstop 1) ∧ decode 0xFF000000 = .ok .reset

/-! ## The operation port -/

/-- R87: a host word with a reserved opcode is answered (ERR, 0) and changes nothing. -/
def Obligations.ReservedOpcodeAnswersErr : Prop :=
  ∀ (s : State) (w : Word) (rest : List Operation), s.port = ⟨.host, w⟩ :: rest →
    (let op := w.toNat / 2 ^ 24
     (0x04 ≤ op ∧ op ≤ 0x0F) ∨ (0x16 ≤ op ∧ op ≤ 0x1F) ∨ (0x24 ≤ op ∧ op ≤ 0x2F) ∨ (0x31 ≤ op ∧ op ≤ 0xFE)) →
    step s = .next { s with port := rest, response := some ⟨.err, 0⟩ }

/-- R86: a word whose opcode is in the table but which is the word of no operation (a must-be-zero bit is set, a sample above ADC_MAX
included) is answered (ERR, 0) and changes nothing. -/
def Obligations.MustBeZeroBitAnswersErr : Prop :=
  ∀ (s : State) (w : Word) (rest : List Operation), s.port = ⟨issuer w, w⟩ :: rest →
    (∃ i, opField (encode i) = opField w) → (∀ i, sampleFits config i = true → encode i ≠ w) →
    step s = .next { s with port := rest, response := some ⟨.err, 0⟩ }

/-- R66, R67, R85: a step takes the next word of the port and, if it decodes, runs that operation on the state without the word, an index
or immediate out of range included. The agent is the one R88 lets issue the word. -/
def Obligations.StepRunsDecodedOperation : Prop :=
  ∀ (s : State) (op : Operation) (rest : List Operation) (i : Instr), s.port = op :: rest →
    (op.agent = (if opField op.word = 0x01 then .timer else .host) ∨ op.agent = .resetSource ∧ op.word = 0xFF000000) →
    decode op.word = .ok i → step s = exec i { s with port := rest }

/-- R88: a word from an agent that may not issue it is no step. Deciding by the opcode byte, so for illegal words as well, is the
model's reading (DEDUCED, log entry 5). -/
def Obligations.WrongAgentIsNoStep : Prop :=
  ∀ (s : State) (op : Operation) (rest : List Operation), s.port = op :: rest →
    (opField op.word = 0x01 ∧ op.agent ≠ .timer ∨ opField op.word ≠ 0x01 ∧ op.agent = .timer ∨
      opField op.word ≠ 0xFF ∧ op.agent = .resetSource) →
    step s = .refused .wrongAgent

/-- R240, R277: the block never stops by itself. Every step answers a next state, but for a word from the wrong agent (R88). That a step
with no word on the port is a next state too is the model's idle step (DESIGN CHOICE, log entry 1), and that an illegal word is
attributed by its opcode byte is the model's reading (DEDUCED, log entry 5). -/
def Obligations.StepStopsOnlyForWrongAgent : Prop :=
  ∀ s : State, (∃ t, step s = .next t) ∨
    (step s = .refused .wrongAgent ∧ ∃ op rest, s.port = op :: rest ∧ op.agent ≠ issuer op.word ∧
      ¬ (opField op.word = 0xFF ∧ op.agent = .resetSource))

/-- R67: an index or immediate out of range is answered (ERR, 0), changes no state and appends to no output. -/
def Obligations.OutOfRangeOperandAnswersErr : Prop :=
  ∀ (i : Instr) (s : State), sampleFits config i = true → WellFormed i = false →
    exec i s = .next { s with response := some ⟨.err, 0⟩ }

/-- R6, R215, R240: an operation whose operands are in range completes with status OK, and takes nothing from the port (that `RESET`
too leaves the waiting words there is the model's choice, DESIGN CHOICE, log entry 9). -/
def Obligations.InRangeOperandAnswersOk : Prop :=
  ∀ (i : Instr) (s : State), WellFormed i = true →
    ∃ t v, exec i s = .next t ∧ t.response = some ⟨.ok, v⟩ ∧ t.port = s.port

/-- R66, R71, R277: whatever interleaving of the two agents' words is presented, stepping through the port runs those operations
atomically, in that order, and nothing else. The list of waiting words, and that it outlives a `RESET`, are the model's choices (DESIGN
CHOICE, log entries 1 and 9). -/
def Obligations.PortRunsInOrder : Prop :=
  ∀ (is : List Instr) (s : State) (rest : List Operation), ∃ t, execAll is s = .next t ∧
    Host.Core.run Sys2Proof.core is.length { s with port := (is.map fun i => ⟨issuer (encode i), encode i⟩) ++ rest } =
      .next { t with port := rest }

/-! ## TICK -/

/-- R14, R16, R17, R39, R110: a tick completes, advances its three counters (each modulo its width) and touches no register of the
host agent. -/
def Obligations.TickAdvancesItsCountersOnly : Prop :=
  ∀ (adc : BitVec 16) (s : State), SampleOk config adc → ∃ t, exec (.tick adc) s = .next t ∧ t.response = some ⟨.ok, 0⟩ ∧
    t.ticks = s.ticks + 1 ∧ t.pwmCnt = s.pwmCnt + 1 ∧ t.phase = s.phase + 1 ∧ t.port = s.port ∧ SameHostRegs s.toBlock t.toBlock

/-- R111: the three lines of a tick commute, so their order is not observable. -/
def Obligations.TickSubstepsCommute : Prop :=
  ∀ (cfg : Config) (adc : BitVec 16) (s : Block cfg.nExt),
    sampleStep cfg adc (pwmStep s) = pwmStep (sampleStep cfg adc s) ∧ countTick (pwmStep s) = pwmStep (countTick s) ∧
      countTick (sampleStep cfg adc s) = sampleStep cfg adc (countTick s)

/-- R62, R113, R115: a prepare phase requests its channel's analog input, or nothing if the block has no such channel, and changes nothing
else of the sampling machine but the phase. -/
def Obligations.PreparePhaseRequestsItsInput : Prop :=
  ∀ (p : BitVec 3) (c : Nat), (p, c) ∈ [((0 : BitVec 3), 1), (2, 0), (4, 2), (6, 3)] →
    ∀ (adc : BitVec 16) (s : State), SampleOk config adc → s.phase = p → ∃ t, exec (.tick adc) s = .next t ∧
      t.adcreq = s.adcreq ++ (if h : c < config.nch then [config.ain ⟨c, h⟩] else []) ∧
      t.phase = p + 1 ∧ t.pass = s.pass ∧ t.ready = s.ready ∧
      ∀ c', (t.ch c').acc = (s.ch c').acc ∧ (t.ch c').rawCur = (s.ch c').rawCur

/-- R62, R114 to R116: a read phase adds the sample to its channel's accumulator, or does nothing if the block has no such channel; the
last phase of a pass counts the pass. -/
def Obligations.ReadPhaseAccumulatesTheSample : Prop :=
  ∀ (p : BitVec 3) (c : Nat), (p, c) ∈ [((1 : BitVec 3), 1), (3, 0), (5, 2), (7, 3)] →
    ∀ (adc : BitVec 16) (s : State), SampleOk config adc → s.phase = p → (p = 7 → s.pass ≠ 15) → ∃ t, exec (.tick adc) s = .next t ∧
      t.adcreq = s.adcreq ∧ t.ready = s.ready ∧ t.pass = (if p = 7 then s.pass + 1 else s.pass) ∧
      ∀ c', (t.ch c').acc = (if c'.val = c then (s.ch c').acc + adc else (s.ch c').acc) ∧ (t.ch c').rawCur = (s.ch c').rawCur

/-- R117, R118, R120: the tick that completes the sixteenth pass publishes every channel's undivided sum, inverted unless the sensor is
linear, clears the accumulators and the pass counter and sets READY, whether or not READY was still set. -/
def Obligations.LastPhaseOfTheWindowPublishes : Prop :=
  ∀ (adc : BitVec 16) (s : State), SampleOk config adc → s.phase = 7 → s.pass = 15 → ∃ t, exec (.tick adc) s = .next t ∧
    t.ready = true ∧ t.pass = 0 ∧ t.phase = 0 ∧ t.adcreq = s.adcreq ∧
    ∀ c, (t.ch c).acc = 0 ∧
      (let a := if c.val = 3 then (s.ch c).acc + adc else (s.ch c).acc
       (t.ch c).rawCur = if config.linear c then a else BitVec.ofNat 16 config.fullScale - a)

/-- R11, R72: published readings change at the end of a window and nowhere else; `RESET` apart, no other operation writes one. -/
def Obligations.ReadingsChangeOnlyAtPublication : Prop :=
  ∀ (i : Instr) (s t : State) (c : Chan config.nExt), exec i s = .next t → i ≠ .reset → (t.ch c).rawCur ≠ (s.ch c).rawCur →
    isTick config i = true ∧ s.phase = 7 ∧ s.pass = 15

/-- R62, R113, R115, R117 to R119, R122: the 128th tick from a window's start publishes, for every channel, the sum of its sixteen samples
(or its complement), whatever host operations but `RESET` fall between the ticks; there has been one ADC request per channel and pass,
in the order E0, bed, E1, E2. -/
def Obligations.WindowPublishesSumOfSixteenSamples : Prop :=
  ∀ (is : List Instr) (adc : BitVec 16) (s : State), s.phase = 0 → s.pass = 0 → (∀ c, (s.ch c).acc = 0) → SampleOk config adc →
    .reset ∉ is → tickCount config is = 127 →
    ∃ t, execAll (is ++ [.tick adc]) s = .next t ∧ t.ready = true ∧ t.phase = 0 ∧ t.pass = 0 ∧ t.ticks = s.ticks + 128 ∧
      t.adcreq = s.adcreq ++ (List.replicate 16 (([1, 0, 2, 3] : List Nat).filterMap fun c =>
        if h : c < config.nch then some (config.ain ⟨c, h⟩) else none)).flatten ∧
      ∀ c, (t.ch c).acc = 0 ∧
        (let samples := tickSamples config is ++ [adc]
         let sum := ((List.range 16).map fun n => (samples.getD (8 * n + readPhase c) 0).toNat).sum
         (t.ch c).rawCur.toNat = if config.linear c then sum else config.fullScale - sum)

/-- R182: at the leading edge every channel's duty is snapshot and its pin asserted if the duty is nonzero and the heaters are enabled;
otherwise the pin is left as it is. -/
def Obligations.LeadingEdgeSnapshotsAndAsserts : Prop :=
  ∀ (adc : BitVec 16) (s : State), SampleOk config adc → s.pwmCnt = 0 → ∃ t, exec (.tick adc) s = .next t ∧
    ∀ c, (t.ch c).pwmSnap = (s.ch c).duty ∧
      (t.ch c).heat = (if (s.ch c).duty ≠ 0 ∧ s.heatEn = true then true else (s.ch c).heat)

/-- R183: at every other tick a snapshot at or below the counter deasserts the pin, enabled or not. -/
def Obligations.TrailingEdgeDeasserts : Prop :=
  ∀ (adc : BitVec 16) (s : State), SampleOk config adc → s.pwmCnt ≠ 0 → ∃ t, exec (.tick adc) s = .next t ∧
    ∀ c, (t.ch c).pwmSnap = (s.ch c).pwmSnap ∧
      (t.ch c).heat = (if (s.ch c).pwmSnap.toNat ≤ s.pwmCnt.toNat then false else (s.ch c).heat)

/-- R184: the PWM counter advances by one modulo 128 at every tick; nothing but a tick and `RESET` writes it. -/
def Obligations.PwmCounterIsFreeRunning : Prop :=
  (∀ (adc : BitVec 16) (s : State), SampleOk config adc →
      ∃ t, exec (.tick adc) s = .next t ∧ t.pwmCnt.toNat = (s.pwmCnt.toNat + 1) % 128) ∧
    ∀ (i : Instr) (s t : State), isTick config i = false → i ≠ .reset → exec i s = .next t → t.pwmCnt = s.pwmCnt

/-- R185, R187 to R189: from a leading edge with every pin low, and with any host operations but `RESET` between the ticks, the pin is
high after tick k of the period exactly when the heaters were enabled at the leading edge and k is below the duty at the leading edge. -/
def Obligations.PinIsHighForDutyTicks : Prop :=
  ∀ (adc : BitVec 16) (is : List Instr) (s : State), SampleOk config adc → s.pwmCnt = 0 → AllOff s.toBlock → .reset ∉ is →
    tickCount config is ≤ 127 →
    ∃ t, execAll (.tick adc :: is) s = .next t ∧
      ∀ c, (t.ch c).heat = (s.heatEn && decide (tickCount config is < (s.ch c).duty.toNat))

/-! ## Whole-machine invariants -/

/-- R16, R38, R119, R244: every step keeps the invariants, and so does every operation of a block of any configuration. -/
def Obligations.EveryStepKeepsTheInvariants : Prop :=
  (∀ s t : State, Inv s → step s = .next t → Inv t) ∧
    ∀ (cfg : Config) (i : Instr) (s : Block cfg.nExt), BlockInv cfg s → BlockInv cfg (operate cfg i s).1

/-- R40: the reset state meets the invariants, for every configuration. -/
def Obligations.ResetMeetsTheInvariants : Prop := (∀ cfg : Config, BlockInv cfg (Block.reset cfg)) ∧ Inv State.reset

/-- R170, R171, R187, R245: from the first leading edge after a latch, no sequence of operations without `RESET` ever asserts a heater
output, and the block stays latched. -/
def Obligations.LatchedBlockNeverHeats : Prop :=
  ∀ (is : List Instr) (s : State), Inv s → SomeLatched s.toBlock → s.pwmCnt = 0 → .reset ∉ is →
    ∃ t, execAll is s = .next t ∧ AllOff t.toBlock ∧ SomeLatched t.toBlock

/-- R170: no operation but `RESET` changes a latched debounce counter. -/
def Obligations.OnlyResetClearsALatch : Prop :=
  ∀ (i : Instr) (s t : State) (c : Chan config.nExt), i ≠ .reset → exec i s = .next t → (s.ch c).deb.toInt < 0 →
    (t.ch c).deb = (s.ch c).deb

/-- R39: no operation but `TICK` and `RESET` writes a register of the timer agent, and of the others only `DRAIN` writes READY, and only
to clear it. -/
def Obligations.HostOperationsKeepTimerRegisters : Prop :=
  ∀ (i : Instr) (s t : State), isTick config i = false → i ≠ .reset → exec i s = .next t →
    SameTimerRegs s.toBlock t.toBlock ∧ (t.ready = s.ready ∨ i = .drain ∧ t.ready = false)

/-- R10, R34, R35, R215, R250: but for `RESET` the histories only grow, `ADCREQ` by a tick only and `NOTIFY` by a `REG` only, each by at
most one entry. -/
def Obligations.HistoriesOnlyGrow : Prop :=
  ∀ (i : Instr) (s t : State), i ≠ .reset → exec i s = .next t →
    (∃ a, t.adcreq = s.adcreq ++ a ∧ a.length ≤ 1 ∧ (isTick config i = false → a = [])) ∧
      ∃ n, t.notify = s.notify ++ n ∧ n.length ≤ 1 ∧ ((∀ c, i ≠ .reg c) → n = [])

/-! ## DRAIN and REG -/

/-- R131: `DRAIN`, the word 0x02000000, takes the whole window in one operation, or, with none ready, does nothing; it always completes. -/
def Obligations.DrainTakesTheWholeWindow : Prop :=
  encode .drain = 0x02000000 ∧ ∀ s : State,
    (s.ready = true → exec .drain s = .next { s with
      ready := false
      chan := Vector.ofFn fun c => { s.ch c with snap := (s.ch c).rawCur, pend := true }
      response := some ⟨.ok, 1⟩ }) ∧
    (s.ready = false → exec .drain s = .next { s with response := some ⟨.ok, 0⟩ })

/-- R133, R268: with nothing pending for the channel, `REG` changes nothing. -/
def Obligations.RegWithoutAWindowDoesNothing : Prop :=
  ∀ (c : BitVec 4) (s : State) (h : ChannelOk config c), (s.ch ⟨c.toNat, h⟩).pend = false →
    exec (.reg c) s = .next { s with response := some ⟨.ok, 0⟩ }

/-- R133, R137, R151: `REG` on a pending window completes; it consumes the window, stores one duty, at most MAX_DUTY, answers 256 + it,
and changes of the rest only the channel's target, debounce counter and PID registers, the notification history and, for the bed,
BED_LAST. -/
def Obligations.RegStoresOneDuty : Prop :=
  ∀ (c : BitVec 4) (s : State) (h : ChannelOk config c), (s.ch ⟨c.toNat, h⟩).pend = true →
    ∃ t, exec (.reg c) s = .next t ∧
      (let k := s.ch ⟨c.toNat, h⟩
       let k' := t.ch ⟨c.toNat, h⟩
       k'.pend = false ∧ k'.duty.toNat ≤ config.maxDuty ∧ t.response = some ⟨.ok, BitVec.ofNat 32 (256 + k'.duty.toNat)⟩ ∧
       k' = { k with pend := false, duty := k'.duty, rawTgt := k'.rawTgt, deb := k'.deb, isum := k'.isum, dterm := k'.dterm,
                     tprev := k'.tprev, pidrst := k'.pidrst }) ∧
      (∀ c', c' ≠ ⟨c.toNat, h⟩ → t.ch c' = s.ch c') ∧
      t = { s with chan := t.chan, notify := t.notify, bedLast := t.bedLast, response := t.response } ∧
      (c ≠ 0 → t.bedLast = s.bedLast)

/-- R133 to R138, R148, R164: an extruder's `REG` on a pending in-range window, not latched, runs the regulator of the channel's mode on
the drained reading and the raw target (the PID on both converted with the channel's own calibration, the bang-bang on the raw values),
clears the debounce counter and stores the regulator's duty. -/
def Obligations.ExtruderInRangeStoresRegulatorDuty : Prop :=
  ∀ (c : BitVec 4) (s : State) (h : ChannelOk config c) (k : Channel), c ≠ 0 → k = s.ch ⟨c.toNat, h⟩ → k.pend = true →
    0 ≤ k.deb.toInt → k.rawMin.toNat ≤ k.snap.toNat → k.snap.toNat < k.rawMax.toNat →
    (let sp := config.rawToTemp ⟨c.toNat, h⟩ k.cal k.rawTgt
     let t := config.rawToTemp ⟨c.toNat, h⟩ k.cal k.snap
     let (k', d) := match config.mode ⟨c.toNat, h⟩ with
       | .pid => pidChannel config s.toBlock sp t k
       | .bangbang => (k, if k.snap.toNat < k.rawTgt.toNat then BitVec.ofNat 8 config.maxDuty else 0)
     exec (.reg c) s = .next { s with
       chan := s.chan.set c.toNat { k' with pend := false, deb := 0, duty := d } h
       response := some ⟨.ok, BitVec.ofNat 32 (256 + d.toNat)⟩ })

/-- R139, R140: strictly outside the configured band, and only there, the PID is bypassed: full duty above it, none below it, and of the
registers only the reset flag is written. -/
def Obligations.PidIsBypassedOutsideTheBand : Prop :=
  ∀ (cfg : Config) (c : Chan cfg.nExt) (sp t : Temp) (s : Block cfg.nExt),
    ((cfg.band : Int) < sp.toInt - t.toInt →
      pid cfg c sp t s = ({ s with chan := s.chan.set c { s.ch c with pidrst := true } }, BitVec.ofNat 8 cfg.maxDuty)) ∧
    (sp.toInt - t.toInt < -(cfg.band : Int) →
      pid cfg c sp t s = ({ s with chan := s.chan.set c { s.ch c with pidrst := true } }, 0)) ∧
    (-(cfg.band : Int) ≤ sp.toInt - t.toInt → sp.toInt - t.toInt ≤ (cfg.band : Int) →
      ((pid cfg c sp t s).1.ch c).pidrst = false)

/-- R138, R141 to R147: in the band the PID's registers and duty have the values the rules give on mathematical integers, and the
registers hold them: nothing overflows, whatever the configuration and the state. -/
def Obligations.PidInBandIsExact : Prop :=
  ∀ (cfg : Config) (c : Chan cfg.nExt) (sp t : Temp) (s : Block cfg.nExt) (e : Int), e = sp.toInt - t.toInt →
    -(cfg.band : Int) ≤ e → e ≤ (cfg.band : Int) →
    (let k := s.ch c
     let k' := (pid cfg c sp t s).1.ch c
     let top : Int := if s.ki = 0 then 2 ^ 31 - 1 else min (2 ^ 31 - 1) (Int.fdiv (s.kimax.toNat * 16) s.ki.toNat)
     let sum : Int := max cfg.iMin (min top ((if k.pidrst then 0 else k.isum.toInt) + e))
     let dt : Int := Int.fdiv ((256 - (cfg.k1 : Int)) * (s.kd.toNat * (t.toInt - k.tprev.toInt)) + (cfg.k1 : Int) * k.dterm.toInt) 256
     let out : Int := Int.fdiv (s.kp.toNat * e + s.ki.toNat * sum - dt) 4096
     k'.isum.toInt = sum ∧ k'.dterm.toInt = dt ∧ k'.tprev = t ∧ k'.pidrst = false ∧
       ((pid cfg c sp t s).2.toNat : Int) = max 0 (min (cfg.maxDuty : Int) out) ∧
       k' = { k with isum := k'.isum, dterm := k'.dterm, tprev := k'.tprev, pidrst := k'.pidrst } ∧
       ∀ c', c' ≠ c → (pid cfg c sp t s).1.ch c' = s.ch c')

/-- R141: an in-band call made with the reset flag set, in particular the first one after any run of saturated calls, starts from a zeroed
integral, however wound up it was, and clears the flag. -/
def Obligations.SaturationLeavesNoWindup : Prop :=
  ∀ (cfg : Config) (c : Chan cfg.nExt) (bad : List (Temp × Temp)) (sp t : Temp) (s : Block cfg.nExt) (e : Int),
    bad ≠ [] ∨ (s.ch c).pidrst = true →
    (∀ p ∈ bad, (cfg.band : Int) < p.1.toInt - p.2.toInt ∨ p.1.toInt - p.2.toInt < -(cfg.band : Int)) →
    e = sp.toInt - t.toInt → -(cfg.band : Int) ≤ e → e ≤ (cfg.band : Int) →
    (let s' := bad.foldl (fun s p => (pid cfg c p.1 p.2 s).1) s
     let k := (pid cfg c sp t s').1.ch c
     k.isum.toInt = max cfg.iMin (min (imax s) e) ∧ k.pidrst = false)

/-- R148: bang-bang compares raw values, full duty below the target and none otherwise, and neither reads nor writes PID state; it is the
regulator of every channel of that mode. -/
def Obligations.BangbangComparesRawValues : Prop :=
  ∀ (cfg : Config) (c : Chan cfg.nExt) (sp t : Temp) (r : Raw) (s : Block cfg.nExt),
    bangbang cfg c r s = (if r.toNat < (s.ch c).rawTgt.toNat then BitVec.ofNat 8 cfg.maxDuty else 0) ∧
      ((s.ch c).rawTgt = 0 → bangbang cfg c r s = 0) ∧
      (cfg.mode c = .bangbang → regulator cfg c sp t r s = (s, bangbang cfg c r s))

/-- R134: `REG` regulates from the drained copy and never from the current reading: the readings a later window publishes make no
difference to what it computes, and it leaves them as they are. -/
def Obligations.RegIgnoresCurrentReadings : Prop :=
  ∀ (c : BitVec 4) (s t : State) (f : Chan config.nExt → Raw),
    exec (.reg c) s = .next t →
    exec (.reg c) { s with chan := Vector.ofFn fun c' => { s.ch c' with rawCur := f c' } } =
      .next { t with chan := Vector.ofFn fun c' => { t.ch c' with rawCur := f c' } }

/-! ## The Safety Monitor -/

/-- R171: the heater enable is not stopped, and no channel over- or under-temperature latched; with it false no leading edge asserts a
pin. -/
def Obligations.HeatersEnabledIffNoLatchAndNotStopped : Prop :=
  ∀ s : State,
    (s.heatEn = true ↔ s.stopped = false ∧ (¬ ∃ c, (s.ch c).deb.toInt = -1) ∧ ¬ ∃ c, (s.ch c).deb.toInt = -2) ∧
      (s.heatEn = false → s.pwmCnt = 0 → ∀ adc, SampleOk config adc →
        ∃ t, exec (.tick adc) s = .next t ∧ ∀ c, (t.ch c).heat = (s.ch c).heat)

/-- R103, R162: in a good state no reading crosses both bounds of a channel. -/
def Obligations.NoReadingCrossesBothBounds : Prop :=
  ∀ (s : State) (c : Chan config.nExt) (r : Raw), Inv s → ¬ ((s.ch c).over r = true ∧ (s.ch c).under r = true)

/-- R166: a pending window whose reading is out of range stores duty 0, for every channel, latched or not; the PID state of a PID channel
is updated all the same. -/
def Obligations.OutOfRangeReadingStoresZeroDuty : Prop :=
  ∀ (c : BitVec 4) (s : State) (h : ChannelOk config c) (k : Channel), k = s.ch ⟨c.toNat, h⟩ → k.pend = true →
    (k.rawMax.toNat ≤ k.snap.toNat ∨ k.snap.toNat < k.rawMin.toNat) →
    ∃ t, exec (.reg c) s = .next t ∧
      (let k' := t.ch ⟨c.toNat, h⟩
       let sp := config.rawToTemp ⟨c.toNat, h⟩ k.cal (if k.deb.toInt < 0 then 0 else k.rawTgt)
       let p := match config.mode ⟨c.toNat, h⟩ with
         | .pid => (pidChannel config s.toBlock sp (config.rawToTemp ⟨c.toNat, h⟩ k.cal k.snap) k).1
         | .bangbang => k
       k'.duty = 0 ∧ t.response = some ⟨.ok, 256⟩ ∧
         k'.isum = p.isum ∧ k'.dterm = p.dterm ∧ k'.tprev = p.tprev ∧ k'.pidrst = p.pidrst)

/-- R164, R173: the first and the second consecutive out-of-range window of an extruder count, and neither latches nor notifies. -/
def Obligations.OutOfRangeWindowCounts : Prop :=
  ∀ (c : BitVec 4) (s : State) (h : ChannelOk config c) (k : Channel), c ≠ 0 → k = s.ch ⟨c.toNat, h⟩ → k.pend = true →
    (k.rawMax.toNat ≤ k.snap.toNat ∨ k.snap.toNat < k.rawMin.toNat) → 0 ≤ k.deb.toInt → k.deb.toInt ≤ 1 →
    ∃ t, exec (.reg c) s = .next t ∧ (t.ch ⟨c.toNat, h⟩).deb.toInt = k.deb.toInt + 1 ∧
      (t.ch ⟨c.toNat, h⟩).rawTgt = k.rawTgt ∧ t.notify = s.notify

/-- R165, R172, R240 (F1, F2), R251: the third consecutive out-of-range window of an extruder latches it: the sentinel of the bound this
reading crossed, target and duty zero, and one notification unless stopped. -/
def Obligations.ThirdOutOfRangeWindowLatches : Prop :=
  ∀ (c : BitVec 4) (s : State) (h : ChannelOk config c) (k : Channel), c ≠ 0 → k = s.ch ⟨c.toNat, h⟩ → k.pend = true →
    (k.rawMax.toNat ≤ k.snap.toNat ∨ k.snap.toNat < k.rawMin.toNat) → k.deb.toInt = 2 →
    ∃ t, exec (.reg c) s = .next t ∧
      (t.ch ⟨c.toNat, h⟩).deb.toInt = (if k.rawMax.toNat ≤ k.snap.toNat then -1 else -2) ∧
      (t.ch ⟨c.toNat, h⟩).rawTgt = 0 ∧ (t.ch ⟨c.toNat, h⟩).duty = 0 ∧ t.response = some ⟨.ok, 256⟩ ∧
      t.notify = (if s.stopped then s.notify
        else s.notify ++ [⟨if k.rawMax.toNat ≤ k.snap.toNat then .maxTemp else .minTemp, 0, c.toNat⟩])

/-- R133, R163, R166, R168 to R170: a pending `REG` of a latched channel zeroes its target again and regulates on the target none: the PID
runs on the temperature of raw 0, the bang-bang gives 0, and the duty is stored as at any other time (0 out of range or above the bed's
absolute maximum). The sentinel stays and nothing is notified; of the rest only BED_LAST moves, at the bed's open gate. -/
def Obligations.LatchedChannelKeepsItsTargetAtZero : Prop :=
  ∀ (c : BitVec 4) (s : State) (h : ChannelOk config c) (k : Channel), k = s.ch ⟨c.toNat, h⟩ → k.pend = true → k.deb.toInt < 0 →
    (let t := config.rawToTemp ⟨c.toNat, h⟩ k.cal k.snap
     let (k', d) := match config.mode ⟨c.toNat, h⟩ with
       | .pid => pidChannel config s.toBlock (config.rawToTemp ⟨c.toNat, h⟩ k.cal 0) t k
       | .bangbang => (k, 0)
     let d := if k.rawMax.toNat ≤ k.snap.toNat ∨ k.snap.toNat < k.rawMin.toNat ∨ c = 0 ∧ config.bedAbsMax.toInt < t.toInt then 0 else d
     exec (.reg c) s = .next { s with
       chan := s.chan.set c.toNat { k' with pend := false, rawTgt := 0, duty := d } h
       bedLast := if c = 0 ∧ config.bedInterval ≤ (s.ticks - s.bedLast).toNat then s.ticks else s.bedLast
       response := some ⟨.ok, BitVec.ofNat 32 (256 + d.toNat)⟩ })

/-- R168: with the interval not elapsed the bed's range debounce does not run: BED_LAST stands, and the debounce counter moves only if the
absolute maximum latches it. -/
def Obligations.ClosedBedGateKeepsTheCount : Prop :=
  ∀ (s : State) (k : Channel), k = s.ch 0 → k.pend = true → (s.ticks - s.bedLast).toNat < config.bedInterval →
    ∃ t, exec (.reg 0) s = .next t ∧ t.bedLast = s.bedLast ∧
      (t.ch 0).deb.toInt =
        (if config.bedAbsMax.toInt < (config.rawToTemp 0 k.cal k.snap).toInt ∧ 0 ≤ k.deb.toInt then -1 else k.deb.toInt)

/-- R133, R165 to R169, R172, R240 (F3 to F5), R250: with the interval elapsed and the bed not latched, `REG 0` records the time, and the
absolute maximum comes before the range debounce; each latch zeroes the target and reports its own sub-code unless stopped. The stored
duty is the regulator's if the reading is in range and not above the absolute maximum, else 0. -/
def Obligations.OpenBedGateDebounces : Prop :=
  ∀ (s : State) (k : Channel), k = s.ch 0 → k.pend = true → config.bedInterval ≤ (s.ticks - s.bedLast).toNat →
    0 ≤ k.deb.toInt → k.deb.toInt ≤ 2 →
    (let m := config.rawToTemp 0 k.cal k.snap
     let hot := config.bedAbsMax.toInt < m.toInt
     let hi := k.rawMax.toNat ≤ k.snap.toNat
     let lo := k.snap.toNat < k.rawMin.toNat
     let (p, d) := match config.mode 0 with
       | .pid => pidChannel config s.toBlock (config.rawToTemp 0 k.cal k.rawTgt) m k
       | .bangbang => (k, if k.snap.toNat < k.rawTgt.toNat then BitVec.ofNat 8 config.maxDuty else 0)
     let d := if hot ∨ hi ∨ lo then 0 else d
     ∃ t, exec (.reg 0) s = .next t ∧ t.bedLast = s.ticks ∧
       (t.ch 0).deb.toInt = (if hot then -1 else if ¬ hi ∧ ¬ lo then 0 else if k.deb.toInt ≤ 1 then k.deb.toInt + 1
         else if hi then -1 else -2) ∧
       t.ch 0 = { p with pend := false, deb := (t.ch 0).deb, rawTgt := if (t.ch 0).deb.toInt < 0 then 0 else k.rawTgt, duty := d } ∧
       t.response = some ⟨.ok, BitVec.ofNat 32 (256 + d.toNat)⟩ ∧
       t.notify = s.notify ++ (if s.stopped then [] else if hot then [⟨.bedTemp, 3, 0⟩]
         else if ¬ hi ∧ ¬ lo ∨ k.deb.toInt ≤ 1 then [] else if hi then [⟨.bedTemp, 1, 0⟩] else [⟨.bedTemp, 2, 0⟩]))

/-- R169, R172: a bed above its absolute maximum gets duty 0 at once and, if not yet latched, is latched over-temperature with its target
zero and, unless stopped, sub-code 3 is reported; if latched, the sentinel stays and nothing is reported. For every configuration. -/
def Obligations.BedAbsoluteMaximumActsAtOnce : Prop :=
  ∀ (cfg : Config) (r : Raw) (t : Temp) (d : Duty) (s : Block cfg.nExt), cfg.bedAbsMax.toInt < t.toInt →
    (let s' := (safety cfg 0 r t d s).1
     (safety cfg 0 r t d s).2 = 0 ∧
     (0 ≤ (s.ch 0).deb.toInt → (s'.ch 0).deb.toInt = -1 ∧ (s'.ch 0).rawTgt = 0 ∧
       s'.notify = (if s.stopped then s.notify else s.notify ++ [⟨.bedTemp, 3, 0⟩])) ∧
     ((s.ch 0).deb.toInt < 0 → (s'.ch 0).deb = (s.ch 0).deb ∧ s'.notify = s.notify))

/-- R133, R136, R148, R167 to R169, R172: a bed in range, not latched, between two gated checks, is regulated in its mode on the drained
reading, bang-bang on the raw values by default; above its absolute maximum (strict) it is latched instead, with sub-code 3 unless
stopped, and gets duty 0. -/
def Obligations.BedInRangeIsRegulatedInItsMode : Prop :=
  ∀ (s : State) (k : Channel), k = s.ch 0 → k.pend = true → 0 ≤ k.deb.toInt → k.rawMin.toNat ≤ k.snap.toNat →
    k.snap.toNat < k.rawMax.toNat → (s.ticks - s.bedLast).toNat < config.bedInterval →
    (let m := config.rawToTemp 0 k.cal k.snap
     let (p, d) := match config.mode 0 with
       | .pid => pidChannel config s.toBlock (config.rawToTemp 0 k.cal k.rawTgt) m k
       | .bangbang => (k, if k.snap.toNat < k.rawTgt.toNat then BitVec.ofNat 8 config.maxDuty else 0)
     exec (.reg 0) s = .next
       (if config.bedAbsMax.toInt < m.toInt then
         { s with
           chan := s.chan.set 0 { p with pend := false, deb := BitVec.ofInt 8 (-1), rawTgt := 0, duty := 0 }
           notify := if s.stopped then s.notify else s.notify ++ [⟨.bedTemp, 3, 0⟩]
           response := some ⟨.ok, 256⟩ }
       else
         { s with
           chan := s.chan.set 0 { p with pend := false, duty := d }
           response := some ⟨.ok, BitVec.ofNat 32 (256 + d.toNat)⟩ }))

/-! ## Access and system operations -/

/-- R216: `SETTGT` stores the converted temperature as the raw target, answers it, and changes nothing else. -/
def Obligations.SettgtStoresConvertedTarget : Prop :=
  ∀ (c : BitVec 4) (t : Temp) (s : State) (h : ChannelOk config c),
    (let v := config.tempToRaw ⟨c.toNat, h⟩ (s.ch ⟨c.toNat, h⟩).cal t
     exec (.settgt c t) s = .next { s with
       chan := s.chan.set c.toNat { s.ch ⟨c.toNat, h⟩ with rawTgt := v } h
       response := some ⟨.ok, BitVec.ofNat 32 v.toNat⟩ })

/-- R217: `CLRTGT` clears the target and changes nothing else. -/
def Obligations.ClrtgtClearsTarget : Prop :=
  ∀ (c : BitVec 4) (s : State) (h : ChannelOk config c),
    exec (.clrtgt c) s = .next { s with
      chan := s.chan.set c.toNat { s.ch ⟨c.toNat, h⟩ with rawTgt := 0 } h
      response := some ⟨.ok, 0⟩ }

/-- R69, R70, R218, R219, R221, R223, R225: the five reading operations answer what they read, TEMP sign-extended and the rest
zero-extended, and change nothing. -/
def Obligations.ReadingOperationsChangeNothing : Prop :=
  ∀ (c j : BitVec 4) (s : State),
    (∀ h : ChannelOk config c,
      (let k := s.ch ⟨c.toNat, h⟩
       exec (.gettgt c) s = .next { s with
         response := some ⟨.ok, BitVec.ofInt 32 (config.rawToTemp ⟨c.toNat, h⟩ k.cal k.rawTgt).toInt⟩ } ∧
       exec (.gettemp c) s = .next { s with
         response := some ⟨.ok, BitVec.ofInt 32 (config.rawToTemp ⟨c.toNat, h⟩ k.cal k.rawCur).toInt⟩ } ∧
       exec (.getpwr c) s = .next { s with response := some ⟨.ok, BitVec.ofNat 32 k.duty.toNat⟩ } ∧
       ∀ hj : CellOk j, exec (.getcal c j) s = .next { s with
         response := some ⟨.ok, BitVec.ofNat 32 (k.cal[j.toNat]'hj).toNat⟩ })) ∧
    exec (.getgain 0) s = .next { s with response := some ⟨.ok, BitVec.ofNat 32 s.kp.toNat⟩ } ∧
    exec (.getgain 1) s = .next { s with response := some ⟨.ok, BitVec.ofNat 32 s.ki.toNat⟩ } ∧
    exec (.getgain 2) s = .next { s with response := some ⟨.ok, BitVec.ofNat 32 s.kd.toNat⟩ } ∧
    exec (.getgain 3) s = .next { s with response := some ⟨.ok, BitVec.ofNat 32 s.kimax.toNat⟩ }

/-- R220: `SETDUTY` with a duty in range stores it and changes nothing else. -/
def Obligations.SetdutyStoresDuty : Prop :=
  ∀ (c : BitVec 4) (d : Duty) (s : State) (h : ChannelOk config c), d.toNat ≤ config.maxDuty →
    exec (.setduty c d) s = .next { s with
      chan := s.chan.set c.toNat { s.ch ⟨c.toNat, h⟩ with duty := d } h
      response := some ⟨.ok, 0⟩ }

/-- R63, R222: `SETGAIN` writes the one gain register numbered j, unscaled, and changes nothing else. -/
def Obligations.SetgainWritesOneGain : Prop :=
  ∀ (g : GainWord) (s : State),
    exec (.setgain 0 g) s = .next { s with kp := g, response := some ⟨.ok, 0⟩ } ∧
    exec (.setgain 1 g) s = .next { s with ki := g, response := some ⟨.ok, 0⟩ } ∧
    exec (.setgain 2 g) s = .next { s with kd := g, response := some ⟨.ok, 0⟩ } ∧
    exec (.setgain 3 g) s = .next { s with kimax := g, response := some ⟨.ok, 0⟩ }

/-- R224: `SETCAL` writes one cell; bounds, target and every other register stay. -/
def Obligations.SetcalWritesOneCell : Prop :=
  ∀ (c j : BitVec 4) (v : BitVec 16) (s : State) (h : ChannelOk config c) (hj : CellOk j),
    exec (.setcal c j v) s = .next { s with
      chan := s.chan.set c.toNat { s.ch ⟨c.toNat, h⟩ with cal := (s.ch ⟨c.toNat, h⟩).cal.set j.toNat v hj } h
      response := some ⟨.ok, 0⟩ }

/-- R226: `SETSTOP` presents the level of STOPPED and changes nothing else; it clears no latch. -/
def Obligations.SetstopSetsTheLevel : Prop :=
  ∀ (v : BitVec 1) (s : State), exec (.setstop v) s = .next { s with stopped := v.getLsbD 0, response := some ⟨.ok, 0⟩ }

/-- R40: `RESET`, from any state, puts every register into its reset value and empties both histories; so is the state after power-on. -/
def Obligations.ResetPutsEveryRegisterToItsResetValue : Prop :=
  ResetRegs config State.reset.toBlock ∧
    ∀ s : State, ∃ t, exec .reset s = .next t ∧ t.response = some ⟨.ok, 0⟩ ∧ ResetRegs config t.toBlock

/-- R228: `NOP`, the all-zero word, does nothing and responds (OK, 0). -/
def Obligations.NopDoesNothing : Prop :=
  encode .nop = 0x00000000 ∧ decode 0x00000000 = .ok .nop ∧
    ∀ s : State, exec .nop s = .next { s with response := some ⟨.ok, 0⟩ }

/-- R243: a notification as one word is (cause << 8) | (sub << 4) | c, with causes 1, 2 and 3. -/
def Obligations.NotificationWordPacksItsFields : Prop :=
  ∀ (sub : BitVec 4) (c : Chan config.nExt),
    (Notification.word ⟨.maxTemp, sub, c.val⟩).toNat = 1 * 256 + sub.toNat * 16 + c.val ∧
      (Notification.word ⟨.minTemp, sub, c.val⟩).toNat = 2 * 256 + sub.toNat * 16 + c.val ∧
      (Notification.word ⟨.bedTemp, sub, c.val⟩).toNat = 3 * 256 + sub.toNat * 16 + c.val

/-! ## Pseudo-operations -/

/-- R90, R230: `ALLOFF` leaves every target and every duty 0 and changes nothing else, latches and STOPPED included. -/
def Obligations.AlloffClearsTargetsAndDuties : Prop :=
  ∀ s : State, execAll (Pseudo.alloff.expand config) s = .next { s with
    chan := Vector.ofFn fun c => { s.ch c with rawTgt := 0, duty := 0 }
    response := some ⟨.ok, 0⟩ }

/-- R90, R229, R268: `MANAGE` with no window ready and none left over changes nothing. -/
def Obligations.ManageWithoutAWindowDoesNothing : Prop :=
  ∀ s : State, s.ready = false → (∀ c, (s.ch c).pend = false) →
    execAll (Pseudo.manage.expand config) s = .next { s with response := some ⟨.ok, 0⟩ }

/-- R231: `SETPID` leaves the four gain registers at its four operands and changes nothing else. -/
def Obligations.SetpidWritesAllFourGains : Prop :=
  ∀ (p i d m : GainWord) (s : State), execAll ((Pseudo.setpid p i d m).expand config) s =
    .next { s with kp := p, ki := i, kd := d, kimax := m, response := some ⟨.ok, 0⟩ }
end

