-- ==== Sys2Proof/Laws/Arith.lean ====
section
/-! SUPPORT. The integer helpers of Operands.lean: what clamp and floorDiv give, when a stored value is the mathematical one. -/

namespace Sys2Proof.Laws

open Sys2Proof.Machine

theorem clamp_range {v lo hi : Int} (h : lo ≤ hi) : lo ≤ clamp v lo hi ∧ clamp v lo hi ≤ hi := by
  unfold clamp
  split
  · omega
  · split <;> omega

theorem clamp_of_le {v lo hi : Int} (h1 : lo ≤ v) (h2 : v ≤ hi) : clamp v lo hi = v := by
  unfold clamp
  simp [Int.not_lt.mpr h1, Int.not_lt.mpr h2]

theorem floorDiv_spec (a : Int) {b : Int} (hb : 0 < b) : floorDiv a b * b ≤ a ∧ a < (floorDiv a b + 1) * b := by
  unfold floorDiv
  have h1 := Int.mul_ediv_add_emod a b
  have h2 := Int.emod_nonneg a (Int.ne_of_gt hb)
  have h3 := Int.emod_lt_of_pos a hb
  constructor <;> nlinarith

/-- The floor of a number between two integers is between them. -/
theorem floorDiv_mem {a b lo hi : Int} (hb : 0 < b) (h1 : lo * b ≤ a) (h2 : a ≤ hi * b) :
    lo ≤ floorDiv a b ∧ floorDiv a b ≤ hi := by
  obtain ⟨h3, h4⟩ := floorDiv_spec a hb
  constructor
  · by_contra h
    have : floorDiv a b + 1 ≤ lo := by omega
    nlinarith
  · by_contra h
    have : hi + 1 ≤ floorDiv a b := by omega
    nlinarith

/-- A signed value in range is stored as it is. -/
theorem toInt_ofInt_of_mem {w : Nat} {v : Int} (hw : 0 < w) (h1 : -2 ^ (w - 1) ≤ v) (h2 : v < 2 ^ (w - 1)) :
    (BitVec.ofInt w v).toInt = v := by
  rw [BitVec.toInt_ofInt]
  obtain ⟨k, rfl⟩ : ∃ k, w = k + 1 := ⟨w - 1, by omega⟩
  have hk : ((2 ^ (k + 1) : Nat) : Int) = 2 * 2 ^ k := by push_cast; ring
  simp only [Nat.add_sub_cancel] at h1 h2
  have hdef := Int.bmod_def v (2 ^ (k + 1))
  rw [hdef, hk]
  have hpos : (0 : Int) < 2 ^ k := by positivity
  by_cases hv : 0 ≤ v
  · rw [Int.emod_eq_of_lt hv (by omega)]
    split <;> omega
  · have h3 : v % (2 * 2 ^ k) = v + 2 * 2 ^ k := by
      rw [← Int.add_mul_emod_self_left v (2 * 2 ^ k) 1, Int.mul_one]
      exact Int.emod_eq_of_lt (by omega) (by omega)
    rw [h3]
    split <;> omega

theorem channel?_of_ok {cfg : Config} {c : BitVec 4} (h : ChannelOk cfg c) : channel? cfg c = some ⟨c.toNat, h⟩ := dif_pos h
theorem channel?_of_not {cfg : Config} {c : BitVec 4} (h : ¬ ChannelOk cfg c) : channel? cfg c = none := dif_neg h
theorem cell?_of_ok {j : BitVec 4} (h : CellOk j) : cell? j = some ⟨j.toNat, h⟩ := dif_pos h
theorem cell?_of_not {j : BitVec 4} (h : ¬ CellOk j) : cell? j = none := dif_neg h
theorem duty?_of_ok {cfg : Config} {d : Duty} (h : DutyOk cfg d) : duty? cfg d = some d := if_pos h
theorem duty?_of_not {cfg : Config} {d : Duty} (h : ¬ DutyOk cfg d) : duty? cfg d = none := if_neg h
theorem sample?_of_ok {cfg : Config} {a : BitVec 16} (h : SampleOk cfg a) : sample? cfg a = some a := if_pos h
theorem sample?_of_not {cfg : Config} {a : BitVec 16} (h : ¬ SampleOk cfg a) : sample? cfg a = none := if_neg h

theorem gain?_of_not {j : BitVec 4} (h : ¬ GainOk j) : gain? j = none := by
  unfold gain?
  split <;> simp_all [GainOk]

theorem gain?_of_ok {j : BitVec 4} (h : GainOk j) : ∃ g, gain? j = some g := by
  have : ∀ j : BitVec 4, j.toNat < 4 → (gain? j).isSome = true := by decide
  exact Option.isSome_iff_exists.mp (this j h)

end Sys2Proof.Laws
end

