-- ==== Sys2Proof/Laws/State.lean ====
section
/-! SUPPORT. One lemma per field of the block per update: register writes, outputs, and what the machine's `perform` leaves in State.
All hold by rfl but those about reading one channel after writing another. -/

namespace Sys2Proof.Laws

open Sys2Proof.Machine

/-! ## Reading a channel after an update of channels -/

@[simp] theorem ch_modCh_same {n : Nat} (s : Block n) (c : Chan n) (f : Channel → Channel) : (s.modCh c f).ch c = f (s.ch c) := by
  simp [Block.modCh, Block.ch]

@[simp] theorem ch_modCh_ne {n : Nat} (s : Block n) {c c' : Chan n} (f : Channel → Channel) (h : c' ≠ c) :
    (s.modCh c f).ch c' = s.ch c' := by
  have h' : c.val ≠ c'.val := fun e => h (Fin.ext e.symm)
  simp [Block.modCh, Block.ch, Vector.getElem_set_ne, h']

theorem ch_modCh {n : Nat} (s : Block n) (c c' : Chan n) (f : Channel → Channel) :
    (s.modCh c f).ch c' = if c' = c then f (s.ch c) else s.ch c' := by
  by_cases h : c' = c
  · subst h; simp
  · simp [h]

@[simp] theorem ch_modAll {n : Nat} (s : Block n) (c : Chan n) (f : Chan n → Channel → Channel) :
    (s.modAll f).ch c = f c (s.ch c) := by
  simp [Block.modAll, Block.ch]

/-- Two blocks with the same channels read the same. -/
theorem ch_congr {n : Nat} {s t : Block n} (h : t.chan = s.chan) (c : Chan n) : t.ch c = s.ch c :=
  congrArg (fun v : Vector Channel (n + 1) => v[c]) h

/-- Two blocks with the same channels and the same block registers are equal. -/
theorem block_ext {n : Nat} {s t : Block n} (hc : ∀ c, s.ch c = t.ch c)
    (h0 : s.phase = t.phase) (h1 : s.pass = t.pass) (h2 : s.ready = t.ready) (h3 : s.pwmCnt = t.pwmCnt) (h4 : s.ticks = t.ticks) (h5 : s.bedLast = t.bedLast)
    (h6 : s.kp = t.kp) (h7 : s.ki = t.ki) (h8 : s.kd = t.kd) (h9 : s.kimax = t.kimax) (h10 : s.stopped = t.stopped) (h11 : s.adcreq = t.adcreq) (h12 : s.notify = t.notify) : s = t := by
  have h : s.chan = t.chan := Vector.ext fun i hi => hc ⟨i, hi⟩
  cases s
  cases t
  simp_all

/-- Writing a channel twice is writing it once. -/
@[simp] theorem modCh_modCh {n : Nat} (s : Block n) (c : Chan n) (f g : Channel → Channel) :
    (s.modCh c f).modCh c g = s.modCh c fun k => g (f k) := by
  simp [Block.modCh, Block.ch]

/-- Writing a channel with what it holds changes nothing. -/
theorem modCh_id {n : Nat} (s : Block n) (c : Chan n) (f : Channel → Channel) (h : f (s.ch c) = s.ch c) : s.modCh c f = s := by
  simp only [Block.modCh, h]
  simp [Block.ch]

/-! ## After `modCh` -/

@[simp] theorem modCh_phase {n : Nat} (s : Block n) (c : Chan n) (f : Channel → Channel) : (s.modCh c f).phase = s.phase := rfl
@[simp] theorem modCh_pass {n : Nat} (s : Block n) (c : Chan n) (f : Channel → Channel) : (s.modCh c f).pass = s.pass := rfl
@[simp] theorem modCh_ready {n : Nat} (s : Block n) (c : Chan n) (f : Channel → Channel) : (s.modCh c f).ready = s.ready := rfl
@[simp] theorem modCh_pwmCnt {n : Nat} (s : Block n) (c : Chan n) (f : Channel → Channel) : (s.modCh c f).pwmCnt = s.pwmCnt := rfl
@[simp] theorem modCh_ticks {n : Nat} (s : Block n) (c : Chan n) (f : Channel → Channel) : (s.modCh c f).ticks = s.ticks := rfl
@[simp] theorem modCh_bedLast {n : Nat} (s : Block n) (c : Chan n) (f : Channel → Channel) : (s.modCh c f).bedLast = s.bedLast := rfl
@[simp] theorem modCh_kp {n : Nat} (s : Block n) (c : Chan n) (f : Channel → Channel) : (s.modCh c f).kp = s.kp := rfl
@[simp] theorem modCh_ki {n : Nat} (s : Block n) (c : Chan n) (f : Channel → Channel) : (s.modCh c f).ki = s.ki := rfl
@[simp] theorem modCh_kd {n : Nat} (s : Block n) (c : Chan n) (f : Channel → Channel) : (s.modCh c f).kd = s.kd := rfl
@[simp] theorem modCh_kimax {n : Nat} (s : Block n) (c : Chan n) (f : Channel → Channel) : (s.modCh c f).kimax = s.kimax := rfl
@[simp] theorem modCh_stopped {n : Nat} (s : Block n) (c : Chan n) (f : Channel → Channel) : (s.modCh c f).stopped = s.stopped := rfl
@[simp] theorem modCh_adcreq {n : Nat} (s : Block n) (c : Chan n) (f : Channel → Channel) : (s.modCh c f).adcreq = s.adcreq := rfl
@[simp] theorem modCh_notify {n : Nat} (s : Block n) (c : Chan n) (f : Channel → Channel) : (s.modCh c f).notify = s.notify := rfl

/-! ## After `modAll` -/

@[simp] theorem modAll_phase {n : Nat} (s : Block n) (f : Chan n → Channel → Channel) : (s.modAll f).phase = s.phase := rfl
@[simp] theorem modAll_pass {n : Nat} (s : Block n) (f : Chan n → Channel → Channel) : (s.modAll f).pass = s.pass := rfl
@[simp] theorem modAll_ready {n : Nat} (s : Block n) (f : Chan n → Channel → Channel) : (s.modAll f).ready = s.ready := rfl
@[simp] theorem modAll_pwmCnt {n : Nat} (s : Block n) (f : Chan n → Channel → Channel) : (s.modAll f).pwmCnt = s.pwmCnt := rfl
@[simp] theorem modAll_ticks {n : Nat} (s : Block n) (f : Chan n → Channel → Channel) : (s.modAll f).ticks = s.ticks := rfl
@[simp] theorem modAll_bedLast {n : Nat} (s : Block n) (f : Chan n → Channel → Channel) : (s.modAll f).bedLast = s.bedLast := rfl
@[simp] theorem modAll_kp {n : Nat} (s : Block n) (f : Chan n → Channel → Channel) : (s.modAll f).kp = s.kp := rfl
@[simp] theorem modAll_ki {n : Nat} (s : Block n) (f : Chan n → Channel → Channel) : (s.modAll f).ki = s.ki := rfl
@[simp] theorem modAll_kd {n : Nat} (s : Block n) (f : Chan n → Channel → Channel) : (s.modAll f).kd = s.kd := rfl
@[simp] theorem modAll_kimax {n : Nat} (s : Block n) (f : Chan n → Channel → Channel) : (s.modAll f).kimax = s.kimax := rfl
@[simp] theorem modAll_stopped {n : Nat} (s : Block n) (f : Chan n → Channel → Channel) : (s.modAll f).stopped = s.stopped := rfl
@[simp] theorem modAll_adcreq {n : Nat} (s : Block n) (f : Chan n → Channel → Channel) : (s.modAll f).adcreq = s.adcreq := rfl
@[simp] theorem modAll_notify {n : Nat} (s : Block n) (f : Chan n → Channel → Channel) : (s.modAll f).notify = s.notify := rfl

/-! ## After `emitAdcReq` -/

@[simp] theorem emitAdcReq_phase {n : Nat} (s : Block n) (a : BitVec 4) : (s.emitAdcReq a).phase = s.phase := rfl
@[simp] theorem emitAdcReq_pass {n : Nat} (s : Block n) (a : BitVec 4) : (s.emitAdcReq a).pass = s.pass := rfl
@[simp] theorem emitAdcReq_ready {n : Nat} (s : Block n) (a : BitVec 4) : (s.emitAdcReq a).ready = s.ready := rfl
@[simp] theorem emitAdcReq_pwmCnt {n : Nat} (s : Block n) (a : BitVec 4) : (s.emitAdcReq a).pwmCnt = s.pwmCnt := rfl
@[simp] theorem emitAdcReq_ticks {n : Nat} (s : Block n) (a : BitVec 4) : (s.emitAdcReq a).ticks = s.ticks := rfl
@[simp] theorem emitAdcReq_bedLast {n : Nat} (s : Block n) (a : BitVec 4) : (s.emitAdcReq a).bedLast = s.bedLast := rfl
@[simp] theorem emitAdcReq_kp {n : Nat} (s : Block n) (a : BitVec 4) : (s.emitAdcReq a).kp = s.kp := rfl
@[simp] theorem emitAdcReq_ki {n : Nat} (s : Block n) (a : BitVec 4) : (s.emitAdcReq a).ki = s.ki := rfl
@[simp] theorem emitAdcReq_kd {n : Nat} (s : Block n) (a : BitVec 4) : (s.emitAdcReq a).kd = s.kd := rfl
@[simp] theorem emitAdcReq_kimax {n : Nat} (s : Block n) (a : BitVec 4) : (s.emitAdcReq a).kimax = s.kimax := rfl
@[simp] theorem emitAdcReq_stopped {n : Nat} (s : Block n) (a : BitVec 4) : (s.emitAdcReq a).stopped = s.stopped := rfl
@[simp] theorem emitAdcReq_notify {n : Nat} (s : Block n) (a : BitVec 4) : (s.emitAdcReq a).notify = s.notify := rfl
@[simp] theorem emitAdcReq_ch {n : Nat} (s : Block n) (a : BitVec 4) (c : Chan n) : (s.emitAdcReq a).ch c = s.ch c := rfl

/-! ## After `emitNotify` -/

@[simp] theorem emitNotify_phase {n : Nat} (s : Block n) (e : Notification) : (s.emitNotify e).phase = s.phase := rfl
@[simp] theorem emitNotify_pass {n : Nat} (s : Block n) (e : Notification) : (s.emitNotify e).pass = s.pass := rfl
@[simp] theorem emitNotify_ready {n : Nat} (s : Block n) (e : Notification) : (s.emitNotify e).ready = s.ready := rfl
@[simp] theorem emitNotify_pwmCnt {n : Nat} (s : Block n) (e : Notification) : (s.emitNotify e).pwmCnt = s.pwmCnt := rfl
@[simp] theorem emitNotify_ticks {n : Nat} (s : Block n) (e : Notification) : (s.emitNotify e).ticks = s.ticks := rfl
@[simp] theorem emitNotify_bedLast {n : Nat} (s : Block n) (e : Notification) : (s.emitNotify e).bedLast = s.bedLast := rfl
@[simp] theorem emitNotify_kp {n : Nat} (s : Block n) (e : Notification) : (s.emitNotify e).kp = s.kp := rfl
@[simp] theorem emitNotify_ki {n : Nat} (s : Block n) (e : Notification) : (s.emitNotify e).ki = s.ki := rfl
@[simp] theorem emitNotify_kd {n : Nat} (s : Block n) (e : Notification) : (s.emitNotify e).kd = s.kd := rfl
@[simp] theorem emitNotify_kimax {n : Nat} (s : Block n) (e : Notification) : (s.emitNotify e).kimax = s.kimax := rfl
@[simp] theorem emitNotify_stopped {n : Nat} (s : Block n) (e : Notification) : (s.emitNotify e).stopped = s.stopped := rfl
@[simp] theorem emitNotify_adcreq {n : Nat} (s : Block n) (e : Notification) : (s.emitNotify e).adcreq = s.adcreq := rfl
@[simp] theorem emitNotify_ch {n : Nat} (s : Block n) (e : Notification) (c : Chan n) : (s.emitNotify e).ch c = s.ch c := rfl

@[simp] theorem emitAdcReq_adcreq {n : Nat} (s : Block n) (a : BitVec 4) : (s.emitAdcReq a).adcreq = s.adcreq ++ [a] := rfl
@[simp] theorem emitNotify_notify {n : Nat} (s : Block n) (e : Notification) : (s.emitNotify e).notify = s.notify ++ [e] := rfl

/-! ## A channel after a write of a block register -/

@[simp] theorem ch_with_chan {n : Nat} (s : Block n) (v : Vector Channel (n + 1)) (c : Chan n) : Block.ch { s with chan := v } c = v[c] := rfl
@[simp] theorem ch_with_phase {n : Nat} (s : Block n) (v : BitVec 3) (c : Chan n) : Block.ch { s with phase := v } c = s.ch c := rfl
@[simp] theorem ch_with_pass {n : Nat} (s : Block n) (v : BitVec 5) (c : Chan n) : Block.ch { s with pass := v } c = s.ch c := rfl
@[simp] theorem ch_with_ready {n : Nat} (s : Block n) (v : Bool) (c : Chan n) : Block.ch { s with ready := v } c = s.ch c := rfl
@[simp] theorem ch_with_pwmCnt {n : Nat} (s : Block n) (v : BitVec 7) (c : Chan n) : Block.ch { s with pwmCnt := v } c = s.ch c := rfl
@[simp] theorem ch_with_ticks {n : Nat} (s : Block n) (v : BitVec 32) (c : Chan n) : Block.ch { s with ticks := v } c = s.ch c := rfl
@[simp] theorem ch_with_bedLast {n : Nat} (s : Block n) (v : BitVec 32) (c : Chan n) : Block.ch { s with bedLast := v } c = s.ch c := rfl
@[simp] theorem ch_with_kp {n : Nat} (s : Block n) (v : GainWord) (c : Chan n) : Block.ch { s with kp := v } c = s.ch c := rfl
@[simp] theorem ch_with_ki {n : Nat} (s : Block n) (v : GainWord) (c : Chan n) : Block.ch { s with ki := v } c = s.ch c := rfl
@[simp] theorem ch_with_kd {n : Nat} (s : Block n) (v : GainWord) (c : Chan n) : Block.ch { s with kd := v } c = s.ch c := rfl
@[simp] theorem ch_with_kimax {n : Nat} (s : Block n) (v : GainWord) (c : Chan n) : Block.ch { s with kimax := v } c = s.ch c := rfl
@[simp] theorem ch_with_stopped {n : Nat} (s : Block n) (v : Bool) (c : Chan n) : Block.ch { s with stopped := v } c = s.ch c := rfl
@[simp] theorem ch_with_adcreq {n : Nat} (s : Block n) (v : List (BitVec 4)) (c : Chan n) : Block.ch { s with adcreq := v } c = s.ch c := rfl
@[simp] theorem ch_with_notify {n : Nat} (s : Block n) (v : List Notification) (c : Chan n) : Block.ch { s with notify := v } c = s.ch c := rfl

/-! ## Gains -/

@[simp] theorem gain_setGain {n : Nat} (s : Block n) (g g' : Gain) (v : GainWord) :
    (s.setGain g v).gain g' = if g' = g then v else s.gain g' := by
  cases g <;> cases g' <;> rfl

@[simp] theorem setGain_ch {n : Nat} (s : Block n) (g : Gain) (v : GainWord) (c : Chan n) : (s.setGain g v).ch c = s.ch c := by cases g <;> rfl
@[simp] theorem setGain_phase {n : Nat} (s : Block n) (g : Gain) (v : GainWord) : (s.setGain g v).phase = s.phase := by cases g <;> rfl
@[simp] theorem setGain_pass {n : Nat} (s : Block n) (g : Gain) (v : GainWord) : (s.setGain g v).pass = s.pass := by cases g <;> rfl
@[simp] theorem setGain_ready {n : Nat} (s : Block n) (g : Gain) (v : GainWord) : (s.setGain g v).ready = s.ready := by cases g <;> rfl
@[simp] theorem setGain_pwmCnt {n : Nat} (s : Block n) (g : Gain) (v : GainWord) : (s.setGain g v).pwmCnt = s.pwmCnt := by cases g <;> rfl
@[simp] theorem setGain_ticks {n : Nat} (s : Block n) (g : Gain) (v : GainWord) : (s.setGain g v).ticks = s.ticks := by cases g <;> rfl
@[simp] theorem setGain_bedLast {n : Nat} (s : Block n) (g : Gain) (v : GainWord) : (s.setGain g v).bedLast = s.bedLast := by cases g <;> rfl
@[simp] theorem setGain_stopped {n : Nat} (s : Block n) (g : Gain) (v : GainWord) : (s.setGain g v).stopped = s.stopped := by cases g <;> rfl
@[simp] theorem setGain_adcreq {n : Nat} (s : Block n) (g : Gain) (v : GainWord) : (s.setGain g v).adcreq = s.adcreq := by cases g <;> rfl
@[simp] theorem setGain_notify {n : Nat} (s : Block n) (g : Gain) (v : GainWord) : (s.setGain g v).notify = s.notify := by cases g <;> rfl

/-! ## Responses -/

@[simp] theorem respond_fst {n : Nat} (st : Status) (v : BitVec 32) (s : Block n) : (respond st v s).1 = s := rfl
@[simp] theorem respond_snd {n : Nat} (st : Status) (v : BitVec 32) (s : Block n) : (respond st v s).2 = ⟨st, v⟩ := rfl
@[simp] theorem respondOk_fst {n : Nat} (v : BitVec 32) (s : Block n) : (respondOk v s).1 = s := rfl
@[simp] theorem respondOk_snd {n : Nat} (v : BitVec 32) (s : Block n) : (respondOk v s).2 = ⟨.ok, v⟩ := rfl
@[simp] theorem operandError_fst {n : Nat} (s : Block n) : (operandError s).1 = s := rfl
@[simp] theorem operandError_snd {n : Nat} (s : Block n) : (operandError s).2 = ⟨.err, 0⟩ := rfl
@[simp] theorem illegalWord_fst {n : Nat} (s : Block n) : (illegalWord s).1 = s := rfl
@[simp] theorem illegalWord_snd {n : Nat} (s : Block n) : (illegalWord s).2 = ⟨.err, 0⟩ := rfl

/-! ## The machine's own fields -/

/-- What the machine does when it performs an operation: it completes, its block and its response are the operation's, and the words
still waiting stay. -/
theorem perform_eq (s : State) (f : Block config.nExt → Block config.nExt × Response) :
    s.perform f = .next { toBlock := (f s.toBlock).1, port := s.port, response := some (f s.toBlock).2 } := rfl

/-- So a next state of `perform` is that one. -/
theorem perform_next {s t : State} {f : Block config.nExt → Block config.nExt × Response} (h : s.perform f = .next t) :
    t.toBlock = (f s.toBlock).1 ∧ t.port = s.port ∧ t.response = some (f s.toBlock).2 := by
  cases h
  exact ⟨rfl, rfl, rfl⟩

@[simp] theorem presenting_port (s : State) (w : Word) : (s.presenting w).port = ⟨issuer w, w⟩ :: s.port := rfl
@[simp] theorem presenting_response (s : State) (w : Word) : (s.presenting w).response = s.response := rfl
@[simp] theorem presenting_toBlock (s : State) (w : Word) : (s.presenting w).toBlock = s.toBlock := rfl

/-! ## Reset -/

@[simp] theorem reset_ch (cfg : Config) (c : Chan cfg.nExt) : (Block.reset cfg).ch c = Channel.reset cfg c := by
  simp [Block.reset, Block.ch]

@[simp] theorem resetBlock_eq (cfg : Config) (s : Block cfg.nExt) : resetBlock cfg s = Block.reset cfg := rfl

end Sys2Proof.Laws
end

