-- ==== Sys2Proof/Laws/Ops.lean ====
section
/-! SUPPORT. What each shared operation of Machine/Ops.lean and each predicate of Machine/Flags.lean can do, said once. -/

namespace Sys2Proof.Laws

open Sys2Proof.Machine

/-- The fault entry: sentinel and target of its channel, the history unless stopped, nothing else. -/
theorem latch_eq {n : Nat} (c : Chan n) (sen : BitVec 8) (cause : Cause) (sub : BitVec 4) (s : Block n) :
    latch c sen cause sub s =
      { s.modCh c fun k => { k with deb := sen, rawTgt := 0 } with
        notify := if s.stopped then s.notify else s.notify ++ [⟨cause, sub, c.val⟩] } := by
  unfold latch
  simp only [modCh_modCh, modCh_stopped]
  split <;> rfl

theorem latch_ch {n : Nat} (c c' : Chan n) (sen : BitVec 8) (cause : Cause) (sub : BitVec 4) (s : Block n) :
    (latch c sen cause sub s).ch c' = if c' = c then { s.ch c with deb := sen, rawTgt := 0 } else s.ch c' := by
  rw [latch_eq, ch_with_notify, ch_modCh]

theorem latch_notify {n : Nat} (c : Chan n) (sen : BitVec 8) (cause : Cause) (sub : BitVec 4) (s : Block n) :
    (latch c sen cause sub s).notify = if s.stopped then s.notify else s.notify ++ [⟨cause, sub, c.val⟩] := by
  rw [latch_eq]

/-- The port's answer to a step, by what is on it. -/
theorem present_nil {s : State} (h : s.port = []) : present s = .nothing := by
  simp [present, h]

theorem present_cons {s : State} {op : Operation} {rest : List Operation} (h : s.port = op :: rest) :
    present s = if mayIssue op.agent op.word then .word op.word { s with port := rest } else .wrongAgent := by
  simp [present, h]

/-- The word `presenting` puts on the port is one its agent may issue. -/
theorem mayIssue_issuer (w : Word) : mayIssue (issuer w) w = true := by
  unfold mayIssue issuer
  split
  · simp
  · split <;> simp

theorem present_presenting (s : State) (w : Word) : present (s.presenting w) = .word w s := by
  rw [present_cons (presenting_port s w), mayIssue_issuer]
  rfl

theorem heatEn_iff {n : Nat} (s : Block n) :
    s.heatEn = true ↔ s.stopped = false ∧ ∀ c, (s.ch c).deb ≠ sentinelOver ∧ (s.ch c).deb ≠ sentinelUnder := by
  simp only [Block.heatEn, Block.latchOver, Block.latchUnder, Bool.and_eq_true, Bool.not_eq_true', decide_eq_false_iff_not,
    not_exists]
  constructor
  · rintro ⟨⟨h1, h2⟩, h3⟩
    exact ⟨h1, fun c => ⟨h2 c, h3 c⟩⟩
  · rintro ⟨h1, h2⟩
    exact ⟨⟨h1, fun c => (h2 c).1⟩, fun c => (h2 c).2⟩

/-- The enable depends on the stop level and the debounce counters only. -/
theorem heatEn_congr {n : Nat} {s t : Block n} (h1 : t.stopped = s.stopped) (h2 : ∀ c, (t.ch c).deb = (s.ch c).deb) : t.heatEn = s.heatEn := by
  simp [Block.heatEn, Block.latchOver, Block.latchUnder, h1, h2]

end Sys2Proof.Laws
end

