-- ==== Sys2Proof/Laws/Regulator.lean ====
section
/-! SUPPORT. What the parts of `REG` can do, said once: the debounce, the bed's checks, the regulators, and the frame of the whole. -/

namespace Sys2Proof.Laws

open Sys2Proof.Machine

/-! ## DRAIN -/

/-- What taking a window does: every reading is copied and pending, the ready flag is clear, nothing else changes. -/
theorem takeWindow_eq {n : Nat} (s : Block n) :
    takeWindow s = { s with
      ready := false, chan := Vector.ofFn fun c => { s.ch c with snap := (s.ch c).rawCur, pend := true } } := rfl

@[simp] theorem takeWindow_ch {n : Nat} (s : Block n) (c : Chan n) :
    (takeWindow s).ch c = { s.ch c with snap := (s.ch c).rawCur, pend := true } := by
  simp [takeWindow]

/-! ## The debounce -/

theorem debounce_latched {n : Nat} {c : Chan n} {s : Block n} (hi lo : Bool) (h : (s.ch c).latched = true) : debounce c hi lo s = s := by
  simp [debounce, h]

theorem debounce_inRange {n : Nat} {c : Chan n} {s : Block n} (h : (s.ch c).latched = false) :
    debounce c false false s = s.modCh c fun k => { k with deb := 0 } := by
  simp [debounce, h]

theorem debounce_counts {n : Nat} {c : Chan n} {s : Block n} {hi lo : Bool} (h : (s.ch c).latched = false) (ho : (hi || lo) = true)
    (hn : (s.ch c).deb.toInt + 1 < debounceN) :
    debounce c hi lo s = s.modCh c fun k => { k with deb := BitVec.ofInt 8 ((s.ch c).deb.toInt + 1) } := by
  have : ¬ debounceN ≤ (s.ch c).deb.toInt + 1 := by omega
  simp only [debounce, h, ho, this, if_true, if_false, Bool.false_eq_true]

theorem debounce_latches {n : Nat} {c : Chan n} {s : Block n} {hi lo : Bool} (h : (s.ch c).latched = false) (ho : (hi || lo) = true)
    (hn : debounceN ≤ (s.ch c).deb.toInt + 1) : debounce c hi lo s = latchRange c hi s := by
  simp only [debounce, h, ho, hn, if_true, if_false, Bool.false_eq_true]

/-- The four ways a debounce goes. -/
theorem debounce_cases {n : Nat} (c : Chan n) (hi lo : Bool) (s : Block n) :
    ((s.ch c).latched = true ∧ debounce c hi lo s = s) ∨
    ((s.ch c).latched = false ∧ hi = false ∧ lo = false ∧ debounce c hi lo s = s.modCh c fun k => { k with deb := 0 }) ∨
    ((s.ch c).latched = false ∧ (hi || lo) = true ∧ (s.ch c).deb.toInt + 1 < debounceN ∧
      debounce c hi lo s = s.modCh c fun k => { k with deb := BitVec.ofInt 8 ((s.ch c).deb.toInt + 1) }) ∨
    ((s.ch c).latched = false ∧ (hi || lo) = true ∧ debounceN ≤ (s.ch c).deb.toInt + 1 ∧
      debounce c hi lo s = latchRange c hi s) := by
  by_cases h : (s.ch c).latched = true
  · exact .inl ⟨h, debounce_latched hi lo h⟩
  · have h := Bool.eq_false_iff.mpr h
    by_cases ho : (hi || lo) = true
    · by_cases hn : debounceN ≤ (s.ch c).deb.toInt + 1
      · exact .inr (.inr (.inr ⟨h, ho, hn, debounce_latches h ho hn⟩))
      · exact .inr (.inr (.inl ⟨h, ho, by omega, debounce_counts h ho (by omega)⟩))
    · obtain ⟨h1, h2⟩ : hi = false ∧ lo = false := by cases hi <;> cases lo <;> simp_all
      subst h1 h2
      exact .inr (.inl ⟨h, rfl, rfl, debounce_inRange h⟩)

/-! ## Frames: what taking a fault, the debounce and the bed's checks leave alone -/

@[simp] theorem latch_phase {n : Nat} (c : Chan n) (sen : BitVec 8) (cause : Cause) (sub : BitVec 4) (s : Block n) : (latch c sen cause sub s).phase = s.phase := by
  simp [latch_eq]
@[simp] theorem latch_pass {n : Nat} (c : Chan n) (sen : BitVec 8) (cause : Cause) (sub : BitVec 4) (s : Block n) : (latch c sen cause sub s).pass = s.pass := by
  simp [latch_eq]
@[simp] theorem latch_ready {n : Nat} (c : Chan n) (sen : BitVec 8) (cause : Cause) (sub : BitVec 4) (s : Block n) : (latch c sen cause sub s).ready = s.ready := by
  simp [latch_eq]
@[simp] theorem latch_pwmCnt {n : Nat} (c : Chan n) (sen : BitVec 8) (cause : Cause) (sub : BitVec 4) (s : Block n) : (latch c sen cause sub s).pwmCnt = s.pwmCnt := by
  simp [latch_eq]
@[simp] theorem latch_ticks {n : Nat} (c : Chan n) (sen : BitVec 8) (cause : Cause) (sub : BitVec 4) (s : Block n) : (latch c sen cause sub s).ticks = s.ticks := by
  simp [latch_eq]
@[simp] theorem latch_bedLast {n : Nat} (c : Chan n) (sen : BitVec 8) (cause : Cause) (sub : BitVec 4) (s : Block n) : (latch c sen cause sub s).bedLast = s.bedLast := by
  simp [latch_eq]
@[simp] theorem latch_kp {n : Nat} (c : Chan n) (sen : BitVec 8) (cause : Cause) (sub : BitVec 4) (s : Block n) : (latch c sen cause sub s).kp = s.kp := by
  simp [latch_eq]
@[simp] theorem latch_ki {n : Nat} (c : Chan n) (sen : BitVec 8) (cause : Cause) (sub : BitVec 4) (s : Block n) : (latch c sen cause sub s).ki = s.ki := by
  simp [latch_eq]
@[simp] theorem latch_kd {n : Nat} (c : Chan n) (sen : BitVec 8) (cause : Cause) (sub : BitVec 4) (s : Block n) : (latch c sen cause sub s).kd = s.kd := by
  simp [latch_eq]
@[simp] theorem latch_kimax {n : Nat} (c : Chan n) (sen : BitVec 8) (cause : Cause) (sub : BitVec 4) (s : Block n) : (latch c sen cause sub s).kimax = s.kimax := by
  simp [latch_eq]
@[simp] theorem latch_stopped {n : Nat} (c : Chan n) (sen : BitVec 8) (cause : Cause) (sub : BitVec 4) (s : Block n) : (latch c sen cause sub s).stopped = s.stopped := by
  simp [latch_eq]
@[simp] theorem latch_adcreq {n : Nat} (c : Chan n) (sen : BitVec 8) (cause : Cause) (sub : BitVec 4) (s : Block n) : (latch c sen cause sub s).adcreq = s.adcreq := by
  simp [latch_eq]

@[simp] theorem latchRange_phase {n : Nat} (c : Chan n) (hi : Bool) (s : Block n) : (latchRange c hi s).phase = s.phase := by
  simp [latchRange]
@[simp] theorem latchRange_pass {n : Nat} (c : Chan n) (hi : Bool) (s : Block n) : (latchRange c hi s).pass = s.pass := by
  simp [latchRange]
@[simp] theorem latchRange_ready {n : Nat} (c : Chan n) (hi : Bool) (s : Block n) : (latchRange c hi s).ready = s.ready := by
  simp [latchRange]
@[simp] theorem latchRange_pwmCnt {n : Nat} (c : Chan n) (hi : Bool) (s : Block n) : (latchRange c hi s).pwmCnt = s.pwmCnt := by
  simp [latchRange]
@[simp] theorem latchRange_ticks {n : Nat} (c : Chan n) (hi : Bool) (s : Block n) : (latchRange c hi s).ticks = s.ticks := by
  simp [latchRange]
@[simp] theorem latchRange_bedLast {n : Nat} (c : Chan n) (hi : Bool) (s : Block n) : (latchRange c hi s).bedLast = s.bedLast := by
  simp [latchRange]
@[simp] theorem latchRange_kp {n : Nat} (c : Chan n) (hi : Bool) (s : Block n) : (latchRange c hi s).kp = s.kp := by
  simp [latchRange]
@[simp] theorem latchRange_ki {n : Nat} (c : Chan n) (hi : Bool) (s : Block n) : (latchRange c hi s).ki = s.ki := by
  simp [latchRange]
@[simp] theorem latchRange_kd {n : Nat} (c : Chan n) (hi : Bool) (s : Block n) : (latchRange c hi s).kd = s.kd := by
  simp [latchRange]
@[simp] theorem latchRange_kimax {n : Nat} (c : Chan n) (hi : Bool) (s : Block n) : (latchRange c hi s).kimax = s.kimax := by
  simp [latchRange]
@[simp] theorem latchRange_stopped {n : Nat} (c : Chan n) (hi : Bool) (s : Block n) : (latchRange c hi s).stopped = s.stopped := by
  simp [latchRange]
@[simp] theorem latchRange_adcreq {n : Nat} (c : Chan n) (hi : Bool) (s : Block n) : (latchRange c hi s).adcreq = s.adcreq := by
  simp [latchRange]

@[simp] theorem debounce_phase {n : Nat} (c : Chan n) (hi lo : Bool) (s : Block n) : (debounce c hi lo s).phase = s.phase := by
  rcases debounce_cases c hi lo s with ⟨-, h⟩ | ⟨-, -, -, h⟩ | ⟨-, -, -, h⟩ | ⟨-, -, -, h⟩ <;> simp [h]
@[simp] theorem debounce_pass {n : Nat} (c : Chan n) (hi lo : Bool) (s : Block n) : (debounce c hi lo s).pass = s.pass := by
  rcases debounce_cases c hi lo s with ⟨-, h⟩ | ⟨-, -, -, h⟩ | ⟨-, -, -, h⟩ | ⟨-, -, -, h⟩ <;> simp [h]
@[simp] theorem debounce_ready {n : Nat} (c : Chan n) (hi lo : Bool) (s : Block n) : (debounce c hi lo s).ready = s.ready := by
  rcases debounce_cases c hi lo s with ⟨-, h⟩ | ⟨-, -, -, h⟩ | ⟨-, -, -, h⟩ | ⟨-, -, -, h⟩ <;> simp [h]
@[simp] theorem debounce_pwmCnt {n : Nat} (c : Chan n) (hi lo : Bool) (s : Block n) : (debounce c hi lo s).pwmCnt = s.pwmCnt := by
  rcases debounce_cases c hi lo s with ⟨-, h⟩ | ⟨-, -, -, h⟩ | ⟨-, -, -, h⟩ | ⟨-, -, -, h⟩ <;> simp [h]
@[simp] theorem debounce_ticks {n : Nat} (c : Chan n) (hi lo : Bool) (s : Block n) : (debounce c hi lo s).ticks = s.ticks := by
  rcases debounce_cases c hi lo s with ⟨-, h⟩ | ⟨-, -, -, h⟩ | ⟨-, -, -, h⟩ | ⟨-, -, -, h⟩ <;> simp [h]
@[simp] theorem debounce_bedLast {n : Nat} (c : Chan n) (hi lo : Bool) (s : Block n) : (debounce c hi lo s).bedLast = s.bedLast := by
  rcases debounce_cases c hi lo s with ⟨-, h⟩ | ⟨-, -, -, h⟩ | ⟨-, -, -, h⟩ | ⟨-, -, -, h⟩ <;> simp [h]
@[simp] theorem debounce_kp {n : Nat} (c : Chan n) (hi lo : Bool) (s : Block n) : (debounce c hi lo s).kp = s.kp := by
  rcases debounce_cases c hi lo s with ⟨-, h⟩ | ⟨-, -, -, h⟩ | ⟨-, -, -, h⟩ | ⟨-, -, -, h⟩ <;> simp [h]
@[simp] theorem debounce_ki {n : Nat} (c : Chan n) (hi lo : Bool) (s : Block n) : (debounce c hi lo s).ki = s.ki := by
  rcases debounce_cases c hi lo s with ⟨-, h⟩ | ⟨-, -, -, h⟩ | ⟨-, -, -, h⟩ | ⟨-, -, -, h⟩ <;> simp [h]
@[simp] theorem debounce_kd {n : Nat} (c : Chan n) (hi lo : Bool) (s : Block n) : (debounce c hi lo s).kd = s.kd := by
  rcases debounce_cases c hi lo s with ⟨-, h⟩ | ⟨-, -, -, h⟩ | ⟨-, -, -, h⟩ | ⟨-, -, -, h⟩ <;> simp [h]
@[simp] theorem debounce_kimax {n : Nat} (c : Chan n) (hi lo : Bool) (s : Block n) : (debounce c hi lo s).kimax = s.kimax := by
  rcases debounce_cases c hi lo s with ⟨-, h⟩ | ⟨-, -, -, h⟩ | ⟨-, -, -, h⟩ | ⟨-, -, -, h⟩ <;> simp [h]
@[simp] theorem debounce_stopped {n : Nat} (c : Chan n) (hi lo : Bool) (s : Block n) : (debounce c hi lo s).stopped = s.stopped := by
  rcases debounce_cases c hi lo s with ⟨-, h⟩ | ⟨-, -, -, h⟩ | ⟨-, -, -, h⟩ | ⟨-, -, -, h⟩ <;> simp [h]
@[simp] theorem debounce_adcreq {n : Nat} (c : Chan n) (hi lo : Bool) (s : Block n) : (debounce c hi lo s).adcreq = s.adcreq := by
  rcases debounce_cases c hi lo s with ⟨-, h⟩ | ⟨-, -, -, h⟩ | ⟨-, -, -, h⟩ | ⟨-, -, -, h⟩ <;> simp [h]

@[simp] theorem bedAbsCheck_phase (cfg : Config) (t : Temp) (s : Block cfg.nExt) : (bedAbsCheck cfg t s).phase = s.phase := by
  unfold bedAbsCheck; split <;> simp
@[simp] theorem bedAbsCheck_pass (cfg : Config) (t : Temp) (s : Block cfg.nExt) : (bedAbsCheck cfg t s).pass = s.pass := by
  unfold bedAbsCheck; split <;> simp
@[simp] theorem bedAbsCheck_ready (cfg : Config) (t : Temp) (s : Block cfg.nExt) : (bedAbsCheck cfg t s).ready = s.ready := by
  unfold bedAbsCheck; split <;> simp
@[simp] theorem bedAbsCheck_pwmCnt (cfg : Config) (t : Temp) (s : Block cfg.nExt) : (bedAbsCheck cfg t s).pwmCnt = s.pwmCnt := by
  unfold bedAbsCheck; split <;> simp
@[simp] theorem bedAbsCheck_ticks (cfg : Config) (t : Temp) (s : Block cfg.nExt) : (bedAbsCheck cfg t s).ticks = s.ticks := by
  unfold bedAbsCheck; split <;> simp
@[simp] theorem bedAbsCheck_bedLast (cfg : Config) (t : Temp) (s : Block cfg.nExt) : (bedAbsCheck cfg t s).bedLast = s.bedLast := by
  unfold bedAbsCheck; split <;> simp
@[simp] theorem bedAbsCheck_kp (cfg : Config) (t : Temp) (s : Block cfg.nExt) : (bedAbsCheck cfg t s).kp = s.kp := by
  unfold bedAbsCheck; split <;> simp
@[simp] theorem bedAbsCheck_ki (cfg : Config) (t : Temp) (s : Block cfg.nExt) : (bedAbsCheck cfg t s).ki = s.ki := by
  unfold bedAbsCheck; split <;> simp
@[simp] theorem bedAbsCheck_kd (cfg : Config) (t : Temp) (s : Block cfg.nExt) : (bedAbsCheck cfg t s).kd = s.kd := by
  unfold bedAbsCheck; split <;> simp
@[simp] theorem bedAbsCheck_kimax (cfg : Config) (t : Temp) (s : Block cfg.nExt) : (bedAbsCheck cfg t s).kimax = s.kimax := by
  unfold bedAbsCheck; split <;> simp
@[simp] theorem bedAbsCheck_stopped (cfg : Config) (t : Temp) (s : Block cfg.nExt) : (bedAbsCheck cfg t s).stopped = s.stopped := by
  unfold bedAbsCheck; split <;> simp
@[simp] theorem bedAbsCheck_adcreq (cfg : Config) (t : Temp) (s : Block cfg.nExt) : (bedAbsCheck cfg t s).adcreq = s.adcreq := by
  unfold bedAbsCheck; split <;> simp

@[simp] theorem bedGatedDebounce_phase (cfg : Config) (hi lo : Bool) (s : Block cfg.nExt) : (bedGatedDebounce cfg hi lo s).phase = s.phase := by
  unfold bedGatedDebounce; split <;> simp
@[simp] theorem bedGatedDebounce_pass (cfg : Config) (hi lo : Bool) (s : Block cfg.nExt) : (bedGatedDebounce cfg hi lo s).pass = s.pass := by
  unfold bedGatedDebounce; split <;> simp
@[simp] theorem bedGatedDebounce_ready (cfg : Config) (hi lo : Bool) (s : Block cfg.nExt) : (bedGatedDebounce cfg hi lo s).ready = s.ready := by
  unfold bedGatedDebounce; split <;> simp
@[simp] theorem bedGatedDebounce_pwmCnt (cfg : Config) (hi lo : Bool) (s : Block cfg.nExt) : (bedGatedDebounce cfg hi lo s).pwmCnt = s.pwmCnt := by
  unfold bedGatedDebounce; split <;> simp
@[simp] theorem bedGatedDebounce_ticks (cfg : Config) (hi lo : Bool) (s : Block cfg.nExt) : (bedGatedDebounce cfg hi lo s).ticks = s.ticks := by
  unfold bedGatedDebounce; split <;> simp
@[simp] theorem bedGatedDebounce_kp (cfg : Config) (hi lo : Bool) (s : Block cfg.nExt) : (bedGatedDebounce cfg hi lo s).kp = s.kp := by
  unfold bedGatedDebounce; split <;> simp
@[simp] theorem bedGatedDebounce_ki (cfg : Config) (hi lo : Bool) (s : Block cfg.nExt) : (bedGatedDebounce cfg hi lo s).ki = s.ki := by
  unfold bedGatedDebounce; split <;> simp
@[simp] theorem bedGatedDebounce_kd (cfg : Config) (hi lo : Bool) (s : Block cfg.nExt) : (bedGatedDebounce cfg hi lo s).kd = s.kd := by
  unfold bedGatedDebounce; split <;> simp
@[simp] theorem bedGatedDebounce_kimax (cfg : Config) (hi lo : Bool) (s : Block cfg.nExt) : (bedGatedDebounce cfg hi lo s).kimax = s.kimax := by
  unfold bedGatedDebounce; split <;> simp
@[simp] theorem bedGatedDebounce_stopped (cfg : Config) (hi lo : Bool) (s : Block cfg.nExt) : (bedGatedDebounce cfg hi lo s).stopped = s.stopped := by
  unfold bedGatedDebounce; split <;> simp
@[simp] theorem bedGatedDebounce_adcreq (cfg : Config) (hi lo : Bool) (s : Block cfg.nExt) : (bedGatedDebounce cfg hi lo s).adcreq = s.adcreq := by
  unfold bedGatedDebounce; split <;> simp

@[simp] theorem safetyState_phase (cfg : Config) (c : Chan cfg.nExt) (r : Raw) (t : Temp) (s : Block cfg.nExt) : (safetyState cfg c r t s).phase = s.phase := by
  unfold safetyState; dsimp only; split <;> simp
@[simp] theorem safetyState_pass (cfg : Config) (c : Chan cfg.nExt) (r : Raw) (t : Temp) (s : Block cfg.nExt) : (safetyState cfg c r t s).pass = s.pass := by
  unfold safetyState; dsimp only; split <;> simp
@[simp] theorem safetyState_ready (cfg : Config) (c : Chan cfg.nExt) (r : Raw) (t : Temp) (s : Block cfg.nExt) : (safetyState cfg c r t s).ready = s.ready := by
  unfold safetyState; dsimp only; split <;> simp
@[simp] theorem safetyState_pwmCnt (cfg : Config) (c : Chan cfg.nExt) (r : Raw) (t : Temp) (s : Block cfg.nExt) : (safetyState cfg c r t s).pwmCnt = s.pwmCnt := by
  unfold safetyState; dsimp only; split <;> simp
@[simp] theorem safetyState_ticks (cfg : Config) (c : Chan cfg.nExt) (r : Raw) (t : Temp) (s : Block cfg.nExt) : (safetyState cfg c r t s).ticks = s.ticks := by
  unfold safetyState; dsimp only; split <;> simp
@[simp] theorem safetyState_kp (cfg : Config) (c : Chan cfg.nExt) (r : Raw) (t : Temp) (s : Block cfg.nExt) : (safetyState cfg c r t s).kp = s.kp := by
  unfold safetyState; dsimp only; split <;> simp
@[simp] theorem safetyState_ki (cfg : Config) (c : Chan cfg.nExt) (r : Raw) (t : Temp) (s : Block cfg.nExt) : (safetyState cfg c r t s).ki = s.ki := by
  unfold safetyState; dsimp only; split <;> simp
@[simp] theorem safetyState_kd (cfg : Config) (c : Chan cfg.nExt) (r : Raw) (t : Temp) (s : Block cfg.nExt) : (safetyState cfg c r t s).kd = s.kd := by
  unfold safetyState; dsimp only; split <;> simp
@[simp] theorem safetyState_kimax (cfg : Config) (c : Chan cfg.nExt) (r : Raw) (t : Temp) (s : Block cfg.nExt) : (safetyState cfg c r t s).kimax = s.kimax := by
  unfold safetyState; dsimp only; split <;> simp
@[simp] theorem safetyState_stopped (cfg : Config) (c : Chan cfg.nExt) (r : Raw) (t : Temp) (s : Block cfg.nExt) : (safetyState cfg c r t s).stopped = s.stopped := by
  unfold safetyState; dsimp only; split <;> simp
@[simp] theorem safetyState_adcreq (cfg : Config) (c : Chan cfg.nExt) (r : Raw) (t : Temp) (s : Block cfg.nExt) : (safetyState cfg c r t s).adcreq = s.adcreq := by
  unfold safetyState; dsimp only; split <;> simp

theorem debounce_ch_ne {n : Nat} {c c' : Chan n} (hi lo : Bool) (s : Block n) (h : c' ≠ c) : (debounce c hi lo s).ch c' = s.ch c' := by
  rcases debounce_cases c hi lo s with ⟨-, e⟩ | ⟨-, -, -, e⟩ | ⟨-, -, -, e⟩ | ⟨-, -, -, e⟩ <;>
    simp [e, h, latchRange, latch_ch]

/-- The Safety Monitor writes the debounce counter and the target of its channel, and nothing else of any channel. -/
theorem debounce_ch {n : Nat} (c : Chan n) (hi lo : Bool) (s : Block n) :
    (debounce c hi lo s).ch c =
      { s.ch c with deb := ((debounce c hi lo s).ch c).deb, rawTgt := ((debounce c hi lo s).ch c).rawTgt } := by
  rcases debounce_cases c hi lo s with ⟨-, e⟩ | ⟨-, -, -, e⟩ | ⟨-, -, -, e⟩ | ⟨-, -, -, e⟩ <;>
    simp [e, latchRange, latch_ch]

theorem bedAbsCheck_ch_ne (cfg : Config) {c' : Chan cfg.nExt} (t : Temp) (s : Block cfg.nExt) (h : c' ≠ bed) :
    (bedAbsCheck cfg t s).ch c' = s.ch c' := by
  unfold bedAbsCheck
  split <;> simp [latch_ch, h]

theorem bedAbsCheck_ch (cfg : Config) (t : Temp) (s : Block cfg.nExt) :
    (bedAbsCheck cfg t s).ch bed =
      if bedTooHot cfg t = true ∧ (s.ch bed).latched = false then { s.ch bed with deb := sentinelOver, rawTgt := 0 } else s.ch bed := by
  unfold bedAbsCheck
  by_cases h1 : bedTooHot cfg t = true <;> by_cases h2 : (s.ch bed).latched = true <;> simp [h1, h2, latch_ch]

theorem safetyState_ch_ne (cfg : Config) {c c' : Chan cfg.nExt} (r : Raw) (t : Temp) (s : Block cfg.nExt) (h : c' ≠ c) :
    (safetyState cfg c r t s).ch c' = s.ch c' := by
  unfold safetyState
  dsimp only
  split
  · rename_i hb
    subst hb
    unfold bedGatedDebounce
    split
    · rw [debounce_ch_ne _ _ _ h, ch_with_bedLast, bedAbsCheck_ch_ne _ _ _ h]
    · rw [bedAbsCheck_ch_ne _ _ _ h]
  · exact debounce_ch_ne _ _ _ h

/-- The Safety Monitor writes the debounce counter and the target of its channel, and nothing else of any channel. -/
theorem safetyState_ch (cfg : Config) (c : Chan cfg.nExt) (r : Raw) (t : Temp) (s : Block cfg.nExt) :
    (safetyState cfg c r t s).ch c =
      { s.ch c with deb := ((safetyState cfg c r t s).ch c).deb, rawTgt := ((safetyState cfg c r t s).ch c).rawTgt } := by
  unfold safetyState
  dsimp only
  split
  · rename_i hb
    subst hb
    have habs : (bedAbsCheck cfg t s).ch bed = { s.ch bed with
        deb := ((bedAbsCheck cfg t s).ch bed).deb, rawTgt := ((bedAbsCheck cfg t s).ch bed).rawTgt } := by
      rw [bedAbsCheck_ch]
      split <;> rfl
    unfold bedGatedDebounce
    split
    · rw [debounce_ch]
      simp only [ch_with_bedLast]
      rw [habs]
    · exact habs
  · exact debounce_ch _ _ _ _

theorem safetyDuty_of_outOfRange {cfg : Config} {c : Chan cfg.nExt} {r : Raw} {t : Temp} {d : Duty} {s : Block cfg.nExt}
    (h : (s.ch c).outOfRange r = true) : safetyDuty cfg c r t d s = 0 := by
  simp [safetyDuty, h]

theorem safetyDuty_extruder {cfg : Config} {c : Chan cfg.nExt} {r : Raw} {t : Temp} {d : Duty} {s : Block cfg.nExt} (hc : c ≠ bed)
    (h : (s.ch c).outOfRange r = false) : safetyDuty cfg c r t d s = d := by
  simp [safetyDuty, h, hc]

/-- The gate passes the regulator's duty or stores 0 (R166, R169). -/
theorem safetyDuty_cases (cfg : Config) (c : Chan cfg.nExt) (r : Raw) (t : Temp) (d : Duty) (s : Block cfg.nExt) :
    safetyDuty cfg c r t d s = 0 ∨ safetyDuty cfg c r t d s = d := by
  unfold safetyDuty
  dsimp only
  split
  · exact .inl rfl
  · split
    · exact .inl rfl
    · exact .inr rfl

/-! ## The regulators -/

theorem fullDuty_toNat (cfg : Config) : (fullDuty cfg).toNat = cfg.maxDuty := by
  have h := cfg.maxDuty_le
  unfold fullDuty
  rw [BitVec.toNat_ofNat]
  simp only [pwmPeriod] at h
  omega

theorem pidOutput_toNat (cfg : Config) (p i dt : Int) :
    ((pidOutput cfg p i dt).toNat : Int) = clamp (floorDiv (p + i - dt) 4096) 0 (cfg.maxDuty : Int) := by
  unfold pidOutput
  have h2 := cfg.maxDuty_le
  have h : (0 : Int) ≤ clamp (floorDiv (p + i - dt) 4096) 0 (cfg.maxDuty : Int) ∧
      clamp (floorDiv (p + i - dt) 4096) 0 (cfg.maxDuty : Int) ≤ (cfg.maxDuty : Int) := clamp_range (by omega)
  rw [BitVec.toNat_ofInt]
  simp only [pwmPeriod] at h2
  omega

theorem pidChannel_high {n : Nat} {cfg : Config} {s : Block n} {sp t : Temp} (k : Channel)
    (h : (cfg.band : Int) < sp.toInt - t.toInt) : pidChannel cfg s sp t k = ({ k with pidrst := true }, fullDuty cfg) := by
  simp only [pidChannel, h, if_true]

theorem pidChannel_low {n : Nat} {cfg : Config} {s : Block n} {sp t : Temp} (k : Channel)
    (h : sp.toInt - t.toInt < -(cfg.band : Int)) : pidChannel cfg s sp t k = ({ k with pidrst := true }, 0) := by
  have h2 : ¬ (cfg.band : Int) < sp.toInt - t.toInt := by omega
  simp only [pidChannel, h, h2, if_true, if_false]

theorem pidChannel_inBand {n : Nat} {cfg : Config} {s : Block n} {sp t : Temp} (k : Channel)
    (h1 : -(cfg.band : Int) ≤ sp.toInt - t.toInt) (h2 : sp.toInt - t.toInt ≤ (cfg.band : Int)) :
    pidChannel cfg s sp t k =
      ({ k with
          isum := BitVec.ofInt 32 (integralSum cfg (imax s) (sp.toInt - t.toInt) k)
          pidrst := false
          dterm := BitVec.ofInt 40 (derivativeTerm cfg s.kd t.toInt k)
          tprev := t },
        pidOutput cfg ((s.kp.toNat : Int) * (sp.toInt - t.toInt))
          ((s.ki.toNat : Int) * integralSum cfg (imax s) (sp.toInt - t.toInt) k) (derivativeTerm cfg s.kd t.toInt k)) := by
  simp only [pidChannel, Int.not_lt.mpr h1, Int.not_lt.mpr h2, if_false]

/-- The PID writes its own four registers of the channel and nothing else. -/
theorem pidChannel_frame {n : Nat} (cfg : Config) (s : Block n) (sp t : Temp) (k : Channel) :
    (pidChannel cfg s sp t k).1 = { k with
      isum := (pidChannel cfg s sp t k).1.isum
      dterm := (pidChannel cfg s sp t k).1.dterm
      tprev := (pidChannel cfg s sp t k).1.tprev
      pidrst := (pidChannel cfg s sp t k).1.pidrst } := by
  unfold pidChannel
  dsimp only
  split
  · rfl
  · split <;> rfl

@[simp] theorem pid_phase {n : Nat} (cfg : Config) (c : Chan n) (sp t : Temp) (s : Block n) : (pid cfg c sp t s).1.phase = s.phase := rfl
@[simp] theorem pid_pass {n : Nat} (cfg : Config) (c : Chan n) (sp t : Temp) (s : Block n) : (pid cfg c sp t s).1.pass = s.pass := rfl
@[simp] theorem pid_ready {n : Nat} (cfg : Config) (c : Chan n) (sp t : Temp) (s : Block n) : (pid cfg c sp t s).1.ready = s.ready := rfl
@[simp] theorem pid_pwmCnt {n : Nat} (cfg : Config) (c : Chan n) (sp t : Temp) (s : Block n) : (pid cfg c sp t s).1.pwmCnt = s.pwmCnt := rfl
@[simp] theorem pid_ticks {n : Nat} (cfg : Config) (c : Chan n) (sp t : Temp) (s : Block n) : (pid cfg c sp t s).1.ticks = s.ticks := rfl
@[simp] theorem pid_bedLast {n : Nat} (cfg : Config) (c : Chan n) (sp t : Temp) (s : Block n) : (pid cfg c sp t s).1.bedLast = s.bedLast := rfl
@[simp] theorem pid_kp {n : Nat} (cfg : Config) (c : Chan n) (sp t : Temp) (s : Block n) : (pid cfg c sp t s).1.kp = s.kp := rfl
@[simp] theorem pid_ki {n : Nat} (cfg : Config) (c : Chan n) (sp t : Temp) (s : Block n) : (pid cfg c sp t s).1.ki = s.ki := rfl
@[simp] theorem pid_kd {n : Nat} (cfg : Config) (c : Chan n) (sp t : Temp) (s : Block n) : (pid cfg c sp t s).1.kd = s.kd := rfl
@[simp] theorem pid_kimax {n : Nat} (cfg : Config) (c : Chan n) (sp t : Temp) (s : Block n) : (pid cfg c sp t s).1.kimax = s.kimax := rfl
@[simp] theorem pid_stopped {n : Nat} (cfg : Config) (c : Chan n) (sp t : Temp) (s : Block n) : (pid cfg c sp t s).1.stopped = s.stopped := rfl
@[simp] theorem pid_adcreq {n : Nat} (cfg : Config) (c : Chan n) (sp t : Temp) (s : Block n) : (pid cfg c sp t s).1.adcreq = s.adcreq := rfl
@[simp] theorem pid_notify {n : Nat} (cfg : Config) (c : Chan n) (sp t : Temp) (s : Block n) : (pid cfg c sp t s).1.notify = s.notify := rfl

@[simp] theorem regulator_phase (cfg : Config) (c : Chan cfg.nExt) (sp t : Temp) (r : Raw) (s : Block cfg.nExt) : (regulator cfg c sp t r s).1.phase = s.phase := by
  unfold regulator; split <;> rfl
@[simp] theorem regulator_pass (cfg : Config) (c : Chan cfg.nExt) (sp t : Temp) (r : Raw) (s : Block cfg.nExt) : (regulator cfg c sp t r s).1.pass = s.pass := by
  unfold regulator; split <;> rfl
@[simp] theorem regulator_ready (cfg : Config) (c : Chan cfg.nExt) (sp t : Temp) (r : Raw) (s : Block cfg.nExt) : (regulator cfg c sp t r s).1.ready = s.ready := by
  unfold regulator; split <;> rfl
@[simp] theorem regulator_pwmCnt (cfg : Config) (c : Chan cfg.nExt) (sp t : Temp) (r : Raw) (s : Block cfg.nExt) : (regulator cfg c sp t r s).1.pwmCnt = s.pwmCnt := by
  unfold regulator; split <;> rfl
@[simp] theorem regulator_ticks (cfg : Config) (c : Chan cfg.nExt) (sp t : Temp) (r : Raw) (s : Block cfg.nExt) : (regulator cfg c sp t r s).1.ticks = s.ticks := by
  unfold regulator; split <;> rfl
@[simp] theorem regulator_bedLast (cfg : Config) (c : Chan cfg.nExt) (sp t : Temp) (r : Raw) (s : Block cfg.nExt) : (regulator cfg c sp t r s).1.bedLast = s.bedLast := by
  unfold regulator; split <;> rfl
@[simp] theorem regulator_kp (cfg : Config) (c : Chan cfg.nExt) (sp t : Temp) (r : Raw) (s : Block cfg.nExt) : (regulator cfg c sp t r s).1.kp = s.kp := by
  unfold regulator; split <;> rfl
@[simp] theorem regulator_ki (cfg : Config) (c : Chan cfg.nExt) (sp t : Temp) (r : Raw) (s : Block cfg.nExt) : (regulator cfg c sp t r s).1.ki = s.ki := by
  unfold regulator; split <;> rfl
@[simp] theorem regulator_kd (cfg : Config) (c : Chan cfg.nExt) (sp t : Temp) (r : Raw) (s : Block cfg.nExt) : (regulator cfg c sp t r s).1.kd = s.kd := by
  unfold regulator; split <;> rfl
@[simp] theorem regulator_kimax (cfg : Config) (c : Chan cfg.nExt) (sp t : Temp) (r : Raw) (s : Block cfg.nExt) : (regulator cfg c sp t r s).1.kimax = s.kimax := by
  unfold regulator; split <;> rfl
@[simp] theorem regulator_stopped (cfg : Config) (c : Chan cfg.nExt) (sp t : Temp) (r : Raw) (s : Block cfg.nExt) : (regulator cfg c sp t r s).1.stopped = s.stopped := by
  unfold regulator; split <;> rfl
@[simp] theorem regulator_adcreq (cfg : Config) (c : Chan cfg.nExt) (sp t : Temp) (r : Raw) (s : Block cfg.nExt) : (regulator cfg c sp t r s).1.adcreq = s.adcreq := by
  unfold regulator; split <;> rfl
@[simp] theorem regulator_notify (cfg : Config) (c : Chan cfg.nExt) (sp t : Temp) (r : Raw) (s : Block cfg.nExt) : (regulator cfg c sp t r s).1.notify = s.notify := by
  unfold regulator; split <;> rfl

theorem regulator_ch_ne (cfg : Config) {c c' : Chan cfg.nExt} (sp t : Temp) (r : Raw) (s : Block cfg.nExt) (h : c' ≠ c) :
    (regulator cfg c sp t r s).1.ch c' = s.ch c' := by
  unfold regulator
  split
  · simp [pid, h]
  · rfl

theorem regulator_ch (cfg : Config) (c : Chan cfg.nExt) (sp t : Temp) (r : Raw) (s : Block cfg.nExt) :
    (regulator cfg c sp t r s).1.ch c =
      match cfg.mode c with
      | .pid => (pidChannel cfg s sp t (s.ch c)).1
      | .bangbang => s.ch c := by
  unfold regulator
  cases cfg.mode c <;> simp [pid]

/-! ## REG before it regulates -/

theorem beginRegulation_ch_ne {n : Nat} {c c' : Chan n} (s : Block n) (h : c' ≠ c) : (beginRegulation c s).ch c' = s.ch c' := by
  unfold beginRegulation holdLatchedTarget
  split <;> simp [h]

theorem beginRegulation_ch {n : Nat} (c : Chan n) (s : Block n) :
    (beginRegulation c s).ch c =
      { s.ch c with pend := false, rawTgt := if (s.ch c).latched then 0 else (s.ch c).rawTgt } := by
  unfold beginRegulation holdLatchedTarget
  by_cases h : (s.ch c).latched = true
  · have h2 : ({ s.ch c with pend := false } : Channel).latched = true := h
    simp [h, h2]
  · have h := Bool.eq_false_iff.mpr h
    have h2 : ({ s.ch c with pend := false } : Channel).latched = false := h
    simp [h, h2]

@[simp] theorem beginRegulation_phase {n : Nat} (c : Chan n) (s : Block n) : (beginRegulation c s).phase = s.phase := by
  unfold beginRegulation holdLatchedTarget; split <;> rfl
@[simp] theorem beginRegulation_pass {n : Nat} (c : Chan n) (s : Block n) : (beginRegulation c s).pass = s.pass := by
  unfold beginRegulation holdLatchedTarget; split <;> rfl
@[simp] theorem beginRegulation_ready {n : Nat} (c : Chan n) (s : Block n) : (beginRegulation c s).ready = s.ready := by
  unfold beginRegulation holdLatchedTarget; split <;> rfl
@[simp] theorem beginRegulation_pwmCnt {n : Nat} (c : Chan n) (s : Block n) : (beginRegulation c s).pwmCnt = s.pwmCnt := by
  unfold beginRegulation holdLatchedTarget; split <;> rfl
@[simp] theorem beginRegulation_ticks {n : Nat} (c : Chan n) (s : Block n) : (beginRegulation c s).ticks = s.ticks := by
  unfold beginRegulation holdLatchedTarget; split <;> rfl
@[simp] theorem beginRegulation_bedLast {n : Nat} (c : Chan n) (s : Block n) : (beginRegulation c s).bedLast = s.bedLast := by
  unfold beginRegulation holdLatchedTarget; split <;> rfl
@[simp] theorem beginRegulation_kp {n : Nat} (c : Chan n) (s : Block n) : (beginRegulation c s).kp = s.kp := by
  unfold beginRegulation holdLatchedTarget; split <;> rfl
@[simp] theorem beginRegulation_ki {n : Nat} (c : Chan n) (s : Block n) : (beginRegulation c s).ki = s.ki := by
  unfold beginRegulation holdLatchedTarget; split <;> rfl
@[simp] theorem beginRegulation_kd {n : Nat} (c : Chan n) (s : Block n) : (beginRegulation c s).kd = s.kd := by
  unfold beginRegulation holdLatchedTarget; split <;> rfl
@[simp] theorem beginRegulation_kimax {n : Nat} (c : Chan n) (s : Block n) : (beginRegulation c s).kimax = s.kimax := by
  unfold beginRegulation holdLatchedTarget; split <;> rfl
@[simp] theorem beginRegulation_stopped {n : Nat} (c : Chan n) (s : Block n) : (beginRegulation c s).stopped = s.stopped := by
  unfold beginRegulation holdLatchedTarget; split <;> rfl
@[simp] theorem beginRegulation_adcreq {n : Nat} (c : Chan n) (s : Block n) : (beginRegulation c s).adcreq = s.adcreq := by
  unfold beginRegulation holdLatchedTarget; split <;> rfl
@[simp] theorem beginRegulation_notify {n : Nat} (c : Chan n) (s : Block n) : (beginRegulation c s).notify = s.notify := by
  unfold beginRegulation holdLatchedTarget; split <;> rfl

/-! ## The whole of REG -/

/-- The state of `regulate`, its steps named: begin, regulate, gate, write the duty. -/
theorem regulate_eq (cfg : Config) (c : Chan cfg.nExt) (s : Block cfg.nExt) :
    regulate cfg c s =
      let r := (s.ch c).snap
      let t := measuredTemp cfg c s
      let s1 := beginRegulation c s
      let s2 := (regulator cfg c (setpoint cfg c s1) t r s1).1
      let d := safetyDuty cfg c r t (regulator cfg c (setpoint cfg c s1) t r s1).2 s2
      ((safetyState cfg c r t s2).modCh c fun k => { k with duty := d }, d) := rfl

theorem regulate_ch_ne (cfg : Config) {c c' : Chan cfg.nExt} (s : Block cfg.nExt) (h : c' ≠ c) : (regulate cfg c s).1.ch c' = s.ch c' := by
  rw [regulate_eq]
  dsimp only
  rw [ch_modCh_ne _ _ h, safetyState_ch_ne _ _ _ _ h, regulator_ch_ne _ _ _ _ _ h, beginRegulation_ch_ne _ h]

/-- A `REG` writes of its channel these eight registers at most. -/
theorem regulate_ch (cfg : Config) (c : Chan cfg.nExt) (s : Block cfg.nExt) :
    ∃ pd d tg db is dt tp pr, (regulate cfg c s).1.ch c = { s.ch c with
      pend := pd, duty := d, rawTgt := tg, deb := db, isum := is, dterm := dt, tprev := tp, pidrst := pr } := by
  rw [regulate_eq]
  simp only [ch_modCh_same]
  rw [safetyState_ch, regulator_ch]
  cases cfg.mode c
  · simp only; rw [pidChannel_frame, beginRegulation_ch]; exact ⟨_,_,_,_,_,_,_,_,rfl⟩
  · simp only; rw [beginRegulation_ch]; exact ⟨_,_,_,_,_,_,_,_,rfl⟩

theorem regulate_duty (cfg : Config) (c : Chan cfg.nExt) (s : Block cfg.nExt) : ((regulate cfg c s).1.ch c).duty = (regulate cfg c s).2 := by
  rw [regulate_eq]
  simp

@[simp] theorem regulate_phase (cfg : Config) (c : Chan cfg.nExt) (s : Block cfg.nExt) : (regulate cfg c s).1.phase = s.phase := by
  rw [regulate_eq]; simp
@[simp] theorem regulate_pass (cfg : Config) (c : Chan cfg.nExt) (s : Block cfg.nExt) : (regulate cfg c s).1.pass = s.pass := by
  rw [regulate_eq]; simp
@[simp] theorem regulate_ready (cfg : Config) (c : Chan cfg.nExt) (s : Block cfg.nExt) : (regulate cfg c s).1.ready = s.ready := by
  rw [regulate_eq]; simp
@[simp] theorem regulate_pwmCnt (cfg : Config) (c : Chan cfg.nExt) (s : Block cfg.nExt) : (regulate cfg c s).1.pwmCnt = s.pwmCnt := by
  rw [regulate_eq]; simp
@[simp] theorem regulate_ticks (cfg : Config) (c : Chan cfg.nExt) (s : Block cfg.nExt) : (regulate cfg c s).1.ticks = s.ticks := by
  rw [regulate_eq]; simp
@[simp] theorem regulate_kp (cfg : Config) (c : Chan cfg.nExt) (s : Block cfg.nExt) : (regulate cfg c s).1.kp = s.kp := by
  rw [regulate_eq]; simp
@[simp] theorem regulate_ki (cfg : Config) (c : Chan cfg.nExt) (s : Block cfg.nExt) : (regulate cfg c s).1.ki = s.ki := by
  rw [regulate_eq]; simp
@[simp] theorem regulate_kd (cfg : Config) (c : Chan cfg.nExt) (s : Block cfg.nExt) : (regulate cfg c s).1.kd = s.kd := by
  rw [regulate_eq]; simp
@[simp] theorem regulate_kimax (cfg : Config) (c : Chan cfg.nExt) (s : Block cfg.nExt) : (regulate cfg c s).1.kimax = s.kimax := by
  rw [regulate_eq]; simp
@[simp] theorem regulate_stopped (cfg : Config) (c : Chan cfg.nExt) (s : Block cfg.nExt) : (regulate cfg c s).1.stopped = s.stopped := by
  rw [regulate_eq]; simp
@[simp] theorem regulate_adcreq (cfg : Config) (c : Chan cfg.nExt) (s : Block cfg.nExt) : (regulate cfg c s).1.adcreq = s.adcreq := by
  rw [regulate_eq]; simp

end Sys2Proof.Laws
end

