-- ==== Sys2Proof/Laws/Timer.lean ====
section
/-! SUPPORT. What the sub-steps of `TICK` can do, said once. -/

namespace Sys2Proof.Laws

open Sys2Proof.Machine

/-! ## The PWM sub-step -/

theorem leadingEdge_eq (en : Bool) (k : Channel) :
    k.leadingEdge en = { k with pwmSnap := k.duty, heat := decide (k.duty ≠ 0) && en || k.heat } := by
  unfold Channel.leadingEdge
  cases en
  · simp
  · by_cases h : k.duty ≠ 0
    · simp only [h, ne_eq, not_false_eq_true, and_self, if_true, decide_true, Bool.true_and, Bool.true_or]
    · simp only [h, false_and, if_false, decide_false, Bool.false_and, Bool.false_or]

theorem trailingEdge_eq (cnt : BitVec 7) (k : Channel) :
    k.trailingEdge cnt = { k with heat := k.heat && decide (cnt.toNat < k.pwmSnap.toNat) } := by
  unfold Channel.trailingEdge
  by_cases h : k.pwmSnap.toNat ≤ cnt.toNat
  · simp [h, Nat.not_lt.mpr h]
  · simp [h, Nat.lt_of_not_le h]

@[simp] theorem advancePwm_ch {n : Nat} (s : Block n) (c : Chan n) : s.advancePwm.ch c = s.ch c := rfl
@[simp] theorem advancePwm_pwmCnt {n : Nat} (s : Block n) : s.advancePwm.pwmCnt = BitVec.ofNat 7 ((s.pwmCnt.toNat + 1) % pwmPeriod) := rfl

theorem pwmStep_ch {n : Nat} (s : Block n) (c : Chan n) :
    (pwmStep s).ch c = if s.pwmCnt = 0 then (s.ch c).leadingEdge s.heatEn else (s.ch c).trailingEdge s.pwmCnt := by
  unfold pwmStep
  split <;> simp

/-- The PWM sub-step reads and writes the channels and its counter only. -/
theorem pwmStep_eq {n : Nat} (s : Block n) :
    pwmStep s = { s with
      chan := Vector.ofFn fun c => if s.pwmCnt = 0 then (s.ch c).leadingEdge s.heatEn else (s.ch c).trailingEdge s.pwmCnt
      pwmCnt := BitVec.ofNat 7 ((s.pwmCnt.toNat + 1) % pwmPeriod) } := by
  unfold pwmStep
  split <;> rfl

@[simp] theorem pwmStep_phase {n : Nat} (s : Block n) : (pwmStep s).phase = s.phase := by rw [pwmStep_eq]
@[simp] theorem pwmStep_pass {n : Nat} (s : Block n) : (pwmStep s).pass = s.pass := by rw [pwmStep_eq]
@[simp] theorem pwmStep_ready {n : Nat} (s : Block n) : (pwmStep s).ready = s.ready := by rw [pwmStep_eq]
theorem pwmStep_pwmCnt {n : Nat} (s : Block n) : (pwmStep s).pwmCnt = BitVec.ofNat 7 ((s.pwmCnt.toNat + 1) % pwmPeriod) := by
  rw [pwmStep_eq]
@[simp] theorem pwmStep_ticks {n : Nat} (s : Block n) : (pwmStep s).ticks = s.ticks := by rw [pwmStep_eq]
@[simp] theorem pwmStep_bedLast {n : Nat} (s : Block n) : (pwmStep s).bedLast = s.bedLast := by rw [pwmStep_eq]
@[simp] theorem pwmStep_kp {n : Nat} (s : Block n) : (pwmStep s).kp = s.kp := by rw [pwmStep_eq]
@[simp] theorem pwmStep_ki {n : Nat} (s : Block n) : (pwmStep s).ki = s.ki := by rw [pwmStep_eq]
@[simp] theorem pwmStep_kd {n : Nat} (s : Block n) : (pwmStep s).kd = s.kd := by rw [pwmStep_eq]
@[simp] theorem pwmStep_kimax {n : Nat} (s : Block n) : (pwmStep s).kimax = s.kimax := by rw [pwmStep_eq]
@[simp] theorem pwmStep_stopped {n : Nat} (s : Block n) : (pwmStep s).stopped = s.stopped := by rw [pwmStep_eq]
@[simp] theorem pwmStep_adcreq {n : Nat} (s : Block n) : (pwmStep s).adcreq = s.adcreq := by rw [pwmStep_eq]
@[simp] theorem pwmStep_notify {n : Nat} (s : Block n) : (pwmStep s).notify = s.notify := by rw [pwmStep_eq]

/-! ## The sampling sub-step -/

theorem samplePhase_ch (cfg : Config) (adc : BitVec 16) (s : Block cfg.nExt) (c : Chan cfg.nExt) :
    (samplePhase cfg adc s).ch c =
      if c.val = phch s.phase ∧ s.phase.toNat % 2 ≠ 0 then { s.ch c with acc := (s.ch c).acc + adc } else s.ch c := by
  unfold samplePhase readConversion prepareConversion
  split
  · rename_i h
    split
    · rename_i h2
      simp [h2]
    · rename_i h2
      rw [ch_modCh]
      by_cases h3 : c = ⟨phch s.phase, h⟩
      · subst h3; simp [h2]
      · have : c.val ≠ phch s.phase := fun e => h3 (Fin.ext e)
        simp [h3, this]
  · rename_i h
    have : c.val ≠ phch s.phase := fun e => h (by rw [← e]; exact c.isLt)
    simp [this]

theorem samplePhase_adcreq (cfg : Config) (adc : BitVec 16) (s : Block cfg.nExt) :
    (samplePhase cfg adc s).adcreq =
      s.adcreq ++ if h : phch s.phase < cfg.nch ∧ s.phase.toNat % 2 = 0 then [cfg.ain ⟨phch s.phase, h.1⟩] else [] := by
  unfold samplePhase readConversion prepareConversion
  split
  · rename_i h
    split
    · rename_i h2
      simp [h, h2]
    · rename_i h2
      simp [h2]
  · rename_i h
    simp [h]

@[simp] theorem samplePhase_phase (cfg : Config) (adc : BitVec 16) (s : Block cfg.nExt) : (samplePhase cfg adc s).phase = s.phase := by
  unfold samplePhase; split <;> [split <;> rfl; rfl]
@[simp] theorem samplePhase_pass (cfg : Config) (adc : BitVec 16) (s : Block cfg.nExt) : (samplePhase cfg adc s).pass = s.pass := by
  unfold samplePhase; split <;> [split <;> rfl; rfl]
@[simp] theorem samplePhase_ready (cfg : Config) (adc : BitVec 16) (s : Block cfg.nExt) : (samplePhase cfg adc s).ready = s.ready := by
  unfold samplePhase; split <;> [split <;> rfl; rfl]
@[simp] theorem samplePhase_pwmCnt (cfg : Config) (adc : BitVec 16) (s : Block cfg.nExt) : (samplePhase cfg adc s).pwmCnt = s.pwmCnt := by
  unfold samplePhase; split <;> [split <;> rfl; rfl]
@[simp] theorem samplePhase_ticks (cfg : Config) (adc : BitVec 16) (s : Block cfg.nExt) : (samplePhase cfg adc s).ticks = s.ticks := by
  unfold samplePhase; split <;> [split <;> rfl; rfl]
@[simp] theorem samplePhase_bedLast (cfg : Config) (adc : BitVec 16) (s : Block cfg.nExt) : (samplePhase cfg adc s).bedLast = s.bedLast := by
  unfold samplePhase; split <;> [split <;> rfl; rfl]
@[simp] theorem samplePhase_kp (cfg : Config) (adc : BitVec 16) (s : Block cfg.nExt) : (samplePhase cfg adc s).kp = s.kp := by
  unfold samplePhase; split <;> [split <;> rfl; rfl]
@[simp] theorem samplePhase_ki (cfg : Config) (adc : BitVec 16) (s : Block cfg.nExt) : (samplePhase cfg adc s).ki = s.ki := by
  unfold samplePhase; split <;> [split <;> rfl; rfl]
@[simp] theorem samplePhase_kd (cfg : Config) (adc : BitVec 16) (s : Block cfg.nExt) : (samplePhase cfg adc s).kd = s.kd := by
  unfold samplePhase; split <;> [split <;> rfl; rfl]
@[simp] theorem samplePhase_kimax (cfg : Config) (adc : BitVec 16) (s : Block cfg.nExt) : (samplePhase cfg adc s).kimax = s.kimax := by
  unfold samplePhase; split <;> [split <;> rfl; rfl]
@[simp] theorem samplePhase_stopped (cfg : Config) (adc : BitVec 16) (s : Block cfg.nExt) : (samplePhase cfg adc s).stopped = s.stopped := by
  unfold samplePhase; split <;> [split <;> rfl; rfl]
@[simp] theorem samplePhase_notify (cfg : Config) (adc : BitVec 16) (s : Block cfg.nExt) : (samplePhase cfg adc s).notify = s.notify := by
  unfold samplePhase; split <;> [split <;> rfl; rfl]

@[simp] theorem publish_ch (cfg : Config) (s : Block cfg.nExt) (c : Chan cfg.nExt) :
    (publish cfg s).ch c = { s.ch c with rawCur := finalReading cfg c (s.ch c).acc, acc := 0 } := by
  have h : (publish cfg s).chan = ((s.modAll fun c k => { k with rawCur := finalReading cfg c k.acc }).modAll
      fun _ k => { k with acc := 0 }).chan := rfl
  have h2 := congrArg (fun v : Vector Channel (cfg.nExt + 1) => v[c]) h
  exact h2.trans (by rw [← Block.ch, ch_modAll, ch_modAll])

@[simp] theorem publish_pass (cfg : Config) (s : Block cfg.nExt) : (publish cfg s).pass = 0 := rfl
@[simp] theorem publish_ready (cfg : Config) (s : Block cfg.nExt) : (publish cfg s).ready = true := rfl
@[simp] theorem publish_phase (cfg : Config) (s : Block cfg.nExt) : (publish cfg s).phase = s.phase := rfl
@[simp] theorem publish_pwmCnt (cfg : Config) (s : Block cfg.nExt) : (publish cfg s).pwmCnt = s.pwmCnt := rfl
@[simp] theorem publish_ticks (cfg : Config) (s : Block cfg.nExt) : (publish cfg s).ticks = s.ticks := rfl
@[simp] theorem publish_bedLast (cfg : Config) (s : Block cfg.nExt) : (publish cfg s).bedLast = s.bedLast := rfl
@[simp] theorem publish_kp (cfg : Config) (s : Block cfg.nExt) : (publish cfg s).kp = s.kp := rfl
@[simp] theorem publish_ki (cfg : Config) (s : Block cfg.nExt) : (publish cfg s).ki = s.ki := rfl
@[simp] theorem publish_kd (cfg : Config) (s : Block cfg.nExt) : (publish cfg s).kd = s.kd := rfl
@[simp] theorem publish_kimax (cfg : Config) (s : Block cfg.nExt) : (publish cfg s).kimax = s.kimax := rfl
@[simp] theorem publish_stopped (cfg : Config) (s : Block cfg.nExt) : (publish cfg s).stopped = s.stopped := rfl
@[simp] theorem publish_adcreq (cfg : Config) (s : Block cfg.nExt) : (publish cfg s).adcreq = s.adcreq := rfl
@[simp] theorem publish_notify (cfg : Config) (s : Block cfg.nExt) : (publish cfg s).notify = s.notify := rfl

/-- The three ways the phase advances: inside a pass, at the end of a pass, and at the end of the window. -/
theorem advancePhase_cases (cfg : Config) (s : Block cfg.nExt) :
    (s.phase.toNat ≠ nPhase - 1 ∧ advancePhase cfg s = { s with phase := s.phase + 1 }) ∨
    (s.phase.toNat = nPhase - 1 ∧ (s.pass + 1).toNat ≠ oversample ∧
      advancePhase cfg s = { s with phase := 0, pass := s.pass + 1 }) ∨
    (s.phase.toNat = nPhase - 1 ∧ (s.pass + 1).toNat = oversample ∧
      advancePhase cfg s = publish cfg { s with phase := 0, pass := s.pass + 1 }) := by
  unfold advancePhase
  by_cases h : s.phase.toNat = nPhase - 1
  · by_cases h2 : (s.pass + 1).toNat = oversample
    · exact .inr (.inr ⟨h, h2, by simp only [h, h2, if_true]⟩)
    · exact .inr (.inl ⟨h, h2, by simp only [h, h2, if_true, if_false]⟩)
  · exact .inl ⟨h, by simp only [h, if_false]⟩

@[simp] theorem advancePhase_pwmCnt (cfg : Config) (s : Block cfg.nExt) : (advancePhase cfg s).pwmCnt = s.pwmCnt := by
  rcases advancePhase_cases cfg s with ⟨-, h⟩ | ⟨-, -, h⟩ | ⟨-, -, h⟩ <;> simp [h]
@[simp] theorem advancePhase_ticks (cfg : Config) (s : Block cfg.nExt) : (advancePhase cfg s).ticks = s.ticks := by
  rcases advancePhase_cases cfg s with ⟨-, h⟩ | ⟨-, -, h⟩ | ⟨-, -, h⟩ <;> simp [h]
@[simp] theorem advancePhase_bedLast (cfg : Config) (s : Block cfg.nExt) : (advancePhase cfg s).bedLast = s.bedLast := by
  rcases advancePhase_cases cfg s with ⟨-, h⟩ | ⟨-, -, h⟩ | ⟨-, -, h⟩ <;> simp [h]
@[simp] theorem advancePhase_kp (cfg : Config) (s : Block cfg.nExt) : (advancePhase cfg s).kp = s.kp := by
  rcases advancePhase_cases cfg s with ⟨-, h⟩ | ⟨-, -, h⟩ | ⟨-, -, h⟩ <;> simp [h]
@[simp] theorem advancePhase_ki (cfg : Config) (s : Block cfg.nExt) : (advancePhase cfg s).ki = s.ki := by
  rcases advancePhase_cases cfg s with ⟨-, h⟩ | ⟨-, -, h⟩ | ⟨-, -, h⟩ <;> simp [h]
@[simp] theorem advancePhase_kd (cfg : Config) (s : Block cfg.nExt) : (advancePhase cfg s).kd = s.kd := by
  rcases advancePhase_cases cfg s with ⟨-, h⟩ | ⟨-, -, h⟩ | ⟨-, -, h⟩ <;> simp [h]
@[simp] theorem advancePhase_kimax (cfg : Config) (s : Block cfg.nExt) : (advancePhase cfg s).kimax = s.kimax := by
  rcases advancePhase_cases cfg s with ⟨-, h⟩ | ⟨-, -, h⟩ | ⟨-, -, h⟩ <;> simp [h]
@[simp] theorem advancePhase_stopped (cfg : Config) (s : Block cfg.nExt) : (advancePhase cfg s).stopped = s.stopped := by
  rcases advancePhase_cases cfg s with ⟨-, h⟩ | ⟨-, -, h⟩ | ⟨-, -, h⟩ <;> simp [h]
@[simp] theorem advancePhase_adcreq (cfg : Config) (s : Block cfg.nExt) : (advancePhase cfg s).adcreq = s.adcreq := by
  rcases advancePhase_cases cfg s with ⟨-, h⟩ | ⟨-, -, h⟩ | ⟨-, -, h⟩ <;> simp [h]
@[simp] theorem advancePhase_notify (cfg : Config) (s : Block cfg.nExt) : (advancePhase cfg s).notify = s.notify := by
  rcases advancePhase_cases cfg s with ⟨-, h⟩ | ⟨-, -, h⟩ | ⟨-, -, h⟩ <;> simp [h]
@[simp] theorem sampleStep_pwmCnt (cfg : Config) (adc : BitVec 16) (s : Block cfg.nExt) : (sampleStep cfg adc s).pwmCnt = s.pwmCnt := by
  simp [sampleStep]
@[simp] theorem sampleStep_ticks (cfg : Config) (adc : BitVec 16) (s : Block cfg.nExt) : (sampleStep cfg adc s).ticks = s.ticks := by
  simp [sampleStep]
@[simp] theorem sampleStep_bedLast (cfg : Config) (adc : BitVec 16) (s : Block cfg.nExt) : (sampleStep cfg adc s).bedLast = s.bedLast := by
  simp [sampleStep]
@[simp] theorem sampleStep_kp (cfg : Config) (adc : BitVec 16) (s : Block cfg.nExt) : (sampleStep cfg adc s).kp = s.kp := by
  simp [sampleStep]
@[simp] theorem sampleStep_ki (cfg : Config) (adc : BitVec 16) (s : Block cfg.nExt) : (sampleStep cfg adc s).ki = s.ki := by
  simp [sampleStep]
@[simp] theorem sampleStep_kd (cfg : Config) (adc : BitVec 16) (s : Block cfg.nExt) : (sampleStep cfg adc s).kd = s.kd := by
  simp [sampleStep]
@[simp] theorem sampleStep_kimax (cfg : Config) (adc : BitVec 16) (s : Block cfg.nExt) : (sampleStep cfg adc s).kimax = s.kimax := by
  simp [sampleStep]
@[simp] theorem sampleStep_stopped (cfg : Config) (adc : BitVec 16) (s : Block cfg.nExt) : (sampleStep cfg adc s).stopped = s.stopped := by
  simp [sampleStep]
@[simp] theorem sampleStep_notify (cfg : Config) (adc : BitVec 16) (s : Block cfg.nExt) : (sampleStep cfg adc s).notify = s.notify := by
  simp [sampleStep]

/-! ## The whole tick -/

@[simp] theorem countTick_ch {n : Nat} (s : Block n) (c : Chan n) : (countTick s).ch c = s.ch c := rfl
@[simp] theorem countTick_ticks {n : Nat} (s : Block n) : (countTick s).ticks = s.ticks + 1 := rfl
@[simp] theorem countTick_phase {n : Nat} (s : Block n) : (countTick s).phase = s.phase := rfl
@[simp] theorem countTick_pass {n : Nat} (s : Block n) : (countTick s).pass = s.pass := rfl
@[simp] theorem countTick_ready {n : Nat} (s : Block n) : (countTick s).ready = s.ready := rfl
@[simp] theorem countTick_pwmCnt {n : Nat} (s : Block n) : (countTick s).pwmCnt = s.pwmCnt := rfl
@[simp] theorem countTick_bedLast {n : Nat} (s : Block n) : (countTick s).bedLast = s.bedLast := rfl
@[simp] theorem countTick_kp {n : Nat} (s : Block n) : (countTick s).kp = s.kp := rfl
@[simp] theorem countTick_ki {n : Nat} (s : Block n) : (countTick s).ki = s.ki := rfl
@[simp] theorem countTick_kd {n : Nat} (s : Block n) : (countTick s).kd = s.kd := rfl
@[simp] theorem countTick_kimax {n : Nat} (s : Block n) : (countTick s).kimax = s.kimax := rfl
@[simp] theorem countTick_stopped {n : Nat} (s : Block n) : (countTick s).stopped = s.stopped := rfl
@[simp] theorem countTick_adcreq {n : Nat} (s : Block n) : (countTick s).adcreq = s.adcreq := rfl
@[simp] theorem countTick_notify {n : Nat} (s : Block n) : (countTick s).notify = s.notify := rfl
@[simp] theorem tickState_bedLast (cfg : Config) (adc : BitVec 16) (s : Block cfg.nExt) : (tickState cfg adc s).bedLast = s.bedLast := by
  simp [tickState]
@[simp] theorem tickState_kp (cfg : Config) (adc : BitVec 16) (s : Block cfg.nExt) : (tickState cfg adc s).kp = s.kp := by
  simp [tickState]
@[simp] theorem tickState_ki (cfg : Config) (adc : BitVec 16) (s : Block cfg.nExt) : (tickState cfg adc s).ki = s.ki := by
  simp [tickState]
@[simp] theorem tickState_kd (cfg : Config) (adc : BitVec 16) (s : Block cfg.nExt) : (tickState cfg adc s).kd = s.kd := by
  simp [tickState]
@[simp] theorem tickState_kimax (cfg : Config) (adc : BitVec 16) (s : Block cfg.nExt) : (tickState cfg adc s).kimax = s.kimax := by
  simp [tickState]
@[simp] theorem tickState_stopped (cfg : Config) (adc : BitVec 16) (s : Block cfg.nExt) : (tickState cfg adc s).stopped = s.stopped := by
  simp [tickState]
@[simp] theorem tickState_notify (cfg : Config) (adc : BitVec 16) (s : Block cfg.nExt) : (tickState cfg adc s).notify = s.notify := by
  simp [tickState]

@[simp] theorem tickState_ticks (cfg : Config) (adc : BitVec 16) (s : Block cfg.nExt) :
    (tickState cfg adc s).ticks = s.ticks + 1 := by
  simp [tickState]

theorem tickState_pwmCnt (cfg : Config) (adc : BitVec 16) (s : Block cfg.nExt) :
    (tickState cfg adc s).pwmCnt = BitVec.ofNat 7 ((s.pwmCnt.toNat + 1) % pwmPeriod) := by
  simp [tickState, pwmStep_pwmCnt]

/-- The snapshot and the pin of a channel after the PWM sub-step, at the leading edge and elsewhere; nothing else of it changes. -/
theorem pwmStep_ch_cases {n : Nat} (s : Block n) (c : Chan n) :
    (s.pwmCnt = 0 ∧ (pwmStep s).ch c = { s.ch c with
      pwmSnap := (s.ch c).duty, heat := decide ((s.ch c).duty ≠ 0) && s.heatEn || (s.ch c).heat }) ∨
    (s.pwmCnt ≠ 0 ∧ (pwmStep s).ch c = { s.ch c with
      heat := (s.ch c).heat && decide (s.pwmCnt.toNat < (s.ch c).pwmSnap.toNat) }) := by
  rw [pwmStep_ch]
  split
  · rename_i h
    exact .inl ⟨h, leadingEdge_eq _ _⟩
  · rename_i h
    exact .inr ⟨h, trailingEdge_eq _ _⟩

/-- What a tick does to a channel and to the counters of the sampling machine: the PWM's writes, the sample of a read phase, and the
publication at the end of the window. -/
theorem tickState_ch (cfg : Config) (adc : BitVec 16) (s : Block cfg.nExt) (c : Chan cfg.nExt) :
    let k := (pwmStep s).ch c
    let a : BitVec 16 := if c.val = phch s.phase ∧ s.phase.toNat % 2 ≠ 0 then k.acc + adc else k.acc
    (tickState cfg adc s).ch c =
        (if s.phase.toNat = 7 ∧ (s.pass + 1).toNat = 16 then { k with rawCur := finalReading cfg c a, acc := 0 }
          else { k with acc := a }) ∧
      (tickState cfg adc s).phase = s.phase + 1 ∧
      (tickState cfg adc s).pass =
        (if s.phase.toNat = 7 then (if (s.pass + 1).toNat = 16 then 0 else s.pass + 1) else s.pass) ∧
      (tickState cfg adc s).ready = (if s.phase.toNat = 7 ∧ (s.pass + 1).toNat = 16 then true else s.ready) := by
  dsimp only
  simp only [tickState, countTick_ch, countTick_phase, countTick_pass, countTick_ready, sampleStep]
  have hsp : (samplePhase cfg adc (pwmStep s)).ch c = { (pwmStep s).ch c with
      acc := if c.val = phch s.phase ∧ s.phase.toNat % 2 ≠ 0 then ((pwmStep s).ch c).acc + adc
        else ((pwmStep s).ch c).acc } := by
    rw [samplePhase_ch]; simp only [pwmStep_phase]; split <;> rfl
  generalize hs : samplePhase cfg adc (pwmStep s) = x at *
  have e1 : x.phase = s.phase := by rw [← hs]; simp
  have e2 : x.pass = s.pass := by rw [← hs]; simp
  have e3 : x.ready = s.ready := by rw [← hs]; simp
  rcases advancePhase_cases cfg x with ⟨h1,h⟩ | ⟨h1,h2,h⟩ | ⟨h1,h2,h⟩
  · rw [h]; rw [e1] at h1; simp only [nPhase] at h1
    have h1' : ¬ s.phase.toNat = 7 := h1
    simp only [h1', false_and, if_false]
    exact ⟨hsp, by rw [e1], e2, e3⟩
  · rw [h]; rw [e1] at h1; rw [e2] at h2; simp only [nPhase, oversample] at h1 h2
    have h1' : s.phase.toNat = 7 := h1
    have hp : s.phase = 7#3 := BitVec.eq_of_toNat_eq h1
    simp only [h1', h2, and_false, if_false, if_true]
    rw [h1'] at hsp
    exact ⟨hsp, by rw [hp]; rfl, by rw [e2], e3⟩
  · rw [h]; rw [e1] at h1; rw [e2] at h2; simp only [nPhase, oversample] at h1 h2
    have h1' : s.phase.toNat = 7 := h1
    have hp : s.phase = 7#3 := BitVec.eq_of_toNat_eq h1
    simp only [h1', h2, and_true, if_true]
    rw [h1'] at hsp
    refine ⟨?_, by rw [hp]; rfl, rfl, rfl⟩
    have : ∀ y : Block cfg.nExt, y.ch c = x.ch c →
        ({ y.ch c with rawCur := finalReading cfg c (y.ch c).acc, acc := 0 } : Channel) =
          { x.ch c with rawCur := finalReading cfg c (x.ch c).acc, acc := 0 } := by
      intro y hy
      rw [hy]
    rw [publish_ch]; refine (this _ rfl).trans ?_; rw [hsp]

end Sys2Proof.Laws
end

