-- ==== Sys2Proof/Laws/Exec.lean ====
section
/-! SUPPORT. `exec` and `step` as operations of the block, and what an operation of the host agent can do, said once over all of
them. -/

namespace Sys2Proof.Laws

open Sys2Proof.Machine

/-- The machine performs on its block the operation `operate` says. -/
theorem exec_eq_perform (i : Instr) (s : State) : exec i s = s.perform (operate config i) := by
  cases i <;> rfl

/-- A next state of `exec`: the operation's block and response, and the waiting words as they were. -/
theorem exec_next {i : Instr} {s t : State} (h : exec i s = .next t) :
    t = { toBlock := (operate config i s.toBlock).1, port := s.port, response := some (operate config i s.toBlock).2 } := by
  rw [exec_eq_perform, perform_eq] at h
  cases h
  rfl

/-- A step on a word its agent may issue performs that word. -/
theorem step_eq_perform {s s' : State} {w : Word} (h : present s = .word w s') : step s = s'.perform (operateWord config w) := by
  unfold step
  rw [h]
  show (match decode w with | .ok i => exec i s' | .error _ => s'.perform illegalWord) = _
  unfold decode operateWord
  cases decodeFor config w with
  | ok i => exact exec_eq_perform i s'
  | error => rfl

/-- The three ways a step goes: nothing presented, a word performed, a word refused. -/
theorem step_cases (s : State) :
    (s.port = [] ∧ step s = .next s) ∨
    (∃ op rest, s.port = op :: rest ∧ mayIssue op.agent op.word = true ∧
      step s = State.perform { s with port := rest } (operateWord config op.word)) ∨
    (∃ op rest, s.port = op :: rest ∧ mayIssue op.agent op.word = false ∧ step s = .refused .wrongAgent) := by
  cases hp : s.port with
  | nil => exact .inl ⟨rfl, by simp only [step, present_nil hp]⟩
  | cons op rest =>
    have h := present_cons hp
    cases hm : mayIssue op.agent op.word with
    | true => exact .inr (.inl ⟨op, rest, rfl, hm, step_eq_perform (by rw [h, hm]; rfl)⟩)
    | false => exact .inr (.inr ⟨op, rest, rfl, hm, by simp only [step, h, hm, if_false, Bool.false_eq_true]⟩)

/-- A tick whose sample fits runs the three lines of R110. -/
theorem tickOp_of_ok {cfg : Config} {adc : BitVec 16} (h : SampleOk cfg adc) (s : Block cfg.nExt) :
    tickOp cfg adc s = respondOk 0 (tickState cfg adc s) := by
  simp only [tickOp, sample?_of_ok h]

/-- A tick at the head of a sequence is one more sample, any other operation none. -/
theorem tickSamples_cons (cfg : Config) (i : Instr) (is : List Instr) :
    Safety.tickSamples cfg (i :: is) =
      (match i with
        | .tick adc => (sample? cfg adc).toList
        | _ => []) ++ Safety.tickSamples cfg is := by
  unfold Safety.tickSamples
  cases i <;> first | rfl | skip
  rename_i adc
  cases h : sample? cfg adc <;> simp [h]

theorem tickCount_cons_tick {cfg : Config} {i : Instr} (is : List Instr) (h : Safety.isTick cfg i = true) :
    Safety.tickCount cfg (i :: is) = Safety.tickCount cfg is + 1 := by
  unfold Safety.tickCount
  rw [tickSamples_cons]
  cases i <;> first | cases h | skip
  rename_i adc
  simp [sample?_of_ok (of_decide_eq_true h)]

theorem tickCount_cons_other {cfg : Config} {i : Instr} (is : List Instr) (h : Safety.isTick cfg i = false) :
    Safety.tickCount cfg (i :: is) = Safety.tickCount cfg is := by
  unfold Safety.tickCount
  rw [tickSamples_cons]
  cases i <;> first | rfl | skip
  rename_i adc
  simp [sample?_of_not (of_decide_eq_false h)]

/-- The blocks an operation other than a tick and `RESET` can leave. -/
inductive HostStep (cfg : Config) (s : Block cfg.nExt) : Block cfg.nExt → Prop where
  /-- Nothing but a response. -/
  | same : HostStep cfg s s
  /-- `DRAIN` with a window ready. -/
  | drain : s.ready = true → HostStep cfg s (takeWindow s)
  /-- `REG` with a window pending. -/
  | reg (c : Chan cfg.nExt) : (s.ch c).pend = true → HostStep cfg s (regulate cfg c s).1
  /-- A new target, in range. -/
  | target (c : Chan cfg.nExt) (r : Raw) : r.toNat ≤ cfg.fullScale → HostStep cfg s (s.modCh c fun k => { k with rawTgt := r })
  /-- A new duty, in range. -/
  | duty (c : Chan cfg.nExt) (d : Duty) : d.toNat ≤ cfg.maxDuty → HostStep cfg s (s.modCh c fun k => { k with duty := d })
  /-- A new gain. -/
  | gain (g : Gain) (v : GainWord) : HostStep cfg s (s.setGain g v)
  /-- A new calibration cell. -/
  | cal (c : Chan cfg.nExt) (j : Fin 6) (v : BitVec 16) : HostStep cfg s (s.modCh c fun k => { k with cal := k.cal.set j v })
  /-- A new level of `STOPPED`. -/
  | stop (b : Bool) : HostStep cfg s { s with stopped := b }

/-- Every operation but a tick and `RESET` has one of the shapes of `HostStep`. -/
theorem hostStep_of_operate {cfg : Config} {i : Instr} (s : Block cfg.nExt) (hi : Safety.isTick cfg i = false) (hr : i ≠ .reset) :
    HostStep cfg s (operate cfg i s).1 := by
  cases i with
  | reset => exact absurd rfl hr
  | nop => exact .same
  | tick adc =>
    have h : ¬ SampleOk cfg adc := of_decide_eq_false hi
    simp only [operate, tickOp, sample?_of_not h]
    exact .same
  | drain =>
    simp only [operate, drainOp]
    split
    · exact .drain ‹_›
    · exact .same
  | reg c =>
    simp only [operate, regOp]
    split
    · exact .same
    · unfold regChannel
      split
      · exact .reg _ ‹_›
      · exact .same
  | settgt c t =>
    simp only [operate, settgtOp]
    split
    · exact .same
    · exact .target _ _ (cfg.tempToRaw_le _ _ _)
  | gettgt c =>
    simp only [operate, gettgtOp]
    split <;> exact .same
  | gettemp c =>
    simp only [operate, gettempOp]
    split <;> exact .same
  | getpwr c =>
    simp only [operate, getpwrOp]
    split <;> exact .same
  | getgain j =>
    simp only [operate, getgainOp]
    split <;> exact .same
  | getcal c j =>
    simp only [operate, getcalOp]
    split <;> exact .same
  | setduty c d =>
    simp only [operate, setdutyOp]
    split
    · rename_i d' _ hd
      refine .duty _ _ ?_
      unfold duty? at hd
      split at hd
      · cases hd; assumption
      · cases hd
    · exact .same
  | clrtgt c =>
    simp only [operate, clrtgtOp]
    split
    · exact .same
    · exact .target _ _ (Nat.zero_le _)
  | setgain j g =>
    simp only [operate, setgainOp]
    split
    · exact .same
    · exact .gain _ _
  | setcal c j v =>
    simp only [operate, setcalOp]
    split
    · exact .cal _ _ _
    · exact .same
  | setstop v => exact .stop _

end Sys2Proof.Laws
end

