-- ==== Sys2Proof/Machine/Autotune.lean ====
section
/-! DEFINITION. The relay autotune procedure of the host (R195 to R207). It is host software, outside the block (R3): one more source of
operation words, interleaved with `TICK` like any other host activity, so no arm of `exec` uses it. The session's arithmetic is exact on
rational numbers; the gains of R202, which hold π, are real numbers (log entry 10). -/

namespace Sys2Proof.Machine

/-! ## The session (R196) -/

/-- The host's clock `now()`, a host resource apart from `TICKS`, and monotonic (R204): what its first, second, third … reading shows, in
seconds, and that no reading shows an earlier time than the one before it. -/
structure Clock where
  seconds : Nat → Rat
  monotonic : ∀ n, seconds n ≤ seconds (n + 1)

/-- What the gains are computed from, as it stands when they are (R202): the swing, the extreme temperatures and `Tu`. -/
structure Oscillation where
  swing : Rat
  tmax : Rat
  tmin : Rat
  /-- `Tu` = t_low + t_high, in seconds. -/
  tu : Rat
deriving DecidableEq, Repr

/-- The variables of an autotune session, held by the host (R196, R207). Temperatures in °C, times in seconds, duties in duty units. -/
structure Autotune where
  /-- The channel being tuned. -/
  chan : BitVec 4
  target : Rat
  bias : Rat
  swing : Rat
  heating : Bool
  cycles : Nat
  /-- The time of the last crossing (R199, R200). -/
  tCross : Rat
  /-- The time the last full cycle completed, or of entry (R207). -/
  tCycle : Rat
  tHigh : Rat
  tLow : Rat
  /-- The highest temperature seen; `none` is −inf (R207). -/
  tmax : Option Rat
  /-- The lowest temperature seen; `none` is +inf (R207). -/
  tmin : Option Rat
  /-- What the last gains were computed from, once they have been (R202). -/
  gains : Option Oscillation
  /-- How often `now()` has been called. -/
  reads : Nat
deriving DecidableEq, Repr

/-- How a session ends (R203): success with what its gains are computed from, or one of the two failures. -/
inductive AutotuneEnd where
  | ok (gains : Option Oscillation)
  | overTemperature
  | timeout
deriving DecidableEq, Repr

/-- The temperature margin above the target at which the session aborts (R203). -/
def runawayMargin : Rat := 20

/-- The timeout, 10 minutes (R203). -/
def autotuneTimeout : Rat := 600

/-! ## The gains (R202) -/

/-- A quotient of the formulas of R202; by zero, a free value (log entry 10). -/
noncomputable def realQuotient (a b : ℝ) : ℝ :=
  open Classical in if b = 0 then unstatedRealQuotient a else a / b

/-- Ku = 4·swing / (π·(max−min)/2) (R202). -/
noncomputable def Oscillation.ku (o : Oscillation) : ℝ := realQuotient (4 * (o.swing : ℝ)) (Real.pi * ((o.tmax : ℝ) - (o.tmin : ℝ)) / 2)

/-- Kp = 0.6 Ku (R202). -/
noncomputable def Oscillation.kp (o : Oscillation) : ℝ := 0.6 * o.ku

/-- Ki = 2 Kp / Tu, per second (R202). -/
noncomputable def Oscillation.ki (o : Oscillation) : ℝ := realQuotient (2 * o.kp) (o.tu : ℝ)

/-- Kd = Kp Tu / 8, in seconds (R202). -/
noncomputable def Oscillation.kd (o : Oscillation) : ℝ := o.kp * (o.tu : ℝ) / 8

/-- The gains a successful session reports for the operator to apply: Kp, Ki, Kd (R203). -/
noncomputable def AutotuneEnd.report : AutotuneEnd → Option (ℝ × ℝ × ℝ)
  | .ok (some o) => some (o.kp, o.ki, o.kd)
  | _ => none

/-! ## One turn of the loop -/

/-- A quotient of the formula of R201; by zero, a free value (log entry 10). -/
def quotient (a b : Rat) : Rat := if b = 0 then unstatedQuotient a else a / b

/-- `SETDUTY c, floor(d)` (R207). -/
def setdutyFloor (c : BitVec 4) (d : Rat) : Instr := .setduty c (BitVec.ofInt 8 d.floor)

/-- `tmax` and `tmin` with one more temperature (R199, R200, R207). -/
def Autotune.observe (a : Autotune) (t : Rat) : Autotune :=
  { a with
    tmax := some (match a.tmax with | none => t | some m => max m t)
    tmin := some (match a.tmin with | none => t | some m => min m t) }

/-- The bias correction, from the second full cycle on (R201). The clamp has its low limit at or below its high one, and both relay levels
stay in 0 .. MAX_DUTY, because `Config` admits only margins with 0 ≤ AT_MARGIN ≤ MAX_DUTY − AT_MARGIN: the spec leaves AT_MARGIN open
and states no constraint, so that bound is the model's (DESIGN CHOICE, log entry 10). -/
def Autotune.correctBias (cfg : Config) (a : Autotune) : Autotune :=
  if 2 ≤ a.cycles then
    let b := a.bias + quotient (a.swing * (a.tHigh - a.tLow)) (a.tLow + a.tHigh)
    let b := max cfg.atMargin (min ((cfg.maxDuty : Rat) - cfg.atMargin) b)
    { a with bias := b, swing := min b ((cfg.maxDuty : Rat) - b) }
  else a

/-- The gains, after more than two cycles: what they are computed from is kept (R202). -/
def Autotune.computeGains (a : Autotune) : Autotune :=
  match a.tmax, a.tmin with
  | some hi, some lo => if 2 < a.cycles then { a with gains := some ⟨a.swing, hi, lo, a.tLow + a.tHigh⟩ } else a
  | _, _ => a

/-- The relay: what a temperature on the far side of the target makes of the session, and the operations it issues (R199, R200). Every
`now()` of R207 is a reading of its own. -/
def Autotune.relay (cfg : Config) (now : Clock) (t : Rat) (a : Autotune) : Autotune × List Instr :=
  if a.heating ∧ a.target < t then
    ({ a with heating := false, tHigh := now.seconds a.reads - a.tCross, tCross := now.seconds (a.reads + 1), reads := a.reads + 2 },
      [setdutyFloor a.chan (a.bias - a.swing)])
  else if ¬ a.heating ∧ t < a.target then
    let a := { a with
      heating := true, tLow := now.seconds a.reads - a.tCross, tCross := now.seconds (a.reads + 1)
      tCycle := now.seconds (a.reads + 2), reads := a.reads + 3, cycles := a.cycles + 1 }
    let a := (a.correctBias cfg).computeGains
    (a, [setdutyFloor a.chan (a.bias + a.swing)])
  else (a, [])

/-- One turn of the loop on a drained window's temperature: runaway check, relay, timeout, success (R203, R207). The operations are in
the order the turn issues them. -/
def Autotune.window (cfg : Config) (now : Clock) (t : Rat) (a : Autotune) : Autotune × List Instr × Option AutotuneEnd :=
  let a := a.observe t
  if a.target + runawayMargin < t then (a, Pseudo.alloff.expand cfg, some .overTemperature)
  else
    let (a, ops) := a.relay cfg now t
    let elapsed := now.seconds a.reads - a.tCycle
    let a := { a with reads := a.reads + 1 }
    if autotuneTimeout < elapsed then (a, ops ++ Pseudo.alloff.expand cfg, some .timeout)
    else if 5 < a.cycles then (a, ops ++ Pseudo.alloff.expand cfg, some (.ok a.gains))
    else (a, ops, none)

/-- The word `GETTEMP` answered, as a temperature in °C: the signed result divided by 16 (R207, R219). -/
def degreesOf (v : BitVec 32) : Rat := (v.toInt : Rat) / 16

/-! ## The procedure as a task of the host -/

/-- Where the procedure stands once it has no more operations of the current lines to issue. -/
inductive AutotunePoint where
  /-- At `wait until DRAIN responds 1`. -/
  | poll
  /-- At `T <- (GETTEMP c) / 16`. -/
  | read
  /-- At `return`. -/
  | done (e : AutotuneEnd)
deriving DecidableEq, Repr

/-- The procedure between two of its operations: its variables, the operations it has decided on and not issued yet, and its place. -/
structure AutotuneTask where
  session : Autotune
  todo : List Instr
  point : AutotunePoint
deriving DecidableEq, Repr

/-- Entry: all heaters off, the variables, then the first relay level; then the loop (R197, R198, R207). -/
def AutotuneTask.start (cfg : Config) (now : Clock) (c : BitVec 4) (target : Rat) : AutotuneTask :=
  let half : Rat := (cfg.maxDuty : Rat) / 2
  { session := {
      chan := c, target := target, bias := half, swing := half, heating := true, cycles := 0
      tCross := now.seconds 0, tCycle := now.seconds 1, tHigh := 0, tLow := 0, tmax := none, tmin := none, gains := none, reads := 2 }
    todo := Pseudo.alloff.expand cfg ++ [setdutyFloor c (half + half)]
    point := .poll }

/-- The next operation the procedure issues; none after its return. -/
def AutotuneTask.next (t : AutotuneTask) : Option Instr :=
  match t.todo, t.point with
  | i :: _, _ => some i
  | [], .poll => some .drain
  | [], .read => some (.gettemp t.session.chan)
  | [], .done _ => none

/-- The procedure goes on with the response `r` of that operation: it repeats the poll until `DRAIN` responds 1, and turns the loop on
the temperature `GETTEMP` responds (R207). -/
def AutotuneTask.resume (cfg : Config) (now : Clock) (r : Response) (t : AutotuneTask) : AutotuneTask :=
  match t.todo, t.point with
  | _ :: rest, _ => { t with todo := rest }
  | [], .poll => if r.result = 1 then { t with point := .read } else t
  | [], .read =>
    match t.session.window cfg now (degreesOf r.result) with
    | (a, ops, none) => { session := a, todo := ops, point := .poll }
    | (a, ops, some e) => { session := a, todo := ops, point := .done e }
  | [], .done _ => t

/-- How the procedure ended, once it has issued its last operation. -/
def AutotuneTask.returned (t : AutotuneTask) : Option AutotuneEnd :=
  match t.todo, t.point with
  | [], .done e => some e
  | _, _ => none

/-! ## Running it against a block -/

/-- Whose operation comes next in the total order of R71 while a session is on. -/
inductive AutotuneEvent where
  /-- The timer agent's `TICK`, with its sample. -/
  | timer (adc : BitVec 16)
  /-- The procedure's own next operation; nothing after its return. -/
  | procedure
  /-- An operation of the rest of the host, such as the `SETSTOP 1` or the `ALLOFF` of a cancellation (R206). -/
  | host (i : Instr)
deriving DecidableEq, Repr

/-- The operation an event issues; none for the procedure after its return. -/
def AutotuneEvent.issues (t : AutotuneTask) : AutotuneEvent → Option Instr
  | .timer adc => some (.tick adc)
  | .procedure => t.next
  | .host i => some i

/-- What the host may issue: for the whole session no `REG` of the tuned channel, so that `SETDUTY` is the only producer of its duty
(R197), and never a `TICK`, which is the timer's (R88). -/
def AutotuneEvent.allowed (t : AutotuneTask) : AutotuneEvent → Bool
  | .host (.reg c) => t.returned.isSome || c ≠ t.session.chan
  | .host (.tick _) => false
  | _ => true

/-- One operation of a session, whosever it is; no step for an event the session's preconditions forbid (R197). -/
def autotuneStep (cfg : Config) (now : Clock) (p : AutotuneTask × Block cfg.nExt) (e : AutotuneEvent) :
    Option (AutotuneTask × Block cfg.nExt) :=
  if e.allowed p.1 then
    match e.issues p.1 with
    | none => some p
    | some i =>
      let (s, r) := operate cfg i p.2
      some (if e = .procedure then p.1.resume cfg now r else p.1, s)
  else none

/-- `AUTOTUNE(c, target)` from its entry, along any interleaving `es` of its operations with the timer's and the rest of the host's
(R71, R195, R207); none for an interleaving with a `REG c` before the return, which is no session (R197). It has returned when
`AutotuneTask.returned` of the task is some end. -/
def autotune (cfg : Config) (now : Clock) (c : BitVec 4) (target : Rat) (es : List AutotuneEvent) (s : Block cfg.nExt) :
    Option (AutotuneTask × Block cfg.nExt) :=
  es.foldlM (autotuneStep cfg now) (AutotuneTask.start cfg now c target, s)

end Sys2Proof.Machine
end

