-- ==== Sys2Proof/Laws/Autotune.lean ====
section
/-! SUPPORT. What the host's autotune procedure keeps: its relay levels stay in the duty range, so that the floor of a level is a duty
`SETDUTY` takes; on a monotonic clock no time it measures is negative; and in a session `SETDUTY` alone produces the tuned channel's duty. -/

namespace Sys2Proof.Laws

open Sys2Proof.Machine

/-- After a bias correction both relay levels are in 0 .. MAX_DUTY (R201), by the bounds `Config` puts on AT_MARGIN. -/
theorem correctBias_levels (cfg : Config) (a : Autotune) (h : 2 ≤ a.cycles) :
    0 ≤ (a.correctBias cfg).bias - (a.correctBias cfg).swing ∧
      0 ≤ (a.correctBias cfg).swing ∧ (a.correctBias cfg).bias + (a.correctBias cfg).swing ≤ cfg.maxDuty := by
  have h1 := cfg.atMargin_nonneg
  have h2 := cfg.two_mul_atMargin_le
  simp only [Autotune.correctBias, h, if_true]
  generalize a.bias + quotient (a.swing * (a.tHigh - a.tLow)) (a.tLow + a.tHigh) = x
  generalize hb : max cfg.atMargin (min ((cfg.maxDuty : Rat) - cfg.atMargin) x) = b
  have h3 : 0 ≤ b := hb ▸ le_trans h1 (le_max_left _ _)
  have h4 : b ≤ cfg.maxDuty := by
    rw [← hb]
    exact max_le (by linarith) (le_trans (min_le_left _ _) (by linarith))
  refine ⟨sub_nonneg.mpr (min_le_left _ _), le_min h3 (by linarith), ?_⟩
  have := min_le_right b ((cfg.maxDuty : Rat) - b)
  linarith

/-- The word of a level in the duty range holds the floor of the level, and `SETDUTY` takes it. -/
theorem setdutyFloor_eq (cfg : Config) (c : BitVec 4) (d : Rat) (h0 : 0 ≤ d) (h1 : d ≤ cfg.maxDuty) :
    ∃ v : Duty, setdutyFloor c d = .setduty c v ∧ (v.toNat : Int) = d.floor ∧ DutyOk cfg v := by
  have h2 := cfg.maxDuty_le
  have h3 : 0 ≤ d.floor := Rat.le_floor_iff.mpr (by simpa using h0)
  have h4 : d.floor ≤ cfg.maxDuty := by
    have h5 : (d.floor : Rat) ≤ cfg.maxDuty := le_trans (Rat.floor_le d) h1
    exact_mod_cast h5
  simp only [pwmPeriod] at h2
  refine ⟨BitVec.ofInt 8 d.floor, rfl, ?_, ?_⟩
  · rw [BitVec.toNat_ofInt]
    omega
  · show (BitVec.ofInt 8 d.floor).toNat ≤ cfg.maxDuty
    rw [BitVec.toNat_ofInt]
    omega

/-- What a monotonic clock makes of a session's times: the stored instants are not later than the next reading, and the measured times of
the two half cycles are not negative. -/
def TimesOk (now : Clock) (a : Autotune) : Prop :=
  a.tCross ≤ now.seconds a.reads ∧ a.tCycle ≤ now.seconds a.reads ∧ 0 ≤ a.tHigh ∧ 0 ≤ a.tLow

/-- A later reading shows no earlier time (R204). -/
theorem seconds_mono (now : Clock) : Monotone now.seconds := monotone_nat_of_le_succ now.monotonic

/-- The times of a session at its entry. -/
theorem start_timesOk (cfg : Config) (now : Clock) (c : BitVec 4) (target : Rat) :
    TimesOk now (AutotuneTask.start cfg now c target).session :=
  ⟨seconds_mono now (by decide : 0 ≤ 2), seconds_mono now (by decide : 1 ≤ 2), le_refl _, le_refl _⟩

/-- The bias correction writes no time and reads no clock. -/
theorem correctBias_times (cfg : Config) (now : Clock) (a : Autotune) : TimesOk now (a.correctBias cfg) ↔ TimesOk now a := by
  unfold Autotune.correctBias
  split <;> rfl

/-- Keeping what the gains are computed from writes no time and reads no clock. -/
theorem computeGains_times (now : Clock) (a : Autotune) : TimesOk now a.computeGains ↔ TimesOk now a := by
  unfold Autotune.computeGains
  split
  · split <;> rfl
  · rfl

/-- The relay keeps the times as they must be on a monotonic clock (R199, R200, R204). -/
theorem relay_timesOk (cfg : Config) (now : Clock) (t : Rat) (a : Autotune) (h : TimesOk now a) : TimesOk now (a.relay cfg now t).1 := by
  obtain ⟨hx, hy, hh, hl⟩ := h
  unfold Autotune.relay
  split
  · exact ⟨now.monotonic _, hy.trans (seconds_mono now (Nat.le_add_right _ 2)), sub_nonneg.mpr hx, hl⟩
  · split
    · rw [computeGains_times, correctBias_times]
      exact ⟨(now.monotonic _).trans (now.monotonic _), now.monotonic _, hh, sub_nonneg.mpr hx⟩
    · exact ⟨hx, hy, hh, hl⟩

/-- One turn of the loop keeps the times as they must be on a monotonic clock (R204, R207). -/
theorem window_timesOk (cfg : Config) (now : Clock) (t : Rat) (a : Autotune) (h : TimesOk now a) :
    TimesOk now (a.window cfg now t).1 := by
  have h1 : TimesOk now (a.observe t) := h
  have h2 := relay_timesOk cfg now t _ h1
  have h3 : TimesOk now { ((a.observe t).relay cfg now t).1 with reads := ((a.observe t).relay cfg now t).1.reads + 1 } :=
    ⟨h2.1.trans (now.monotonic _), h2.2.1.trans (now.monotonic _), h2.2.2.1, h2.2.2.2⟩
  unfold Autotune.window
  dsimp only
  split
  · exact h1
  · split
    · exact h3
    · split <;> exact h3

/-! ## The precondition R197 -/

/-- The operations a session has decided on are those of `ALLOFF` and of the relay. -/
def TodoOk (t : AutotuneTask) : Prop := ∀ i ∈ t.todo, ∃ c, i = .clrtgt c ∨ ∃ d, i = .setduty c d

/-- `ALLOFF` is made of `CLRTGT` and `SETDUTY` (R230). -/
theorem alloff_ops (cfg : Config) : ∀ i ∈ Pseudo.alloff.expand cfg, ∃ c, i = .clrtgt c ∨ ∃ d, i = .setduty c d := by
  intro i hi
  simp only [Pseudo.expand, List.mem_flatten, List.mem_map] at hi
  obtain ⟨_, ⟨c, -, rfl⟩, hi⟩ := hi
  rcases List.mem_pair.mp hi with h | h
  · exact ⟨_, .inl h⟩
  · exact ⟨_, .inr ⟨_, h⟩⟩

/-- At entry a session has decided on `ALLOFF` and the first relay level (R197, R198). -/
theorem start_todoOk (cfg : Config) (now : Clock) (c : BitVec 4) (target : Rat) : TodoOk (AutotuneTask.start cfg now c target) := by
  intro i hi
  rcases List.mem_append.mp hi with h | h
  · exact alloff_ops cfg i h
  · exact ⟨c, .inr ⟨_, List.mem_singleton.mp h⟩⟩

/-- The relay issues nothing but `SETDUTY`, and keeps its channel. -/
theorem relay_ops (cfg : Config) (now : Clock) (t : Rat) (a : Autotune) :
    (∀ i ∈ (a.relay cfg now t).2, ∃ c, i = .clrtgt c ∨ ∃ d, i = .setduty c d) ∧ (a.relay cfg now t).1.chan = a.chan := by
  have hg : ∀ b : Autotune, b.computeGains.chan = b.chan := by
    intro b
    unfold Autotune.computeGains
    split
    · split <;> rfl
    · rfl
  have hb : ∀ b : Autotune, (b.correctBias cfg).chan = b.chan := by
    intro b
    unfold Autotune.correctBias
    split <;> rfl
  unfold Autotune.relay
  split
  · exact ⟨fun i hi => ⟨_, .inr ⟨_, List.mem_singleton.mp hi⟩⟩, rfl⟩
  · split
    · exact ⟨fun i hi => ⟨_, .inr ⟨_, List.mem_singleton.mp hi⟩⟩, by rw [hg, hb]⟩
    · exact ⟨fun i hi => absurd hi List.not_mem_nil, rfl⟩

/-- A turn of the loop issues nothing but the operations of `ALLOFF` and of the relay, and keeps its channel. -/
theorem window_ops (cfg : Config) (now : Clock) (t : Rat) (a : Autotune) :
    (∀ i ∈ (a.window cfg now t).2.1, ∃ c, i = .clrtgt c ∨ ∃ d, i = .setduty c d) ∧ (a.window cfg now t).1.chan = a.chan := by
  obtain ⟨h1, h2⟩ := relay_ops cfg now t (a.observe t)
  have h3 : ∀ i ∈ ((a.observe t).relay cfg now t).2 ++ Pseudo.alloff.expand cfg, ∃ c, i = .clrtgt c ∨ ∃ d, i = .setduty c d :=
    fun i hi => (List.mem_append.mp hi).elim (h1 i) (alloff_ops cfg i)
  unfold Autotune.window
  dsimp only
  split
  · exact ⟨alloff_ops cfg, rfl⟩
  · split
    · exact ⟨h3, h2⟩
    · split
      · exact ⟨h3, h2⟩
      · exact ⟨h1, h2⟩

/-- Going on keeps the channel and decides on nothing but the operations of `ALLOFF` and of the relay. -/
theorem resume_ops (cfg : Config) (now : Clock) (r : Response) (t : AutotuneTask) (h : TodoOk t) :
    TodoOk (t.resume cfg now r) ∧ (t.resume cfg now r).session.chan = t.session.chan := by
  unfold AutotuneTask.resume
  split
  · next ht => exact ⟨fun k hk => h k (ht ▸ List.mem_cons_of_mem _ hk), rfl⟩
  · split <;> exact ⟨h, rfl⟩
  · have hw := window_ops cfg now (degreesOf r.result) t.session
    split <;> next heq => rw [heq] at hw; exact hw
  · exact ⟨h, rfl⟩

/-- The procedure never issues `REG` (R195). -/
theorem next_ne_reg (t : AutotuneTask) (h : TodoOk t) (c : BitVec 4) : t.next ≠ some (.reg c) := by
  unfold AutotuneTask.next
  split
  · next ht => obtain ⟨_, rfl | ⟨_, rfl⟩⟩ := h _ (ht ▸ List.mem_cons_self) <;> simp
  all_goals simp

/-- A channel operand in range names its channel. -/
theorem channel?_val {cfg : Config} {f : BitVec 4} {c : Chan cfg.nExt} (h : channel? cfg f = some c) : f.toNat = c := by
  unfold channel? at h
  split at h
  · cases h; rfl
  · cases h

/-- A tick writes no duty. -/
theorem tickState_duty (cfg : Config) (adc : BitVec 16) (s : Block cfg.nExt) (c : Chan cfg.nExt) :
    ((tickState cfg adc s).ch c).duty = (s.ch c).duty := by
  rw [(tickState_ch cfg adc s c).1]
  rcases pwmStep_ch_cases s c with ⟨-, h⟩ | ⟨-, h⟩ <;> rw [h] <;> split <;> rfl

/-- Only `REG c`, `SETDUTY c` and `RESET` write the duty of channel c. -/
theorem operate_duty (cfg : Config) (i : Instr) (s : Block cfg.nExt) (c : Chan cfg.nExt) (hr : i ≠ .reset)
    (hreg : ∀ f : BitVec 4, i = .reg f → f.toNat ≠ c) (hset : ∀ (f : BitVec 4) d, i = .setduty f d → f.toNat ≠ c) :
    ((operate cfg i s).1.ch c).duty = (s.ch c).duty := by
  have ne {f : BitVec 4} {c' : Chan cfg.nExt} (h : f.toNat ≠ c) (hf : channel? cfg f = some c') : c ≠ c' :=
    fun e => h (e ▸ channel?_val hf)
  have other {c' : Chan cfg.nExt} {g : Channel → Channel} (h : ∀ k, (g k).duty = k.duty) :
      ((s.modCh c' g).ch c).duty = (s.ch c).duty := by
    rw [ch_modCh]
    split
    · next e => rw [h, e]
    · rfl
  cases i with
  | reset => exact absurd rfl hr
  | nop => rfl
  | setstop v => rfl
  | tick adc =>
    simp only [operate, tickOp]
    split
    · rfl
    · exact tickState_duty cfg _ s c
  | drain =>
    simp only [operate, drainOp]
    split
    · exact (congrArg Channel.duty (takeWindow_ch s c) :)
    · rfl
  | reg f =>
    simp only [operate, regOp]
    split
    · rfl
    · unfold regChannel
      split
      · exact congrArg Channel.duty (regulate_ch_ne cfg s (ne (hreg f rfl) ‹_›))
      · rfl
  | setduty f d =>
    simp only [operate, setdutyOp]
    split
    · next hf _ => simp [ne (hset f d rfl) hf]
    · rfl
  | gettgt f => simp only [operate, gettgtOp]; split <;> rfl
  | gettemp f => simp only [operate, gettempOp]; split <;> rfl
  | getpwr f => simp only [operate, getpwrOp]; split <;> rfl
  | getgain j => simp only [operate, getgainOp]; split <;> rfl
  | getcal f j => simp only [operate, getcalOp]; split <;> rfl
  | setgain j g =>
    simp only [operate, setgainOp]
    split
    · rfl
    · exact congrArg Channel.duty (setGain_ch _ _ _ _)
  | settgt f t =>
    simp only [operate, settgtOp]
    split
    · rfl
    · exact other fun _ => rfl
  | clrtgt f =>
    simp only [operate, clrtgtOp]
    split
    · rfl
    · exact other fun _ => rfl
  | setcal f j v =>
    simp only [operate, setcalOp]
    split
    · exact other fun _ => rfl
    · rfl

/-- R197: until a session has returned, the one producer of the tuned channel's duty is `SETDUTY` (a `RESET` apart, which puts every
register into its reset value); and the step leaves a session on the same channel, of which that holds again. -/
theorem autotuneStep_duty {cfg : Config} {now : Clock} {p p' : AutotuneTask × Block cfg.nExt} {e : AutotuneEvent} (c : Chan cfg.nExt)
    (hc : p.1.session.chan.toNat = c) (hp : TodoOk p.1) (hn : p.1.returned = none) (h : autotuneStep cfg now p e = some p') :
    TodoOk p'.1 ∧ p'.1.session.chan = p.1.session.chan ∧
      ((p'.2.ch c).duty = (p.2.ch c).duty ∨ e.issues p.1 = some .reset ∨
        ∃ d, e.issues p.1 = some (.setduty p.1.session.chan d)) := by
  have chan {f : BitVec 4} (h : f.toNat = c) : f = p.1.session.chan := BitVec.eq_of_toNat_eq (h.trans hc.symm)
  unfold autotuneStep at h
  split at h
  · next ha =>
    split at h
    · cases h; exact ⟨hp, rfl, .inl rfl⟩
    · next i hi =>
      cases h
      dsimp only
      have hk : TodoOk (if e = .procedure then p.1.resume cfg now (operate cfg i p.2).2 else p.1) ∧
          (if e = .procedure then p.1.resume cfg now (operate cfg i p.2).2 else p.1).session.chan = p.1.session.chan := by
        split
        · exact resume_ops cfg now _ _ hp
        · exact ⟨hp, rfl⟩
      refine ⟨hk.1, hk.2, ?_⟩
      rw [hi]
      by_cases hr : i = .reset
      · exact .inr (.inl (by rw [hr]))
      by_cases hs : ∃ d, i = .setduty p.1.session.chan d
      · exact .inr (.inr (hs.imp fun d hd => by rw [hd]))
      refine .inl (operate_duty cfg i p.2 c hr (fun f hf hfc => ?_) (fun f d hd hfc => hs ⟨d, by rw [hd, chan hfc]⟩))
      subst hf
      cases e with
      | timer adc => cases hi
      | procedure => exact next_ne_reg p.1 hp f hi
      | host j =>
        cases hi
        simp [AutotuneEvent.allowed, hn, chan hfc] at ha
  · cases h

end Sys2Proof.Laws
end

