-- ==== Sys2Proof/Laws/PerInstr.lean ====
section
/-! SUPPORT. The fields of an assembled word, and the statements made per instruction: every operation's word meets its row's match and
mask of R84. -/

namespace Sys2Proof.Laws

/-! ## The fields of an assembled word -/

/-- And of two words cut at the same place. -/
theorem append_and {m n : Nat} (x x' : BitVec m) (y y' : BitVec n) : (x ++ y) &&& (x' ++ y') = (x &&& x') ++ (y &&& y') := by
  ext i hi
  simp only [BitVec.getElem_and, BitVec.getElem_append]
  split <;> simp

theorem append_toNat {m n : Nat} (x : BitVec m) (y : BitVec n) : (x ++ y).toNat = x.toNat * 2 ^ n + y.toNat := by
  rw [BitVec.toNat_append, ← Nat.shiftLeft_add_eq_or_of_lt y.isLt, Nat.shiftLeft_eq]

theorem assemble_toNat (op : BitVec 8) (c j : BitVec 4) (imm : BitVec 16) :
    (assemble op c j imm).toNat = op.toNat * 2 ^ 24 + c.toNat * 2 ^ 20 + j.toNat * 2 ^ 16 + imm.toNat := by
  unfold assemble
  rw [append_toNat, append_toNat, append_toNat]
  omega

theorem opField_assemble (op : BitVec 8) (c j : BitVec 4) (imm : BitVec 16) : opField (assemble op c j imm) = op := by
  apply BitVec.eq_of_toNat_eq
  simp only [opField, BitVec.extractLsb'_toNat, assemble_toNat, Nat.shiftRight_eq_div_pow]
  omega

theorem chanField_assemble (op : BitVec 8) (c j : BitVec 4) (imm : BitVec 16) : chanField (assemble op c j imm) = c := by
  apply BitVec.eq_of_toNat_eq
  simp only [chanField, BitVec.extractLsb'_toNat, assemble_toNat, Nat.shiftRight_eq_div_pow]
  omega

theorem subField_assemble (op : BitVec 8) (c j : BitVec 4) (imm : BitVec 16) : subField (assemble op c j imm) = j := by
  apply BitVec.eq_of_toNat_eq
  simp only [subField, BitVec.extractLsb'_toNat, assemble_toNat, Nat.shiftRight_eq_div_pow]
  omega

theorem immField_assemble (op : BitVec 8) (c j : BitVec 4) (imm : BitVec 16) : immField (assemble op c j imm) = imm := by
  apply BitVec.eq_of_toNat_eq
  simp only [immField, BitVec.extractLsb'_toNat, assemble_toNat, Nat.shiftRight_eq_div_pow]
  omega

theorem assemble_and (op op' : BitVec 8) (c c' j j' : BitVec 4) (imm imm' : BitVec 16) :
    assemble op c j imm &&& assemble op' c' j' imm' = assemble (op &&& op') (c &&& c') (j &&& j') (imm &&& imm') := by
  unfold assemble
  rw [← append_and, ← append_and, ← append_and]

theorem assemble_fields (w : Word) : assemble (opField w) (chanField w) (subField w) (immField w) = w := by
  apply BitVec.eq_of_toNat_eq
  rw [assemble_toNat]
  simp only [opField, chanField, subField, immField, BitVec.extractLsb'_toNat, Nat.shiftRight_eq_div_pow]
  have := w.isLt
  omega

/-- A value no wider than a mask's zero part is cleared by the mask. -/
theorem setWidth_and_high {w : Nat} (v : BitVec w) {m : BitVec 16} (h : ∀ i, i < w → m.getLsbD i = false) :
    v.setWidth 16 &&& m = 0 := by
  ext i hi
  by_cases hw : i < w
  · have := h i hw
    simp_all [BitVec.getLsbD_eq_getElem]
  · simp [BitVec.getLsbD_of_ge v i (by omega)]

/-! ## Per instruction -/

/-- The mask of the instruction's row (R84, for ADC_BITS = 10). -/
def rowMask : Instr → Word
  | .nop => 0xFFFFFFFF
  | .tick _ => 0xFFFFFC00
  | .drain => 0xFFFFFFFF
  | .reg _ => 0xFF0FFFFF
  | .settgt _ _ => 0xFF0F0000
  | .gettgt _ => 0xFF0FFFFF
  | .gettemp _ => 0xFF0FFFFF
  | .getpwr _ => 0xFF0FFFFF
  | .setduty _ _ => 0xFF0FFF00
  | .clrtgt _ => 0xFF0FFFFF
  | .setgain _ _ => 0xFFF00000
  | .getgain _ => 0xFFF0FFFF
  | .setcal _ _ _ => 0xFF000000
  | .getcal _ _ => 0xFF00FFFF
  | .setstop _ => 0xFFFFFFFE
  | .reset => 0xFFFFFFFF

/-- The match of the instruction's row (R84). -/
def rowMatch : Instr → Word
  | .nop => 0x00000000
  | .tick _ => 0x01000000
  | .drain => 0x02000000
  | .reg _ => 0x03000000
  | .settgt _ _ => 0x10000000
  | .gettgt _ => 0x11000000
  | .gettemp _ => 0x12000000
  | .getpwr _ => 0x13000000
  | .setduty _ _ => 0x14000000
  | .clrtgt _ => 0x15000000
  | .setgain _ _ => 0x20000000
  | .getgain _ => 0x21000000
  | .setcal _ _ _ => 0x22000000
  | .getcal _ _ => 0x23000000
  | .setstop _ => 0x30000000
  | .reset => 0xFF000000

/-- The instruction's word selects its own row: `W & mask = match` (R84). A sample above ADC_MAX has no word (R83, R86). -/
def EncodesItsRow.Statement (i : Instr) : Prop := sampleFits config i = true → encode i &&& rowMask i = rowMatch i

theorem EncodesItsRow.nop : EncodesItsRow.Statement .nop := by
  intro _
  decide

theorem EncodesItsRow.tick (adc : BitVec 16) : EncodesItsRow.Statement (.tick adc) := by
  intro h
  have h : adc.toNat ≤ 1023 := of_decide_eq_true h
  change assemble 0x01 0 0 adc &&& assemble 0xFF 15 15 0xFC00 = assemble 0x01 0 0 0
  have h2 : adc &&& 0xFC00 = 0 := by
    have := setWidth_and_high (BitVec.ofNat 10 adc.toNat) (m := 0xFC00) (by decide)
    rwa [show (BitVec.ofNat 10 adc.toNat).setWidth 16 = adc from BitVec.eq_of_toNat_eq (by simp; omega)] at this
  rw [assemble_and, h2]
  simp

theorem EncodesItsRow.drain : EncodesItsRow.Statement .drain := by
  intro _
  decide

theorem EncodesItsRow.reg (c : BitVec 4) : EncodesItsRow.Statement (.reg c) := by
  intro _
  change assemble 0x03 c 0 0 &&& assemble 0xFF 0 15 0xFFFF = assemble 0x03 0 0 0
  rw [assemble_and]
  simp

theorem EncodesItsRow.settgt (c : BitVec 4) (t : Temp) : EncodesItsRow.Statement (.settgt c t) := by
  intro _
  change assemble 0x10 c 0 t &&& assemble 0xFF 0 15 0x0000 = assemble 0x10 0 0 0
  rw [assemble_and]
  simp

theorem EncodesItsRow.gettgt (c : BitVec 4) : EncodesItsRow.Statement (.gettgt c) := by
  intro _
  change assemble 0x11 c 0 0 &&& assemble 0xFF 0 15 0xFFFF = assemble 0x11 0 0 0
  rw [assemble_and]
  simp

theorem EncodesItsRow.gettemp (c : BitVec 4) : EncodesItsRow.Statement (.gettemp c) := by
  intro _
  change assemble 0x12 c 0 0 &&& assemble 0xFF 0 15 0xFFFF = assemble 0x12 0 0 0
  rw [assemble_and]
  simp

theorem EncodesItsRow.getpwr (c : BitVec 4) : EncodesItsRow.Statement (.getpwr c) := by
  intro _
  change assemble 0x13 c 0 0 &&& assemble 0xFF 0 15 0xFFFF = assemble 0x13 0 0 0
  rw [assemble_and]
  simp

theorem EncodesItsRow.setduty (c : BitVec 4) (d : Duty) : EncodesItsRow.Statement (.setduty c d) := by
  intro _
  change assemble 0x14 c 0 (d.setWidth 16) &&& assemble 0xFF 0 15 0xFF00 = assemble 0x14 0 0 0
  rw [assemble_and, setWidth_and_high d]
  · simp
  · decide

theorem EncodesItsRow.clrtgt (c : BitVec 4) : EncodesItsRow.Statement (.clrtgt c) := by
  intro _
  change assemble 0x15 c 0 0 &&& assemble 0xFF 0 15 0xFFFF = assemble 0x15 0 0 0
  rw [assemble_and]
  simp

theorem EncodesItsRow.setgain (j : BitVec 4) (g : GainWord) : EncodesItsRow.Statement (.setgain j g) := by
  intro _
  change assemble 0x20 0 j g &&& assemble 0xFF 15 0 0x0000 = assemble 0x20 0 0 0
  rw [assemble_and]
  simp

theorem EncodesItsRow.getgain (j : BitVec 4) : EncodesItsRow.Statement (.getgain j) := by
  intro _
  change assemble 0x21 0 j 0 &&& assemble 0xFF 15 0 0xFFFF = assemble 0x21 0 0 0
  rw [assemble_and]
  simp

theorem EncodesItsRow.setcal (c j : BitVec 4) (v : BitVec 16) : EncodesItsRow.Statement (.setcal c j v) := by
  intro _
  change assemble 0x22 c j v &&& assemble 0xFF 0 0 0x0000 = assemble 0x22 0 0 0
  rw [assemble_and]
  simp

theorem EncodesItsRow.getcal (c j : BitVec 4) : EncodesItsRow.Statement (.getcal c j) := by
  intro _
  change assemble 0x23 c j 0 &&& assemble 0xFF 0 0 0xFFFF = assemble 0x23 0 0 0
  rw [assemble_and]
  simp

theorem EncodesItsRow.setstop (s : BitVec 1) : EncodesItsRow.Statement (.setstop s) := by
  intro _
  change assemble 0x30 0 0 (s.setWidth 16) &&& assemble 0xFF 15 15 0xFFFE = assemble 0x30 0 0 0
  rw [assemble_and, setWidth_and_high s]
  · simp
  · decide

theorem EncodesItsRow.reset : EncodesItsRow.Statement .reset := by
  intro _
  decide

end Sys2Proof.Laws
end

