-- ==== Sys2Proof/Tests/Slice0.lean ====
section
/-! SUPPORT. The model's own tests: ill-formed terms refused, words written out from 30_encoding.md, one step per operation with results
from the spec's own examples (95_test_vectors.md and the worked examples of the rules) in the test configuration and in others, and a
state that meets the hypotheses of each statement of Certificates/Slice0/Obligations.lean that has any. -/

namespace Sys2Proof.Tests

open Sys2Proof.Machine Sys2Proof.Safety

/-! ## Helpers -/

/-- A block with one extruder, a PID bed, a smaller MAX_DUTY and a narrow band. -/
def small : Config := { nExt := 1, mode := fun _ => .pid, maxDuty := 100, band := 50, k1 := 128, iMin := -10 }

/-- A channel with every register 0 but the given ones; bounds 100 and 200. -/
def chan (deb : BitVec 8) (pend : Bool) (snap : Raw) : Channel where
  rawCur := 0
  rawTgt := 150
  duty := 0
  rawMin := 100
  rawMax := 200
  cal := Vector.replicate 6 0
  deb := deb
  isum := 0
  dterm := 0
  tprev := 0
  pidrst := false
  acc := 0
  snap := snap
  pend := pend
  pwmSnap := 0
  heat := false

/-- A block with equal channels, the gains of TCFG and every other register 0. -/
def block (n : Nat) (k : Channel) : Block n where
  chan := Vector.replicate (n + 1) k
  phase := 0
  pass := 0
  ready := false
  pwmCnt := 0
  ticks := 0
  bedLast := 0
  kp := 0x1000
  ki := 0x0080
  kd := 0x2000
  kimax := 0x4000
  stopped := false
  adcreq := []
  notify := []

/-- The block of the test configuration, nothing pending, nothing latched. -/
def quiet : Block 3 := block 3 (chan 0 false 0)

/-- The same, with a window pending with the reading `snap` and the debounce counter at `deb`. -/
def drained (deb : BitVec 8) (snap : Raw) : Block 3 := block 3 (chan deb true snap)

/-- The machine with such a block. -/
def state (k : Channel) : State where
  toBlock := block config.nExt k
  port := []
  response := none

/-- Nothing pending, nothing latched. -/
def idle : State := state (chan 0 false 0)

/-- A window pending with the reading `snap`, the debounce counter at `deb`. -/
def pending (deb : BitVec 8) (snap : Raw) : State := state (chan deb true snap)

/-- The reset state with the debounce counters at `deb` and the words `p` on the port. -/
def fresh (deb : BitVec 8) (p : List Operation) : State :=
  { State.reset with chan := Vector.ofFn fun c => { Channel.reset config c with deb := deb }, port := p }

@[simp] theorem block_ch {n : Nat} (k : Channel) (c : Chan n) : (block n k).ch c = k := by simp [block, Block.ch]

@[simp] theorem state_toBlock (k : Channel) : (state k).toBlock = block config.nExt k := rfl

@[simp] theorem fresh_ch (deb : BitVec 8) (p : List Operation) (c : Chan config.nExt) :
    (fresh deb p).ch c = { Channel.reset config c with deb := deb } := by
  simp [fresh, Block.ch]

/-- The machine's block has the channels 0 and 1, whatever its configuration. -/
theorem channelOk (c : BitVec 4) (h : c.toNat ≤ 1) : ChannelOk config c :=
  Nat.lt_of_le_of_lt h (Nat.succ_lt_succ (Nat.lt_of_lt_of_le Nat.zero_lt_one config.one_le_nExt))

theorem tickCount_replicate (n : Nat) (adc : BitVec 16) (h : SampleOk config adc) : tickCount config (List.replicate n (.tick adc)) = n := by
  induction n with
  | zero => rfl
  | succ n ih => rw [List.replicate_succ, Laws.tickCount_cons_tick _ (show isTick config (.tick adc) = true from decide_eq_true h), ih]

/-! ## Configuration and well-formedness -/

/-- R5: no configuration violates one of its constraints. -/
theorem test_configRefusals (cfg : Config) : 1 ≤ cfg.nExt ∧ cfg.nExt ≤ 3 ∧ 16 * cfg.adcMax ≤ cfg.fullScale ∧ cfg.fullScale ≤ 65535 ∧
    1 ≤ cfg.maxDuty ∧ cfg.maxDuty ≤ 127 ∧ cfg.k1 + cfg.k2 = 256 ∧ cfg.iMin ≤ 0 ∧ ∀ c,
      (cfg.tempToRaw c (cfg.cal0 c) (cfg.minTemp c)).toNat ≤ (cfg.tempToRaw c (cfg.cal0 c) (cfg.maxTemp c)).toNat :=
  ⟨cfg.one_le_nExt, cfg.nExt_le, cfg.window_le_fullScale, cfg.fullScale_le, cfg.one_le_maxDuty, cfg.maxDuty_le, cfg.k1_add_k2,
    cfg.iMin_le, cfg.rawBounds_le⟩

/-- R4: the values of the parameter table, and the derived ones. -/
theorem test_configDefaults : (({} : Config).nExt, ({} : Config).nch, ({} : Config).adcMax, ({} : Config).fullScale, ({} : Config).k2,
    ({} : Config).mode 0, ({} : Config).mode 3) = (3, 4, 1023, 16383, 13, .bangbang, .pid) := by decide

/-- R67: a channel number NCH is out of range. -/
theorem test_wellFormed_channel : wellFormedFor {} (.reg 4) = false ∧ wellFormedFor small (.settgt 2 0) = false := by decide

/-- R67: a gain number 4 is out of range. -/
theorem test_wellFormed_gain : WellFormed (.setgain 4 0) = false ∧ WellFormed (.getgain 15) = false := by decide

/-- R67: a calibration cell 6 is out of range. -/
theorem test_wellFormed_cell : wellFormedFor {} (.setcal 0 6 0) = false ∧ wellFormedFor {} (.getcal 3 6) = false := by decide

/-- R83, R220: a duty immediate above MAX_DUTY is out of range, and a sample above ADC_MAX. -/
theorem test_wellFormed_immediate : wellFormedFor {} (.setduty 0 128) = false ∧ wellFormedFor small (.setduty 0 101) = false ∧
    WellFormed (.tick 1024) = false := by decide

/-- The boundary values are in range. -/
theorem test_wellFormed_boundary :
    (([.reg 3, .setgain 3 0, .setcal 3 5 0, .setduty 3 127, .tick 1023] : List Instr).all (wellFormedFor {})) = true := by decide

/-! ## Words written out from the encoding tables (R81, R82, R84, R89) -/

theorem test_decode_nop : decode 0b00000000_0000_0000_0000000000000000 = .ok .nop := by decide
theorem test_decode_tick : decode 0b00000001_0000_0000_0000001111111111 = .ok (.tick 1023) := by decide
theorem test_decode_drain : decode 0b00000010_0000_0000_0000000000000000 = .ok .drain := by decide
theorem test_decode_reg : decode 0b00000011_0011_0000_0000000000000000 = .ok (.reg 3) := by decide
theorem test_decode_settgt : decode 0b00010000_0010_0000_1111111111110000 = .ok (.settgt 2 (BitVec.ofInt 16 (-16))) := by decide
theorem test_decode_gettgt : decode 0b00010001_0001_0000_0000000000000000 = .ok (.gettgt 1) := by decide
theorem test_decode_gettemp : decode 0b00010010_0010_0000_0000000000000000 = .ok (.gettemp 2) := by decide
theorem test_decode_getpwr : decode 0b00010011_0011_0000_0000000000000000 = .ok (.getpwr 3) := by decide
theorem test_decode_setduty : decode 0b00010100_0001_0000_0000000010000000 = .ok (.setduty 1 128) := by decide
theorem test_decode_clrtgt : decode 0b00010101_0011_0000_0000000000000000 = .ok (.clrtgt 3) := by decide
theorem test_decode_setgain : decode 0b00100000_0000_0011_1000000000000001 = .ok (.setgain 3 0x8001) := by decide
theorem test_decode_getgain : decode 0b00100001_0000_0010_0000000000000000 = .ok (.getgain 2) := by decide
theorem test_decode_setcal : decode 0b00100010_0011_0101_1000000000000001 = .ok (.setcal 3 5 0x8001) := by decide
theorem test_decode_getcal : decode 0b00100011_0001_0010_0000000000000000 = .ok (.getcal 1 2) := by decide
theorem test_decode_setstop : decode 0b00110000_0000_0000_0000000000000001 = .ok (.setstop 1) := by decide
theorem test_decode_reset : decode 0b11111111_0000_0000_0000000000000000 = .ok .reset := by decide

/-- R86, R87: words of no operation, with the reason. -/
theorem test_decode_illegal :
    decode 0x00000001 = .error .mustBeZero ∧ decode 0x01000400 = .error .mustBeZero ∧ decode 0x03110000 = .error .mustBeZero ∧
      decode 0x20100000 = .error .mustBeZero ∧ decode 0x14100100 = .error .mustBeZero ∧ decode 0x30000002 = .error .mustBeZero ∧
      decode 0x04000000 = .error .reservedOpcode ∧ decode 0xFE000000 = .error .reservedOpcode := by decide

/-- R83, R84: the sample is ADC_BITS wide, and the mask of TICK follows it. -/
theorem test_decode_adcBits : tickMask config = 0xFFFFFC00 ∧ decodeFor { adcBits := 12 } 0x01000FFF = .ok (.tick 4095) ∧
    decodeFor { adcBits := 12 } 0x01001000 = .error .mustBeZero := by decide

/-- The host's two readers of a table word agree with the decoder and the step. -/
theorem test_tableWord : decodeTableWord 32 0x01000307 = some (.tick 775) ∧ decodeTableWord 32 0x00000001 = none := by decide
theorem test_withFetchWord_runs : step (State.reset.withFetchWord 32 0x02000000) = exec .drain State.reset := rfl

/-- R89: the textual form. -/
theorem test_text : instrText (.setcal 1 2 0x1234) = "SETCAL 1, 2, 4660" ∧ instrText .drain = "DRAIN" := by decide

/-! ## One step per operation; expected values from the worked examples of the rules -/

/-- R228. -/
theorem test_nop : exec .nop idle = .next { idle with response := some ⟨.ok, 0⟩ } := rfl

/-- R110: the first tick after reset; R86: a sample of 1024 is no tick. -/
theorem test_tick_first : (let s := (operate {} (.tick 0) quiet).1; (s.adcreq, s.phase, s.pwmCnt, s.ticks)) = ([1], 1, 1, 1) ∧
    operate {} (.tick 1024) quiet = (quiet, ⟨.err, 0⟩) := by decide

/-- R118, R123: sixteen samples of 775, sum 12400, are published as 3983 by an inverted sensor; a linear one publishes the sum. -/
theorem test_tick_publishes :
    (let s := (operate {} (.tick 0) { block 3 { chan 0 false 0 with acc := 12400 } with phase := 7, pass := 15, pwmCnt := 127 }).1
     ((s.ch 1).rawCur, (s.ch 0).rawCur, s.ready)) = (3983, 12400, true) := by decide

/-- R115: with one extruder the prepare and the read phase of the second take a tick each and do nothing. -/
theorem test_tick_absent :
    (let s := { block 1 (chan 0 false 0) with phase := 4 }
     let t := (operate small (.tick 5) s).1
     let u := (operate small (.tick 5) { s with phase := 5 }).1
     (t.adcreq, t.phase, u.phase, (u.ch 0).acc, (u.ch 1).acc)) = ([], 5, 6, 0, 0) := by decide

/-- R131: a second drain finds nothing. -/
theorem test_drain : (operate {} .drain quiet).2 = ⟨.ok, 0⟩ ∧
    (let (s, r) := operate {} .drain { quiet with ready := true }; (r, s.ready, (s.ch 3).pend)) = (⟨.ok, 1⟩, false, true) := by decide

/-- R153: e = BAND exactly is in band: ISUM restarts at 0 and becomes 160; the duty is clamped. -/
theorem test_reg_inBand :
    (pidChannel {} quiet 3200 3040 { chan 0 true 0 with tprev := 3040, pidrst := true, isum := 999 }) =
      ({ chan 0 true 0 with tprev := 3040, pidrst := false, isum := 160 }, 127) := by decide

/-- R165, R251: the third window above the bound latches, zeroes target and duty and notifies once. -/
theorem test_reg_latches :
    (let (s, r) := operate {} (.reg 2) (drained 2 200)
     (r, (s.ch 2).deb, (s.ch 2).rawTgt, (s.ch 2).duty, s.notify)) = (⟨.ok, 256⟩, sentinelOver, 0, 0, [⟨.maxTemp, 0, 2⟩]) := by decide

/-- R136, R139, R143: a PID bed 50 units below its target of 150 is in the band of 50 and 51 below it is not; MAX_DUTY is 100 there; and
its integral may go down to I_MIN = −10. -/
theorem test_reg_parameters :
    (let s := block 1 (chan 0 true 100)
     let t := (operate small (.reg 0) { s with kd := 0 }).1
     let u := operate small (.reg 0) (block 1 { chan 0 true 100 with rawTgt := 151 })
     let v := (operate small (.reg 0) (block 1 { chan 0 true 160 with tprev := 160 })).1
     ((t.ch 0).isum, u.2, (u.1.ch 0).pidrst, (v.ch 0).isum)) = (50, ⟨.ok, 356⟩, true, BitVec.ofInt 32 (-10)) := by decide

/-- R216: SETTGT 1, 3200 stores 4783 in the test configuration. -/
theorem test_settgt : (let (s, r) := operate {} (.settgt 1 3200) quiet; (r, (s.ch 1).rawTgt, (s.ch 2).rawTgt)) = (⟨.ok, 4783⟩, 4783, 150) ∧
    operate {} (.settgt 4 0) quiet = (quiet, ⟨.err, 0⟩) := by decide

/-- R218: after CLRTGT 1, GETTGT 1 answers −1583 in the test configuration. -/
theorem test_gettgt : (operate {} (.gettgt 1) (block 3 { chan 0 false 0 with rawTgt := 0 })).2 = ⟨.ok, 0xFFFFF9D1⟩ ∧
    (operate {} (.gettgt 4) quiet).2 = ⟨.err, 0⟩ := by decide

/-- R219: raw 3983 and 1920 are 2400 and 320 in the test configuration. -/
theorem test_gettemp : (operate {} (.gettemp 1) (block 3 { chan 0 false 0 with rawCur := 3983 })).2 = ⟨.ok, 2400⟩ ∧
    (operate {} (.gettemp 0) (block 3 { chan 0 false 0 with rawCur := 1920 })).2 = ⟨.ok, 320⟩ := by decide

/-- R221. -/
theorem test_getpwr : (operate {} (.getpwr 1) (block 3 { chan 0 false 0 with duty := 127 })).2 = ⟨.ok, 127⟩ := by decide

/-- R220: SETDUTY 1, 127 writes, SETDUTY 1, 128 is refused. -/
theorem test_setduty : (((operate {} (.setduty 1 127) quiet).1.ch 1).duty, ((operate {} (.setduty 1 127) quiet).1.ch 2).duty) = (127, 0) ∧
    operate {} (.setduty 1 128) quiet = (quiet, ⟨.err, 0⟩) := by decide

/-- R217. -/
theorem test_clrtgt : (let s := (operate {} (.clrtgt 3) quiet).1; ((s.ch 3).rawTgt, (s.ch 2).rawTgt)) = (0, 150) := by decide

/-- R222: SETGAIN KI and SETGAIN KIMAX. -/
theorem test_setgain : (let s := (operate {} (.setgain 1 0x0081) quiet).1; (s.kp, s.ki, s.kd, s.kimax)) = (0x1000, 0x0081, 0x2000, 0x4000) ∧
    (operate {} (.setgain 3 1) quiet).1.kimax = 1 := by decide

/-- R223: GETGAIN KIMAX. -/
theorem test_getgain : (operate {} (.getgain 3) quiet).2 = ⟨.ok, 0x4000⟩ ∧ (operate {} (.getgain 4) quiet).2 = ⟨.err, 0⟩ := by decide

/-- R224: SETCAL 1, 2, 0x1234. -/
theorem test_setcal : (let s := (operate {} (.setcal 1 2 0x1234) quiet).1; ((s.ch 1).cal[2], (s.ch 1).cal[3], (s.ch 2).cal[2])) =
    (0x1234, 0, 0) := by decide

/-- R225. -/
theorem test_getcal : (operate {} (.getcal 1 2) (block 3 { chan 0 false 0 with cal := (Vector.replicate 6 0).set 2 0x1234 })).2 =
    ⟨.ok, 0x1234⟩ := by decide

/-- R226, R171. -/
theorem test_setstop : (let s := (operate {} (.setstop 1) quiet).1; (s.stopped, s.heatEn)) = (true, false) ∧
    (let s := (operate {} (.setstop 0) { quiet with stopped := true }).1; (s.stopped, s.heatEn)) = (false, true) := by decide

/-- R227: a latch and its notification are gone after RESET. -/
theorem test_reset :
    (let s := (operate {} .reset { drained sentinelOver 200 with notify := [⟨.maxTemp, 0, 2⟩] }).1; (s.notify, s.heatEn)) = ([], true) := by
  decide

/-- R243: the examples of the notification word. -/
theorem test_notificationWord : (Notification.word ⟨.maxTemp, 0, 2⟩) = 0x102 ∧ (Notification.word ⟨.bedTemp, 3, 0⟩) = 0x330 := by decide

/-! ## The autotune procedure: scenario S3 of 95_test_vectors.md -/

/-- A clock whose readings show the running maximum of `ts`, from 0 on: `ts` itself, if it rises, and then its last time. -/
def clock (ts : List Rat) : Clock where
  seconds k := (ts.take (k + 1)).foldl max 0
  monotonic k := by
    rw [List.take_add_one (i := k + 1), List.foldl_append]
    cases ts[k + 1]? with
    | none => exact le_refl _
    | some t => exact le_max_left _ t

/-- R204: a clock that rises at some readings and stands at others. -/
theorem test_clock : ([0, 1, 2, 3].map (clock [0, 20, 20, 50]).seconds) = [0, 20, 20, 50] := by decide +kernel

/-- The relay starts at full duty; 170.0 °C does not abort the session and 170.0625 °C does. -/
theorem test_autotune_start :
    (let t := AutotuneTask.start {} (clock []) 1 150
     (t.todo.getLast?, (t.session.window {} (clock []) 170).2, (t.session.window {} (clock []) (2721 / 16)).2.2)) =
      (some (.setduty 1 127), ([.setduty 1 0], none), some .overTemperature) := by decide +kernel

/-- Three cycles of 20 s and 30 s between 155 °C and 145 °C: bias and swing 40.64, Tu = 50 s. -/
theorem test_autotune_cycles :
    (let now := clock ([0, 0] ++ [20, 20, 20] ++ [50, 50, 50, 50] ++ [70, 70, 70] ++ [100, 100, 100, 100] ++ [120, 120, 120] ++
       [150, 150, 150, 150])
     let a := ([155, 145, 155, 145, 155, 145] : List Rat).foldl (fun a t => (a.window {} now t).1) (AutotuneTask.start {} now 1 150).session
     (a.bias, a.swing, a.gains)) = (1016 / 25, 1016 / 25, some ⟨1016 / 25, 155, 145, 50⟩) := by decide +kernel

/-- The gains of that oscillation: π Ku = 4 × 40.64 / 5 = 32.512, Kp = 0.6 Ku, Ki = 2 Kp / 50, Kd = 50 Kp / 8. -/
theorem test_autotune_gains :
    (let o : Oscillation := ⟨1016 / 25, 155, 145, 50⟩
     Real.pi * o.ku = 32.512 ∧ o.kp = 0.6 * o.ku ∧ o.ki = 2 * o.kp / 50 ∧ o.kd = o.kp * 50 / 8) := by
  have hpi := Real.pi_ne_zero
  refine ⟨?_, rfl, ?_, ?_⟩
  · have h : Real.pi * (((155 : Rat) : ℝ) - ((145 : Rat) : ℝ)) / 2 ≠ 0 := by norm_num
    simp only [Oscillation.ku, realQuotient, h, if_false]
    push_cast
    field_simp
    norm_num
  · simp [Oscillation.ki, realQuotient]
  · simp [Oscillation.kd]

/-- R195: a tick may fall between the procedure's DRAIN and its GETTEMP; at 170.0625 °C it goes on to ALLOFF. -/
theorem test_autotune_interleaved :
    (let t := { AutotuneTask.start {} (clock []) 1 150 with todo := [] }
     let s := { block 3 { chan 0 false 0 with rawCur := 4304 } with ready := true }
     ([.procedure, .timer 0, .procedure].foldlM (autotuneStep {} (clock [])) (t, s)).map fun (t, s) => (t.next, t.point, s.phase)) =
      some (some (.clrtgt 0), .done .overTemperature, 1) := by decide +kernel

/-- R197: during a session on channel 1 the host may regulate channel 2 and not channel 1; after its return channel 1 too. -/
theorem test_autotune_withholdsReg :
    (let s := Block.reset {}
     let t := { AutotuneTask.start {} (clock []) 1 150 with todo := [], point := .done .timeout }
     ((autotune {} (clock []) 1 150 [.procedure, .host (.reg 2)] s).isSome, (autotune {} (clock []) 1 150 [.procedure, .host (.reg 1)] s).isSome,
       (autotuneStep {} (clock []) (t, s) (.host (.reg 1))).isSome)) = (true, false, true) := by decide +kernel

/-! ## Witnesses: for each statement with hypotheses, states and operands that meet them all, at the boundary of each clause -/

theorem witness_DecodeOfEncodeIsTheInstruction : sampleFits {} (.tick 1023) = true ∧ sampleFits { adcBits := 12 } (.tick 4095) = true ∧
    sampleFits {} (.reg 15) = true := by decide

theorem witness_DecodedWordIsItsEncoding : decodeFor {} 0x22358001 = .ok (.setcal 3 5 0x8001) := by decide

theorem witness_ReservedOpcodeAnswersErr : (([0x04000000, 0x0FFFFFFF, 0x16000000, 0x1FFFFFFF, 0x24000000, 0x2FFFFFFF, 0x31000000,
      0xFEFFFFFF] : List Word).all fun w => decide
    (({ idle with port := [⟨.host, w⟩] } : State).port = [⟨.host, w⟩] ∧
      (let op := w.toNat / 2 ^ 24
       (0x04 ≤ op ∧ op ≤ 0x0F) ∨ (0x16 ≤ op ∧ op ≤ 0x1F) ∨ (0x24 ≤ op ∧ op ≤ 0x2F) ∨ (0x31 ≤ op ∧ op ≤ 0xFE)))) = true := by decide

theorem witness_MustBeZeroBitAnswersErr :
    (idle.presenting 0x00000001).port = [⟨issuer 0x00000001, 0x00000001⟩] ∧ (∃ i, opField (encode i) = opField 0x00000001) ∧
      ∀ i, sampleFits config i = true → encode i ≠ 0x00000001 := by
  refine ⟨rfl, ⟨.nop, by decide⟩, fun i _ h => ?_⟩
  have ho := congrArg opField h
  cases i <;> simp only [encode, Laws.opField_assemble] at ho <;> revert ho <;> first | decide | (intro _; revert h; decide)

/-- Operands in range and out of it. -/
theorem witness_StepRunsDecodedOperation :
    (([(⟨.timer, 0x01000307⟩, .tick 775), (⟨.host, 0x03F00000⟩, .reg 15), (⟨.host, 0xFF000000⟩, .reset),
        (⟨.resetSource, 0xFF000000⟩, .reset)] : List (Operation × Instr)).all fun q => decide
      (({ idle with port := [q.1] } : State).port = [q.1] ∧
        (q.1.agent = (if opField q.1.word = 0x01 then .timer else .host) ∨ q.1.agent = .resetSource ∧ q.1.word = 0xFF000000) ∧
        decode q.1.word = .ok q.2)) = true := by decide

theorem witness_WrongAgentIsNoStep :
    (([⟨.host, 0x01000000⟩, ⟨.resetSource, 0x01000000⟩, ⟨.timer, 0x00000000⟩, ⟨.timer, 0xFF000000⟩, ⟨.resetSource, 0x00000000⟩] :
        List Operation).all fun op => decide
      (({ idle with port := [op] } : State).port = [op] ∧
        (opField op.word = 0x01 ∧ op.agent ≠ .timer ∨ opField op.word ≠ 0x01 ∧ op.agent = .timer ∨
          opField op.word ≠ 0xFF ∧ op.agent = .resetSource))) = true := by decide

/-- Channel 15, gain 4, cell 6 and duty 255 are out of range in every configuration. -/
theorem witness_OutOfRangeOperandAnswersErr (i : Instr)
    (h : i ∈ [.reg 15, .settgt 15 0, .gettgt 15, .gettemp 15, .getpwr 15, .setduty 15 0, .setduty 0 255, .clrtgt 15, .setgain 4 0,
      .getgain 4, .setcal 15 0 0, .setcal 0 6 0, .getcal 15 0, .getcal 0 6]) : sampleFits config i = true ∧ WellFormed i = false := by
  have h1 : ¬ ChannelOk config 15 := Nat.not_lt.mpr (Nat.le_trans (Nat.succ_le_succ config.nExt_le) (by decide))
  have h2 : ¬ DutyOk config 255 := Nat.not_le.mpr (Nat.lt_of_le_of_lt config.maxDuty_le (by decide))
  have h3 : ¬ GainOk 4 := by decide
  have h4 : ¬ CellOk 6 := by decide
  simp only [List.mem_cons, List.not_mem_nil, or_false] at h
  rcases h with rfl | rfl | rfl | rfl | rfl | rfl | rfl | rfl | rfl | rfl | rfl | rfl | rfl | rfl <;>
    simp only [sampleFits, WellFormed, wellFormedFor, h1, h2, h3, h4, decide_false, Bool.false_and, Bool.and_false, and_self]

/-- Channel 1, gain 3, cell 5, duty 1 and sample 1023 are in range in every configuration. -/
theorem witness_InRangeOperandAnswersOk (i : Instr)
    (h : i ∈ [.nop, .tick 1023, .drain, .reg 1, .settgt 1 0, .gettgt 1, .gettemp 1, .getpwr 1, .setduty 1 1, .clrtgt 1,
      .setgain 3 0xFFFF, .getgain 3, .setcal 1 5 0xFFFF, .getcal 1 5, .setstop 1, .reset]) : WellFormed i = true := by
  have h1 : ChannelOk config 1 := channelOk 1 (by decide)
  have h2 : DutyOk config 1 := config.one_le_maxDuty
  have h3 : GainOk 3 := by decide
  have h4 : CellOk 5 := by decide
  have h5 : SampleOk config 1023 := by decide
  simp only [List.mem_cons, List.not_mem_nil, or_false] at h
  rcases h with rfl | rfl | rfl | rfl | rfl | rfl | rfl | rfl | rfl | rfl | rfl | rfl | rfl | rfl | rfl | rfl <;>
    simp only [WellFormed, wellFormedFor, h1, h2, h3, h4, h5, decide_true, Bool.and_self]

/-- The boundary samples, for every statement about a tick. -/
theorem witness_TickAdvancesItsCountersOnly : SampleOk config 0 ∧ SampleOk config 1023 := by decide

theorem witness_PreparePhaseRequestsItsInput : SampleOk config 1023 ∧
    ([((0 : BitVec 3), 1), (2, 0), (4, 2), (6, 3)].all fun q => ({ idle with phase := q.1 } : State).phase = q.1) = true := by decide

theorem witness_ReadPhaseAccumulatesTheSample : SampleOk config 1023 ∧
    ([((1 : BitVec 3), 1), (3, 0), (5, 2), (7, 3)].all fun q => decide
      (({ idle with phase := q.1, pass := 14 } : State).phase = q.1 ∧
        (q.1 = 7 → ({ idle with phase := q.1, pass := 14 } : State).pass ≠ 15))) = true := by decide

theorem witness_LastPhaseOfTheWindowPublishes : SampleOk config 0 ∧
    ({ idle with phase := 7, pass := 15 } : State).phase = 7 ∧ ({ idle with phase := 7, pass := 15 } : State).pass = 15 := by decide

/-- A linear sensor's reading of 1 is replaced by 0, an inverted one's by FULL_SCALE, which is at least 16368. -/
theorem witness_ReadingsChangeOnlyAtPublication :
    ∃ t, exec (.tick 0) { state { chan 0 false 0 with rawCur := 1 } with phase := 7, pass := 15 } = .next t ∧
      (.tick 0 : Instr) ≠ .reset ∧ (t.ch 0).rawCur ≠ 1 := by
  refine ⟨_, rfl, by decide, ?_⟩
  rw [Laws.tickOp_of_ok (by decide)]
  simp only [Laws.respondOk_fst]
  rw [(Laws.tickState_ch _ _ _ _).1]
  have h1 := config.window_le_fullScale
  have h2 := config.fullScale_le
  rcases Laws.pwmStep_ch_cases (n := config.nExt) { state { chan 0 false 0 with rawCur := 1 } with phase := 7, pass := 15 }.toBlock 0
    with ⟨-, h⟩ | ⟨h, -⟩
  · rw [h]
    have h3 : ∀ c, (Block.ch { state { chan 0 false 0 with rawCur := 1 } with phase := 7, pass := 15 }.toBlock c).acc = 0 := by
      intro c
      show ((block config.nExt { chan 0 false 0 with rawCur := 1 }).ch c).acc = 0
      rw [block_ch]
      rfl
    rw [h3]
    show (if config.linear 0 = true then (0 : BitVec 16) else BitVec.ofNat 16 config.fullScale - 0) ≠ 1
    split
    · decide
    · intro h4
      have h5 : (BitVec.ofNat 16 config.fullScale - 0).toNat = 1 := by rw [h4]; rfl
      rw [show (0 : BitVec 16) = 0#16 from rfl, BitVec.sub_zero, BitVec.toNat_ofNat] at h5
      have h6 : 16 * 1023 ≤ config.fullScale := h1
      omega
  · exact absurd rfl h

/-- A whole window with a host operation between two ticks. -/
theorem witness_WindowPublishesSumOfSixteenSamples :
    idle.phase = 0 ∧ idle.pass = 0 ∧ (∀ c, (idle.ch c).acc = 0) ∧ SampleOk config 1023 ∧
      (.reset : Instr) ∉ (.drain :: List.replicate 127 (.tick 1023) : List Instr) ∧
      tickCount config (.drain :: List.replicate 127 (.tick 1023)) = 127 := by
  refine ⟨rfl, rfl, fun c => by simp [idle, chan], by decide, by simp, ?_⟩
  rw [Laws.tickCount_cons_other _ rfl, tickCount_replicate _ _ (by decide)]

/-- Each case of the pin: duty zero, asserted, heaters disabled by a latch, heaters disabled by STOPPED. -/
theorem witness_LeadingEdgeSnapshotsAndAsserts : SampleOk config 0 ∧
    (idle.pwmCnt = 0 ∧ (idle.ch 1).duty = 0) ∧
      (let s := state { chan 0 false 0 with duty := 1 }
       s.pwmCnt = 0 ∧ (s.ch 1).duty ≠ 0 ∧ s.heatEn = true) ∧
      (let s := state { chan sentinelUnder false 0 with duty := 1 }
       s.pwmCnt = 0 ∧ (s.ch 1).duty ≠ 0 ∧ s.stopped = false ∧ s.heatEn = false) ∧
      (let s := { state { chan 0 false 0 with duty := 1 } with stopped := true }
       s.pwmCnt = 0 ∧ (s.ch 1).duty ≠ 0 ∧ s.stopped = true ∧ s.heatEn = false) := by
  refine ⟨by decide, ⟨rfl, by simp [idle, chan]⟩, ⟨rfl, by simp, ?_⟩, ⟨rfl, by simp, rfl, ?_⟩, rfl, ?_, rfl, rfl⟩
  · rw [Laws.heatEn_iff]
    refine ⟨rfl, fun c => ?_⟩
    simp [chan, sentinelOver, sentinelUnder]
  · simp [Block.heatEn, Block.latchUnder, chan]
  · show ((block config.nExt { chan 0 false 0 with duty := 1 }).ch 1).duty ≠ 0
    simp

/-- The snapshot equal to the counter, and one above it. -/
theorem witness_TrailingEdgeDeasserts : SampleOk config 0 ∧
    (let s := { state { chan 0 false 0 with pwmSnap := 127 } with pwmCnt := 127 }
     s.pwmCnt ≠ 0 ∧ (s.ch 1).pwmSnap.toNat = s.pwmCnt.toNat) ∧
      (let s := { state { chan 0 false 0 with pwmSnap := 2 } with pwmCnt := 1 }
       s.pwmCnt ≠ 0 ∧ (s.ch 1).pwmSnap.toNat = s.pwmCnt.toNat + 1) := by
  refine ⟨by decide, ⟨by decide, ?_⟩, by decide, ?_⟩
  · show ((block config.nExt { chan 0 false 0 with pwmSnap := 127 }).ch 1).pwmSnap.toNat = 127
    simp
  · show ((block config.nExt { chan 0 false 0 with pwmSnap := 2 }).ch 1).pwmSnap.toNat = 2
    simp

theorem witness_PwmCounterIsFreeRunning : SampleOk config 0 ∧
    isTick config .nop = false ∧ (.nop : Instr) ≠ .reset ∧ exec .nop { idle with pwmCnt := 127 } =
      .next { idle with pwmCnt := 127, response := some ⟨.ok, 0⟩ } := ⟨by decide, by decide, by decide, rfl⟩

/-- A full period with a host operation between two ticks. -/
theorem witness_PinIsHighForDutyTicks :
    SampleOk config 0 ∧ idle.pwmCnt = 0 ∧ AllOff idle.toBlock ∧ (.reset : Instr) ∉ (.setstop 1 :: List.replicate 127 (.tick 0) : List Instr) ∧
      tickCount config (.setstop 1 :: List.replicate 127 (.tick 0)) ≤ 127 := by
  refine ⟨by decide, rfl, fun c => by simp [idle, chan], by simp, ?_⟩
  rw [Laws.tickCount_cons_other _ rfl, tickCount_replicate _ _ (by decide)]

/-- The good states of the witnesses: reset with every debounce counter at a legal value and words waiting. -/
theorem fresh_inv (deb : BitVec 8) (p : List Operation) (h1 : -2 ≤ deb.toInt) (h2 : deb.toInt ≤ 2) : Inv (fresh deb p) := by
  have h3 := config.iMin_le
  have h4 : (fresh deb p).notify = [] := rfl
  refine ⟨fun c => ?_, by simp [fresh, State.reset, Block.reset], rfl, rfl⟩
  constructor <;>
    simp [Channel.reset, dtermMax, isumTop, notesOf, h4, h3, -BitVec.toInt_ofInt] <;> assumption

theorem witness_EveryStepKeepsTheInvariants :
    Inv (fresh 2 [⟨.host, 0⟩]) ∧ step (fresh 2 [⟨.host, 0⟩]) = .next { fresh 2 [] with response := some ⟨.ok, 0⟩ } :=
  ⟨fresh_inv 2 _ (by decide) (by decide), rfl⟩

theorem witness_LatchedBlockNeverHeats :
    Inv (fresh sentinelOver []) ∧ SomeLatched (fresh sentinelOver []).toBlock ∧ (fresh sentinelOver []).pwmCnt = 0 ∧
      (.reset : Instr) ∉ ([.setduty 1 127, .tick 0, .setstop 0, .reg 1] : List Instr) :=
  ⟨fresh_inv _ _ (by decide) (by decide), ⟨0, by rw [fresh_ch]; decide⟩, rfl, by decide⟩

theorem witness_OnlyResetClearsALatch :
    (.clrtgt 1 : Instr) ≠ .reset ∧ (∃ t, exec (.clrtgt 1) (pending sentinelUnder 0) = .next t) ∧
      ((pending sentinelUnder 0).ch 1).deb.toInt < 0 :=
  ⟨by decide, ⟨_, rfl⟩, by rw [show (pending sentinelUnder 0).ch 1 = chan sentinelUnder true 0 from block_ch _ _]; decide⟩

theorem witness_HostOperationsKeepTimerRegisters :
    isTick config .drain = false ∧ (.drain : Instr) ≠ .reset ∧ ∃ t, exec .drain { idle with ready := true } = .next t :=
  ⟨by decide, by decide, _, rfl⟩

theorem witness_HistoriesOnlyGrow : (.tick 0 : Instr) ≠ .reset ∧ ∃ t, exec (.tick 0) idle = .next t := ⟨by decide, _, rfl⟩

theorem witness_DrainTakesTheWholeWindow : ({ idle with ready := true } : State).ready = true ∧ idle.ready = false := by decide

/-- A pending window of a machine's channel with the given count and reading. -/
theorem pending_ch (deb : BitVec 8) (snap : Raw) (c : Chan config.nExt) : (pending deb snap).ch c = chan deb true snap := block_ch _ _

theorem witness_RegWithoutAWindowDoesNothing : ∃ h : ChannelOk config 1, (idle.ch ⟨1, h⟩).pend = false :=
  ⟨channelOk 1 (by decide), congrArg Channel.pend (block_ch (n := config.nExt) (chan 0 false 0) _)⟩

theorem witness_RegStoresOneDuty : ∀ c : BitVec 4, c.toNat ≤ 1 → ∃ h : ChannelOk config c, ((pending 0 150).ch ⟨c.toNat, h⟩).pend = true :=
  fun c h => ⟨channelOk c h, congrArg Channel.pend (pending_ch 0 150 _)⟩

/-- The reading at the min bound and just below the max bound. -/
theorem witness_ExtruderInRangeStoresRegulatorDuty (snap : Raw) (hs : snap ∈ [(100 : Raw), 199]) :
    ∃ (h : ChannelOk config 1) (k : Channel), (1 : BitVec 4) ≠ 0 ∧ k = (pending 2 snap).ch ⟨1, h⟩ ∧ k.pend = true ∧ 0 ≤ k.deb.toInt ∧
      k.rawMin.toNat ≤ k.snap.toNat ∧ k.snap.toNat < k.rawMax.toNat :=
  ⟨channelOk 1 (by decide), chan 2 true snap, by decide, (pending_ch _ _ _).symm, rfl, by show 0 ≤ (2 : BitVec 8).toInt; decide,
    by simp only [List.mem_cons, List.not_mem_nil, or_false] at hs; rcases hs with rfl | rfl <;> decide⟩

theorem witness_PidIsBypassedOutsideTheBand :
    (({} : Config).band : Int) < (3200 : Temp).toInt - (3039 : Temp).toInt ∧
      (3200 : Temp).toInt - (3361 : Temp).toInt < -(({} : Config).band : Int) ∧
      -(({} : Config).band : Int) ≤ (3200 : Temp).toInt - (3360 : Temp).toInt ∧
      (3200 : Temp).toInt - (3360 : Temp).toInt ≤ (({} : Config).band : Int) := by decide

theorem witness_PidInBandIsExact :
    ((160 : Int) = (3200 : Temp).toInt - (3040 : Temp).toInt ∧ -(({} : Config).band : Int) ≤ 160 ∧ (160 : Int) ≤ (({} : Config).band : Int)) ∧
      (-160 : Int) = (3200 : Temp).toInt - (3360 : Temp).toInt ∧ -(({} : Config).band : Int) ≤ -160 ∧
      (-160 : Int) ≤ (({} : Config).band : Int) := by decide

/-- Either way the flag comes to be set: by a saturated call on each side, or in the state itself. -/
theorem witness_SaturationLeavesNoWindup :
    (([(3200, 3039), (3200, 3361)] : List (Temp × Temp)) ≠ [] ∧
      (([(3200, 3039), (3200, 3361)] : List (Temp × Temp)).all fun p => decide
        ((({} : Config).band : Int) < p.1.toInt - p.2.toInt ∨ p.1.toInt - p.2.toInt < -(({} : Config).band : Int))) = true) ∧
      ((block 3 { chan 0 false 0 with pidrst := true }).ch 1).pidrst = true ∧
      (80 : Int) = (3200 : Temp).toInt - (3120 : Temp).toInt ∧ -(({} : Config).band : Int) ≤ 80 ∧ (80 : Int) ≤ (({} : Config).band : Int) := by
  decide

theorem witness_BangbangComparesRawValues :
    ({} : Config).mode 0 = .bangbang ∧ ((block 3 { chan 0 false 0 with rawTgt := 0 }).ch 0).rawTgt = 0 := by decide

theorem witness_RegIgnoresCurrentReadings : ∃ t, exec (.reg 1) (pending 0 150) = .next t :=
  ⟨_, rfl⟩

theorem witness_HeatersEnabledIffNoLatchAndNotStopped :
    (pending sentinelOver 0).heatEn = false ∧ (pending sentinelOver 0).pwmCnt = 0 ∧ SampleOk config 0 := by
  refine ⟨?_, rfl, by decide⟩
  simp [pending, Block.heatEn, Block.latchOver, chan]

theorem witness_NoReadingCrossesBothBounds : Inv (fresh 0 []) := fresh_inv 0 [] (by decide) (by decide)

/-- The reading at the max bound and just below the min bound, on the bed and on an extruder, latched. -/
theorem witness_OutOfRangeReadingStoresZeroDuty (c : BitVec 4) (hc : c.toNat ≤ 1) (snap : Raw) (hs : snap ∈ [(200 : Raw), 99]) :
    ∃ (h : ChannelOk config c) (k : Channel), k = (pending sentinelUnder snap).ch ⟨c.toNat, h⟩ ∧ k.pend = true ∧
      (k.rawMax.toNat ≤ k.snap.toNat ∨ k.snap.toNat < k.rawMin.toNat) :=
  ⟨channelOk c hc, chan sentinelUnder true snap, (pending_ch _ _ _).symm, rfl,
    by simp only [List.mem_cons, List.not_mem_nil, or_false] at hs; rcases hs with rfl | rfl <;> decide⟩

theorem witness_OutOfRangeWindowCounts (deb : BitVec 8) (hd : deb ∈ [(0 : BitVec 8), 1]) (snap : Raw) (hs : snap ∈ [(200 : Raw), 99]) :
    ∃ (h : ChannelOk config 1) (k : Channel), (1 : BitVec 4) ≠ 0 ∧ k = (pending deb snap).ch ⟨1, h⟩ ∧ k.pend = true ∧
      (k.rawMax.toNat ≤ k.snap.toNat ∨ k.snap.toNat < k.rawMin.toNat) ∧ 0 ≤ k.deb.toInt ∧ k.deb.toInt ≤ 1 :=
  ⟨channelOk 1 (by decide), chan deb true snap, by decide, (pending_ch _ _ _).symm, rfl,
    by simp only [List.mem_cons, List.not_mem_nil, or_false] at hs hd; rcases hs with rfl | rfl <;> rcases hd with rfl | rfl <;> decide⟩

theorem witness_ThirdOutOfRangeWindowLatches (snap : Raw) (hs : snap ∈ [(200 : Raw), 99]) :
    ∃ (h : ChannelOk config 1) (k : Channel), (1 : BitVec 4) ≠ 0 ∧ k = (pending 2 snap).ch ⟨1, h⟩ ∧ k.pend = true ∧
      (k.rawMax.toNat ≤ k.snap.toNat ∨ k.snap.toNat < k.rawMin.toNat) ∧ k.deb.toInt = 2 :=
  ⟨channelOk 1 (by decide), chan 2 true snap, by decide, (pending_ch _ _ _).symm, rfl,
    by simp only [List.mem_cons, List.not_mem_nil, or_false] at hs; rcases hs with rfl | rfl <;> decide⟩

/-- Both sentinels, on the bed and on an extruder, in range and out of it. -/
theorem witness_LatchedChannelKeepsItsTargetAtZero (c : BitVec 4) (hc : c.toNat ≤ 1) (deb : BitVec 8)
    (hd : deb ∈ [sentinelOver, sentinelUnder]) (snap : Raw) :
    ∃ (h : ChannelOk config c) (k : Channel), k = (pending deb snap).ch ⟨c.toNat, h⟩ ∧ k.pend = true ∧ k.deb.toInt < 0 :=
  ⟨channelOk c hc, chan deb true snap, (pending_ch _ _ _).symm, rfl, by
       simp only [List.mem_cons, List.not_mem_nil, or_false] at hd
       rcases hd with rfl | rfl
       · show sentinelOver.toInt < 0; decide
       · show sentinelUnder.toInt < 0; decide⟩

/-- A pending bed with any count and any reading, `n` ticks after its last check. -/
theorem bedGate (deb : BitVec 8) (snap : Raw) (n : Nat) (hn : n ≤ config.bedInterval) :
    ∃ s : State, s.ch 0 = chan deb true snap ∧ (s.ticks - s.bedLast).toNat = n := by
  have h2 := config.bedInterval_lt
  refine ⟨{ pending deb snap with ticks := BitVec.ofNat 32 n }, block_ch (n := config.nExt) (chan deb true snap) 0, ?_⟩
  show (BitVec.ofNat 32 n - (0 : BitVec 32)).toNat = n
  rw [show (0 : BitVec 32) = 0#32 from rfl, BitVec.sub_zero, BitVec.toNat_ofNat]
  omega

/-- One tick short of the interval. -/
theorem witness_ClosedBedGateKeepsTheCount :
    ∃ (s : State) (k : Channel), k = s.ch 0 ∧ k.pend = true ∧ (s.ticks - s.bedLast).toNat + 1 = config.bedInterval ∧
      (s.ticks - s.bedLast).toNat < config.bedInterval := by
  have h1 := config.one_le_bedInterval
  obtain ⟨s, h2, h3⟩ := bedGate 1 200 (config.bedInterval - 1) (Nat.sub_le _ _)
  exact ⟨s, _, h2.symm, rfl, by omega, by omega⟩

/-- Exactly the interval, at each count, with the reading at the max bound, just below the min bound and in range. -/
theorem witness_OpenBedGateDebounces (deb : BitVec 8) (hd : deb ∈ [(0 : BitVec 8), 1, 2]) (snap : Raw) :
    ∃ (s : State) (k : Channel), k = s.ch 0 ∧ k.pend = true ∧ config.bedInterval ≤ (s.ticks - s.bedLast).toNat ∧ 0 ≤ k.deb.toInt ∧
      k.deb.toInt ≤ 2 ∧ k.snap = snap := by
  obtain ⟨s, h2, h3⟩ := bedGate deb snap config.bedInterval (Nat.le_refl _)
  have h4 : 0 ≤ deb.toInt ∧ deb.toInt ≤ 2 := by
    simp only [List.mem_cons, List.not_mem_nil, or_false] at hd
    rcases hd with rfl | rfl | rfl <;> decide
  exact ⟨s, _, h2.symm, rfl, Nat.le_of_eq h3.symm, h4.1, h4.2, rfl⟩

/-- One TEMP unit above the maximum of the test configuration, not latched and latched. -/
theorem witness_BedAbsoluteMaximumActsAtOnce :
    ({} : Config).bedAbsMax.toInt < (2401 : Temp).toInt ∧ 0 ≤ ((drained 0 150).ch 0).deb.toInt ∧
      ((drained sentinelUnder 150).ch 0).deb.toInt < 0 := by decide

/-- The reading at the min bound, around the target and just below the max bound, one tick short of the interval. -/
theorem witness_BedInRangeIsRegulatedInItsMode (snap : Raw) (hs : snap ∈ [(100 : Raw), 149, 150, 199]) :
    ∃ (s : State) (k : Channel), k = s.ch 0 ∧ k.pend = true ∧ 0 ≤ k.deb.toInt ∧ k.rawMin.toNat ≤ k.snap.toNat ∧
      k.snap.toNat < k.rawMax.toNat ∧ (s.ticks - s.bedLast).toNat < config.bedInterval := by
  have h1 := config.one_le_bedInterval
  obtain ⟨s, h2, h3⟩ := bedGate 2 snap (config.bedInterval - 1) (Nat.sub_le _ _)
  refine ⟨s, _, h2.symm, rfl, by show 0 ≤ (2 : BitVec 8).toInt; decide, ?_, ?_, by omega⟩ <;>
    (simp only [List.mem_cons, List.not_mem_nil, or_false] at hs; rcases hs with rfl | rfl | rfl | rfl <;> decide)

theorem witness_SettgtStoresConvertedTarget : ChannelOk config 0 ∧ ChannelOk config 1 := ⟨channelOk 0 (by decide), channelOk 1 (by decide)⟩

theorem witness_ClrtgtClearsTarget : ChannelOk config 0 ∧ ChannelOk config 1 := ⟨channelOk 0 (by decide), channelOk 1 (by decide)⟩

theorem witness_ReadingOperationsChangeNothing : ChannelOk config 0 ∧ ChannelOk config 1 ∧ CellOk 0 ∧ CellOk 5 :=
  ⟨channelOk 0 (by decide), channelOk 1 (by decide), by decide, by decide⟩

theorem witness_SetdutyStoresDuty : ChannelOk config 1 ∧ (0 : Duty).toNat ≤ config.maxDuty ∧ (1 : Duty).toNat ≤ config.maxDuty :=
  ⟨channelOk 1 (by decide), Nat.zero_le _, config.one_le_maxDuty⟩

theorem witness_SetcalWritesOneCell : ChannelOk config 1 ∧ CellOk 0 ∧ CellOk 5 := ⟨channelOk 1 (by decide), by decide, by decide⟩

theorem witness_ManageWithoutAWindowDoesNothing : idle.ready = false ∧ ∀ c, (idle.ch c).pend = false :=
  ⟨rfl, fun c => congrArg Channel.pend (block_ch (n := config.nExt) (chan 0 false 0) c)⟩

end Sys2Proof.Tests
end

section
/-! The family 00_scope.md: an operation with operands in range completes with status OK (R6, R215, R240), and no reading crosses both
bounds of a channel (R5, R103, R162). -/

namespace Sys2Proof.Proofs

open Sys2Proof.Machine Sys2Proof.Safety Sys2Proof.Laws

/-! ## The status of a response -/

theorem drainOp_status {n : Nat} (s : Block n) : (drainOp s).2.status = .ok := by
  unfold drainOp
  split <;> rfl

theorem regChannel_status (cfg : Config) (c : Chan cfg.nExt) (s : Block cfg.nExt) : (regChannel cfg c s).2.status = .ok := by
  unfold regChannel
  split <;> rfl

/-- In a block of any configuration, an operation reaches `respond(OK, v)` once the index and immediate lookups of its rule succeed, and
operands in range are what makes them succeed (R67). -/
theorem operate_status_of_wellFormed {cfg : Config} {i : Instr} (s : Block cfg.nExt) (h : wellFormedFor cfg i = true) :
    (operate cfg i s).2.status = .ok := by
  cases i with
  | nop => rfl
  | drain => exact drainOp_status s
  | setstop v => rfl
  | reset => rfl
  | tick adc =>
    have ha : SampleOk cfg adc := of_decide_eq_true h
    simp only [operate, tickOp_of_ok ha, respondOk_snd]
  | reg c =>
    have hc : ChannelOk cfg c := of_decide_eq_true h
    simp only [operate, regOp, channel?_of_ok hc, regChannel_status]
  | settgt c t =>
    have hc : ChannelOk cfg c := of_decide_eq_true h
    simp only [operate, settgtOp, channel?_of_ok hc, respondOk_snd]
  | gettgt c =>
    have hc : ChannelOk cfg c := of_decide_eq_true h
    simp only [operate, gettgtOp, channel?_of_ok hc, respondOk_snd]
  | gettemp c =>
    have hc : ChannelOk cfg c := of_decide_eq_true h
    simp only [operate, gettempOp, channel?_of_ok hc, respondOk_snd]
  | getpwr c =>
    have hc : ChannelOk cfg c := of_decide_eq_true h
    simp only [operate, getpwrOp, channel?_of_ok hc, respondOk_snd]
  | clrtgt c =>
    have hc : ChannelOk cfg c := of_decide_eq_true h
    simp only [operate, clrtgtOp, channel?_of_ok hc, respondOk_snd]
  | setduty c d =>
    obtain ⟨hc, hd⟩ : ChannelOk cfg c ∧ DutyOk cfg d := by simpa [wellFormedFor] using h
    simp only [operate, setdutyOp, channel?_of_ok hc, duty?_of_ok hd, respondOk_snd]
  | setgain j g =>
    obtain ⟨r, hr⟩ := gain?_of_ok (of_decide_eq_true h : GainOk j)
    simp only [operate, setgainOp, hr, respondOk_snd]
  | getgain j =>
    obtain ⟨r, hr⟩ := gain?_of_ok (of_decide_eq_true h : GainOk j)
    simp only [operate, getgainOp, hr, respondOk_snd]
  | setcal c j v =>
    obtain ⟨hc, hj⟩ : ChannelOk cfg c ∧ CellOk j := by simpa [wellFormedFor] using h
    simp only [operate, setcalOp, channel?_of_ok hc, cell?_of_ok hj, respondOk_snd]
  | getcal c j =>
    obtain ⟨hc, hj⟩ : ChannelOk cfg c ∧ CellOk j := by simpa [wellFormedFor] using h
    simp only [operate, getcalOp, channel?_of_ok hc, cell?_of_ok hj, respondOk_snd]

/-- Settles O10: the operation is performed on the block, which answers OK, and performing an operation leaves the waiting words. -/
theorem inRangeOperandAnswersOk : Obligations.InRangeOperandAnswersOk := by
  intro i s h
  have hok : (operate config i s.toBlock).2.status = .ok := operate_status_of_wellFormed s.toBlock h
  refine ⟨_, (operate config i s.toBlock).2.result, (exec_eq_perform i s).trans (perform_eq s _), ?_, rfl⟩
  rw [← hok]

/-! ## The bounds of a channel -/

theorem over_iff (k : Channel) (r : Raw) : k.over r = true ↔ k.rawMax.toNat ≤ r.toNat := decide_eq_true_iff

theorem under_iff (k : Channel) (r : Raw) : k.under r = true ↔ r.toNat < k.rawMin.toNat := decide_eq_true_iff

/-- The bounds of a good block are those reset computed, which `tempToRaw`, being non-decreasing, gives in order (R5, R19, R103). -/
theorem rawMin_le_rawMax {cfg : Config} {s : Block cfg.nExt} (h : BlockInv cfg s) (c : Chan cfg.nExt) :
    (s.ch c).rawMin.toNat ≤ (s.ch c).rawMax.toNat := by
  rw [(h.chan c).rawMin_eq, (h.chan c).rawMax_eq]
  exact cfg.rawBounds_le c

/-- Settles O39: a reading that crossed both bounds would be below the min bound and at or above the max bound, which is no smaller. -/
theorem noReadingCrossesBothBounds : Obligations.NoReadingCrossesBothBounds := by
  rintro s c r hInv ⟨hover, hunder⟩
  rw [over_iff] at hover
  rw [under_iff] at hunder
  have hbounds := rawMin_le_rawMax hInv c
  omega

end Sys2Proof.Proofs
end

section
/-! The family 10_state.md, the ownership of the registers: what a tick leaves to the host agent and an operation of the host agent to the
timer agent (R39), when readings change (R11, R72), how the histories grow (R34, R35), and the reset values (R40). -/

namespace Sys2Proof.Proofs

open Sys2Proof.Machine Sys2Proof.Safety Sys2Proof.Laws

/-- After a write of one channel, a property holds of every channel if it held of every channel before and holds of what was written. -/
theorem forall_ch_modCh {n : Nat} {P : Chan n → Channel → Prop} {s : Block n} {c : Chan n} {f : Channel → Channel}
    (hs : ∀ c', P c' (s.ch c')) (hf : P c (f (s.ch c))) (c' : Chan n) : P c' ((s.modCh c f).ch c') := by
  by_cases h : c' = c
  · subst h
    rwa [ch_modCh_same]
  · rw [ch_modCh_ne _ _ h]
    exact hs c'

/-! ## Reset -/

theorem resetRegs_reset (cfg : Config) : ResetRegs cfg (Block.reset cfg) where
  chan c := reset_ch cfg c
  block := ⟨rfl, rfl, rfl, rfl, rfl, rfl, rfl⟩
  gains := ⟨rfl, rfl, rfl, rfl⟩
  histories := ⟨rfl, rfl⟩

/-- Settles O55: `RESET` leaves the reset block whatever the block held, and power-on starts with it. -/
theorem resetPutsEveryRegisterToItsResetValue : Obligations.ResetPutsEveryRegisterToItsResetValue :=
  ⟨resetRegs_reset config, fun s => ⟨_, (exec_eq_perform .reset s).trans (perform_eq s _), rfl, resetRegs_reset config⟩⟩

/-! ## What a tick keeps: the host agent's registers -/

/-- The PWM sub-step writes the snapshot and the pin of a channel only. -/
theorem pwmStep_ch_frame {n : Nat} (s : Block n) (c : Chan n) :
    (pwmStep s).ch c = { s.ch c with pwmSnap := ((pwmStep s).ch c).pwmSnap, heat := ((pwmStep s).ch c).heat } := by
  rcases pwmStep_ch_cases s c with ⟨-, h⟩ | ⟨-, h⟩ <;> rw [h]

/-- The sub-steps of a tick write the registers of the timer agent (R39) and no others. -/
theorem sameHostRegs_tickState (cfg : Config) (adc : BitVec 16) (s : Block cfg.nExt) : SameHostRegs s (tickState cfg adc s) where
  chan c := by
    rw [(tickState_ch cfg adc s c).1, pwmStep_ch_frame]
    split <;> rfl
  block := ⟨tickState_bedLast .., tickState_kp .., tickState_ki .., tickState_kd .., tickState_kimax .., tickState_stopped ..,
    tickState_notify ..⟩

/-- R14: the phase counts modulo N_PHASE, which is all its width holds. -/
theorem tickState_phase (cfg : Config) (adc : BitVec 16) (s : Block cfg.nExt) : (tickState cfg adc s).phase = s.phase + 1 :=
  (tickState_ch cfg adc s bed).2.1

/-- R16: the PWM counter counts modulo PWM_PERIOD, which is all its width holds. -/
theorem tickState_pwmCnt_succ (cfg : Config) (adc : BitVec 16) (s : Block cfg.nExt) : (tickState cfg adc s).pwmCnt = s.pwmCnt + 1 := by
  rw [tickState_pwmCnt]
  apply BitVec.eq_of_toNat_eq
  simp [pwmPeriod]

/-- Settles O12: a sample in range is answered by the three sub-steps, whose counters and frame are known. -/
theorem tickAdvancesItsCountersOnly : Obligations.TickAdvancesItsCountersOnly := by
  intro adc s h
  have hop : operate config (.tick adc) s.toBlock = respondOk 0 (tickState config adc s.toBlock) := tickOp_of_ok h _
  have hnext : exec (.tick adc) s = .next { toBlock := tickState config adc s.toBlock, port := s.port, response := some ⟨.ok, 0⟩ } := by
    rw [exec_eq_perform, perform_eq, hop]
    rfl
  exact ⟨_, hnext, rfl, tickState_ticks .., tickState_pwmCnt_succ .., tickState_phase .., rfl, sameHostRegs_tickState ..⟩

/-! ## What a host operation keeps: the timer agent's registers -/

theorem sameTimerRegs_of_chan_eq {n : Nat} {s t : Block n} (hc : ∀ c, t.ch c = s.ch c)
    (hb : t.phase = s.phase ∧ t.pass = s.pass ∧ t.pwmCnt = s.pwmCnt ∧ t.ticks = s.ticks ∧ t.adcreq = s.adcreq) : SameTimerRegs s t where
  chan c := by
    rw [hc]
    exact ⟨rfl, rfl, rfl, rfl⟩
  block := hb

/-- A write of one channel that spares its four timer registers spares the timer's registers of the block. -/
theorem sameTimerRegs_modCh {n : Nat} (s : Block n) (c : Chan n) {f : Channel → Channel}
    (hf : (f (s.ch c)).rawCur = (s.ch c).rawCur ∧ (f (s.ch c)).acc = (s.ch c).acc ∧ (f (s.ch c)).pwmSnap = (s.ch c).pwmSnap ∧
      (f (s.ch c)).heat = (s.ch c).heat) : SameTimerRegs s (s.modCh c f) where
  chan := forall_ch_modCh (P := fun c' k => k.rawCur = (s.ch c').rawCur ∧ k.acc = (s.ch c').acc ∧ k.pwmSnap = (s.ch c').pwmSnap ∧
    k.heat = (s.ch c').heat) (fun _ => ⟨rfl, rfl, rfl, rfl⟩) hf
  block := ⟨rfl, rfl, rfl, rfl, rfl⟩

theorem sameTimerRegs_takeWindow {n : Nat} (s : Block n) : SameTimerRegs s (takeWindow s) where
  chan c := by
    rw [takeWindow_ch]
    exact ⟨rfl, rfl, rfl, rfl⟩
  block := ⟨rfl, rfl, rfl, rfl, rfl⟩

theorem sameTimerRegs_regulate (cfg : Config) (c : Chan cfg.nExt) (s : Block cfg.nExt) : SameTimerRegs s (regulate cfg c s).1 where
  chan c' := by
    by_cases h : c' = c
    · subst h
      obtain ⟨_, _, _, _, _, _, _, _, hk⟩ := regulate_ch cfg c' s
      rw [hk]
      exact ⟨rfl, rfl, rfl, rfl⟩
    · rw [regulate_ch_ne cfg s h]
      exact ⟨rfl, rfl, rfl, rfl⟩
  block := ⟨regulate_phase .., regulate_pass .., regulate_pwmCnt .., regulate_ticks .., regulate_adcreq ..⟩

theorem sameTimerRegs_of_hostStep {cfg : Config} {s t : Block cfg.nExt} (h : HostStep cfg s t) : SameTimerRegs s t := by
  cases h with
  | same => exact sameTimerRegs_of_chan_eq (fun _ => rfl) ⟨rfl, rfl, rfl, rfl, rfl⟩
  | drain => exact sameTimerRegs_takeWindow s
  | reg c => exact sameTimerRegs_regulate cfg c s
  | target c => exact sameTimerRegs_modCh s c ⟨rfl, rfl, rfl, rfl⟩
  | duty c => exact sameTimerRegs_modCh s c ⟨rfl, rfl, rfl, rfl⟩
  | gain g v =>
    exact sameTimerRegs_of_chan_eq (setGain_ch s g v)
      ⟨setGain_phase .., setGain_pass .., setGain_pwmCnt .., setGain_ticks .., setGain_adcreq ..⟩
  | cal c => exact sameTimerRegs_modCh s c ⟨rfl, rfl, rfl, rfl⟩
  | stop => exact sameTimerRegs_of_chan_eq (fun _ => rfl) ⟨rfl, rfl, rfl, rfl, rfl⟩

/-- The operations but `TICK`, `RESET`, `DRAIN` and `REG` touch neither the ready flag nor the notification history. -/
theorem operate_keeps_ready_notify {cfg : Config} {i : Instr} (s : Block cfg.nExt) (hi : isTick cfg i = false) (hr : i ≠ .reset)
    (hd : i ≠ .drain) (hg : ∀ c, i ≠ .reg c) : (operate cfg i s).1.ready = s.ready ∧ (operate cfg i s).1.notify = s.notify := by
  cases i with
  | reset => exact absurd rfl hr
  | drain => exact absurd rfl hd
  | reg c => exact absurd rfl (hg c)
  | nop => exact ⟨rfl, rfl⟩
  | setstop v => exact ⟨rfl, rfl⟩
  | tick adc =>
    have h : ¬ SampleOk cfg adc := of_decide_eq_false hi
    simp only [operate, tickOp, sample?_of_not h, illegalWord_fst, and_self]
  | settgt c t => simp only [operate, settgtOp]; split <;> exact ⟨rfl, rfl⟩
  | gettgt c => simp only [operate, gettgtOp]; split <;> exact ⟨rfl, rfl⟩
  | gettemp c => simp only [operate, gettempOp]; split <;> exact ⟨rfl, rfl⟩
  | getpwr c => simp only [operate, getpwrOp]; split <;> exact ⟨rfl, rfl⟩
  | setduty c d => simp only [operate, setdutyOp]; split <;> exact ⟨rfl, rfl⟩
  | clrtgt c => simp only [operate, clrtgtOp]; split <;> exact ⟨rfl, rfl⟩
  | getgain j => simp only [operate, getgainOp]; split <;> exact ⟨rfl, rfl⟩
  | setcal c j v => simp only [operate, setcalOp]; split <;> exact ⟨rfl, rfl⟩
  | getcal c j => simp only [operate, getcalOp]; split <;> exact ⟨rfl, rfl⟩
  | setgain j g =>
    simp only [operate, setgainOp]
    split
    · exact ⟨rfl, rfl⟩
    · exact ⟨setGain_ready .., setGain_notify ..⟩

/-- `DRAIN` clears the ready flag or finds it clear, and notifies nobody. -/
theorem drainOp_ready_notify {n : Nat} (s : Block n) : (drainOp s).1.ready = false ∧ (drainOp s).1.notify = s.notify := by
  unfold drainOp
  split
  · exact ⟨rfl, rfl⟩
  · exact ⟨Bool.eq_false_iff.mpr ‹_›, rfl⟩

/-- `REG c` regulates a channel whose window is pending, or does nothing to the block (R67, R133). -/
theorem regOp_cases (cfg : Config) (c : BitVec 4) (s : Block cfg.nExt) :
    (regOp cfg c s).1 = s ∨ ∃ c', (s.ch c').pend = true ∧ (regOp cfg c s).1 = (regulate cfg c' s).1 := by
  unfold regOp
  split
  · exact .inl rfl
  · rename_i c' _
    unfold regChannel
    split
    · exact .inr ⟨c', ‹_›, rfl⟩
    · exact .inl rfl

/-- Of the host agent's operations only `DRAIN` writes the ready flag, and only to clear it (R39). -/
theorem operate_ready {cfg : Config} {i : Instr} (s : Block cfg.nExt) (hi : isTick cfg i = false) (hr : i ≠ .reset) :
    (operate cfg i s).1.ready = s.ready ∨ i = .drain ∧ (operate cfg i s).1.ready = false := by
  by_cases hd : i = .drain
  · subst hd
    exact .inr ⟨rfl, (drainOp_ready_notify s).1⟩
  · left
    by_cases hg : ∃ c, i = .reg c
    · obtain ⟨c, rfl⟩ := hg
      rcases regOp_cases cfg c s with h | ⟨c', -, h⟩
      · exact congrArg Block.ready h
      · exact (congrArg Block.ready h).trans (regulate_ready ..)
    · exact (operate_keeps_ready_notify s hi hr hd (not_exists.mp hg)).1

/-- Settles O27: each of the shapes of a host operation spares the timer's registers. -/
theorem hostOperationsKeepTimerRegisters : Obligations.HostOperationsKeepTimerRegisters := by
  intro i s t hi hr h
  rw [exec_next h]
  exact ⟨sameTimerRegs_of_hostStep (hostStep_of_operate s.toBlock hi hr), operate_ready s.toBlock hi hr⟩

/-! ## When readings change -/

/-- A tick that does not end a window leaves every published reading. -/
theorem tickState_rawCur {cfg : Config} {adc : BitVec 16} {s : Block cfg.nExt} (h : ¬ (s.phase.toNat = 7 ∧ (s.pass + 1).toNat = 16))
    (c : Chan cfg.nExt) : ((tickState cfg adc s).ch c).rawCur = (s.ch c).rawCur := by
  rw [(tickState_ch cfg adc s c).1, if_neg h, pwmStep_ch_frame]

/-- A tick is its three sub-steps. -/
theorem operate_of_isTick {cfg : Config} {i : Instr} (s : Block cfg.nExt) (hi : isTick cfg i = true) :
    ∃ adc, SampleOk cfg adc ∧ i = .tick adc ∧ (operate cfg i s).1 = tickState cfg adc s := by
  cases i with
  | tick adc =>
    have ha : SampleOk cfg adc := of_decide_eq_true hi
    exact ⟨adc, ha, rfl, congrArg Prod.fst (tickOp_of_ok ha s)⟩
  | _ => cases hi

/-- Settles O17: a host operation keeps the timer's registers, so the operation is a tick, and one that ends a window. -/
theorem readingsChangeOnlyAtPublication : Obligations.ReadingsChangeOnlyAtPublication := by
  intro i s t c h hr hne
  rw [exec_next h] at hne
  cases hi : isTick config i with
  | false => exact absurd ((sameTimerRegs_of_hostStep (hostStep_of_operate s.toBlock hi hr)).chan c).1 hne
  | true =>
    obtain ⟨adc, -, -, ht⟩ := operate_of_isTick s.toBlock hi
    have hend : s.phase.toNat = 7 ∧ (s.pass + 1).toNat = 16 := by
      by_contra hend
      refine hne ?_
      rw [ht]
      exact tickState_rawCur hend c
    obtain ⟨hphase, hpass⟩ := hend
    exact ⟨rfl, BitVec.eq_of_toNat_eq hphase, by bv_omega⟩

/-! ## What the Safety Monitor can do -/

/-- The blocks the Safety Monitor's part of `REG c` can leave (R161): it may record the time of the bed's check, and a channel that is not
latched is counted or latched; a latched one stays as it is (R170). -/
inductive MonitorStep {n : Nat} (c : Chan n) (s : Block n) : Block n → Prop where
  /-- No debounce, or a latched channel. -/
  | keeps (b : BitVec 32) : MonitorStep c s { s with bedLast := b }
  /-- A new count, below the threshold. -/
  | counts (b : BitVec 32) (v : BitVec 8) : (s.ch c).latched = false → 0 ≤ v.toInt → v.toInt ≤ 2 →
      MonitorStep c s (Block.modCh { s with bedLast := b } c fun k => { k with deb := v })
  /-- A fault. -/
  | latches (b : BitVec 32) (sen : BitVec 8) (cause : Cause) (sub : BitVec 4) : (s.ch c).latched = false → -2 ≤ sen.toInt → sen.toInt < 0 →
      MonitorStep c s (latch c sen cause sub { s with bedLast := b })

theorem latched_iff (k : Channel) : k.latched = true ↔ k.deb.toInt < 0 := decide_eq_true_iff

theorem latched_eq_false_iff (k : Channel) : k.latched = false ↔ 0 ≤ k.deb.toInt := by
  rw [← Bool.not_eq_true, latched_iff, Int.not_lt]

/-- The range debounce, after the time of the check is recorded. -/
theorem monitorStep_debounce {n : Nat} (c : Chan n) (hi lo : Bool) (b : BitVec 32) (s : Block n) :
    MonitorStep c s (debounce c hi lo { s with bedLast := b }) := by
  rcases debounce_cases c hi lo { s with bedLast := b } with ⟨-, h⟩ | ⟨hl, -, -, h⟩ | ⟨hl, -, hn, h⟩ | ⟨hl, -, -, h⟩
  · rw [h]
    exact .keeps b
  · rw [h]
    exact .counts b 0 hl (by decide) (by decide)
  · have h0 : 0 ≤ (s.ch c).deb.toInt := (latched_eq_false_iff _).mp hl
    have h3 : (s.ch c).deb.toInt + 1 < 3 := hn
    have hv : (BitVec.ofInt 8 ((s.ch c).deb.toInt + 1)).toInt = (s.ch c).deb.toInt + 1 :=
      toInt_ofInt_of_mem (by decide) (by omega) (by omega)
    rw [h]
    exact .counts b (BitVec.ofInt 8 ((s.ch c).deb.toInt + 1)) hl (by omega) (by omega)
  · rw [h]
    refine .latches b _ _ _ hl ?_ ?_ <;> cases hi <;> decide

/-- The absolute-maximum check leaves the bed alone, or latches a bed that is not latched yet (R169). -/
theorem bedAbsCheck_cases (cfg : Config) (t : Temp) (s : Block cfg.nExt) :
    bedAbsCheck cfg t s = s ∨
      ((s.ch bed).latched = false ∧ bedAbsCheck cfg t s = latch bed sentinelOver .bedTemp 3 s) := by
  unfold bedAbsCheck
  split
  · rename_i h
    exact .inr ⟨by simpa using (Bool.and_eq_true_iff.mp h).2, rfl⟩
  · exact .inl rfl

/-- A fault and the record of the bed's check write different registers. -/
theorem latch_with_bedLast {n : Nat} (c : Chan n) (sen : BitVec 8) (cause : Cause) (sub : BitVec 4) (b : BitVec 32) (s : Block n) :
    { latch c sen cause sub s with bedLast := b } = latch c sen cause sub { s with bedLast := b } := by
  rw [latch_eq, latch_eq]
  rfl

/-- The bed: after the absolute maximum has latched it, the range debounce finds it latched (R168, R169). -/
theorem monitorStep_bed (cfg : Config) (hi lo : Bool) (t : Temp) (s : Block cfg.nExt) :
    MonitorStep bed s (bedGatedDebounce cfg hi lo (bedAbsCheck cfg t s)) := by
  rcases bedAbsCheck_cases cfg t s with h | ⟨hl, h⟩ <;> rw [h] <;> unfold bedGatedDebounce <;> split
  · exact monitorStep_debounce bed hi lo _ s
  · exact .keeps s.bedLast
  · rw [latch_with_bedLast, debounce_latched]
    · exact .latches _ _ _ _ hl (by decide) (by decide)
    · rw [latched_iff, latch_ch, if_pos rfl]
      exact (by decide : sentinelOver.toInt < 0)
  · exact .latches s.bedLast _ _ _ hl (by decide) (by decide)

/-- Everything the Safety Monitor can do to the block (R161, R167). -/
theorem monitorStep_safetyState (cfg : Config) (c : Chan cfg.nExt) (r : Raw) (t : Temp) (s : Block cfg.nExt) :
    MonitorStep c s (safetyState cfg c r t s) := by
  unfold safetyState
  dsimp only
  split
  · rename_i hb
    subst hb
    exact monitorStep_bed cfg _ _ t s
  · exact monitorStep_debounce c _ _ s.bedLast s

/-! ## The histories -/

/-- A tick asks for one conversion at most: in a prepare phase whose channel is present (R113, R115). -/
theorem tickState_adcreq (cfg : Config) (adc : BitVec 16) (s : Block cfg.nExt) :
    ∃ a, (tickState cfg adc s).adcreq = s.adcreq ++ a ∧ a.length ≤ 1 := by
  have h : (tickState cfg adc s).adcreq = (samplePhase cfg adc (pwmStep s)).adcreq := by simp [tickState, sampleStep]
  rw [h, samplePhase_adcreq, pwmStep_adcreq]
  exact ⟨_, rfl, by split <;> simp⟩

/-- The Safety Monitor notifies once at most: when it latches. -/
theorem monitorStep_notify {n : Nat} {c : Chan n} {s t : Block n} (h : MonitorStep c s t) :
    ∃ e, t.notify = s.notify ++ e ∧ e.length ≤ 1 := by
  cases h with
  | keeps => exact ⟨[], (List.append_nil _).symm, Nat.zero_le _⟩
  | counts => exact ⟨[], (List.append_nil _).symm, Nat.zero_le _⟩
  | latches b sen cause sub =>
    rw [latch_notify]
    split
    · exact ⟨[], (List.append_nil _).symm, Nat.zero_le _⟩
    · exact ⟨_, rfl, Nat.le_refl 1⟩

/-- Of the parts of `REG` only the Safety Monitor notifies. -/
theorem regulate_notify (cfg : Config) (c : Chan cfg.nExt) (s : Block cfg.nExt) :
    ∃ e, (regulate cfg c s).1.notify = s.notify ++ e ∧ e.length ≤ 1 := by
  obtain ⟨e, he, hlen⟩ := monitorStep_notify (monitorStep_safetyState cfg c (s.ch c).snap (measuredTemp cfg c s)
    (regulator cfg c (setpoint cfg c (beginRegulation c s)) (measuredTemp cfg c s) (s.ch c).snap (beginRegulation c s)).1)
  rw [regulator_notify, beginRegulation_notify] at he
  exact ⟨e, he, hlen⟩

/-- Of the host agent's operations only `REG` notifies, and once at most. -/
theorem operate_notify {cfg : Config} {i : Instr} (s : Block cfg.nExt) (hi : isTick cfg i = false) (hr : i ≠ .reset) :
    ∃ e, (operate cfg i s).1.notify = s.notify ++ e ∧ e.length ≤ 1 ∧ ((∀ c, i ≠ .reg c) → e = []) := by
  by_cases hg : ∃ c, i = .reg c
  · obtain ⟨c, rfl⟩ := hg
    rcases regOp_cases cfg c s with h | ⟨c', -, h⟩
    · exact ⟨[], (congrArg Block.notify h).trans (List.append_nil _).symm, Nat.zero_le _, fun _ => rfl⟩
    · obtain ⟨e, he, hlen⟩ := regulate_notify cfg c' s
      exact ⟨e, (congrArg Block.notify h).trans he, hlen, fun hc => absurd rfl (hc c)⟩
  · have h : (operate cfg i s).1.notify = s.notify := by
      by_cases hd : i = .drain
      · subst hd
        exact (drainOp_ready_notify s).2
      · exact (operate_keeps_ready_notify s hi hr hd (not_exists.mp hg)).2
    exact ⟨[], h.trans (List.append_nil _).symm, Nat.zero_le _, fun _ => rfl⟩

/-- Settles O28: a tick keeps the notifications, which are the host's, and a host operation keeps the requests, which are the timer's. -/
theorem historiesOnlyGrow : Obligations.HistoriesOnlyGrow := by
  intro i s t hr h
  rw [exec_next h]
  cases hi : isTick config i with
  | false =>
    obtain ⟨-, -, -, -, hreq⟩ := (sameTimerRegs_of_hostStep (hostStep_of_operate s.toBlock hi hr)).block
    exact ⟨⟨[], hreq.trans (List.append_nil _).symm, Nat.zero_le _, fun _ => rfl⟩, operate_notify s.toBlock hi hr⟩
  | true =>
    obtain ⟨adc, -, -, ht⟩ := operate_of_isTick s.toBlock hi
    obtain ⟨a, ha, hlen⟩ := tickState_adcreq config adc s.toBlock
    dsimp only
    rw [ht]
    exact ⟨⟨a, ha, hlen, fun hf => absurd hf (by decide)⟩,
      [], (tickState_notify ..).trans (List.append_nil _).symm, Nat.zero_le _, fun _ => rfl⟩

end Sys2Proof.Proofs
end

section
/-! The family 10_state.md, the invariants R38: they hold at reset and every operation keeps them. They fall into two halves by the owner
of the register (R39). An operation of either agent keeps the other agent's half because it leaves its registers alone; its own half
follows from what the operation can do. -/

namespace Sys2Proof.Proofs

open Sys2Proof.Machine Sys2Proof.Safety Sys2Proof.Laws

/-! ## The two halves of the invariants -/

/-- The timer agent's half for one channel. -/
structure TimerChannelInv (cfg : Config) (s : Block cfg.nExt) (c : Chan cfg.nExt) : Prop where
  pwmSnap_le : (s.ch c).pwmSnap.toNat ≤ cfg.maxDuty
  rawCur_le : (s.ch c).rawCur.toNat ≤ cfg.fullScale
  heat_high : (s.ch c).heat = true → 1 ≤ s.pwmCnt.toNat ∧ s.pwmCnt.toNat ≤ (s.ch c).pwmSnap.toNat
  acc_le : (s.ch c).acc.toNat ≤ readsDone s c * cfg.adcMax

/-- The timer agent's half. -/
structure TimerInv (cfg : Config) (s : Block cfg.nExt) : Prop where
  chan : ∀ c, TimerChannelInv cfg s c
  pass_le : s.pass.toNat ≤ 15
  pwmCnt_eq : s.pwmCnt.toNat = 8 * s.pass.toNat + s.phase.toNat
  ticks_mod : s.ticks.toNat % 128 = s.pwmCnt.toNat

/-- The bounds on the duty and on the raw values the host agent writes, and the raw bounds it never writes. -/
structure BoundsInv (cfg : Config) (c : Chan cfg.nExt) (k : Channel) : Prop where
  duty_le : k.duty.toNat ≤ cfg.maxDuty
  snap_le : k.snap.toNat ≤ cfg.fullScale
  rawTgt_le : k.rawTgt.toNat ≤ cfg.fullScale
  rawMin_eq : k.rawMin = cfg.tempToRaw c (cfg.cal0 c) (cfg.minTemp c)
  rawMax_eq : k.rawMax = cfg.tempToRaw c (cfg.cal0 c) (cfg.maxTemp c)

/-- The ranges of the PID registers. -/
structure PidInv (cfg : Config) (c : Chan cfg.nExt) (k : Channel) : Prop where
  isum_range : cfg.iMin ≤ k.isum.toInt ∧ k.isum.toInt ≤ isumTop
  dterm_range : -dtermMax ≤ k.dterm.toInt ∧ k.dterm.toInt ≤ dtermMax
  bangbang_idle : cfg.mode c = .bangbang → k.isum = 0 ∧ k.dterm = 0 ∧ k.tprev = 0 ∧ k.pidrst = false

/-- The debounce counter of a channel against its notifications. -/
structure AlarmInv (deb : BitVec 8) (notes : List Notification) : Prop where
  le_deb : -2 ≤ deb.toInt
  deb_le : deb.toInt ≤ 2
  notes_le_one : notes.length ≤ 1
  notes_latched : notes ≠ [] → deb.toInt < 0

/-- The host agent's half. -/
structure HostInv (cfg : Config) (s : Block cfg.nExt) : Prop where
  bounds : ∀ c, BoundsInv cfg c (s.ch c)
  pid : ∀ c, PidInv cfg c (s.ch c)
  alarm : ∀ c, AlarmInv (s.ch c).deb (notesOf s c)

/-- The invariants are their two halves. -/
theorem blockInv_iff {cfg : Config} {s : Block cfg.nExt} : BlockInv cfg s ↔ TimerInv cfg s ∧ HostInv cfg s where
  mp h := ⟨⟨fun c => { h.chan c with }, h.pass_le, h.pwmCnt_eq, h.ticks_mod⟩,
    fun c => { h.chan c with }, fun c => { h.chan c with }, fun c => { h.chan c with }⟩
  mpr := fun ⟨ht, hh⟩ => ⟨fun c => { ht.chan c, hh.bounds c, hh.pid c, hh.alarm c with }, ht.pass_le, ht.pwmCnt_eq, ht.ticks_mod⟩

/-! ## Reset -/

/-- A count of an unlatched channel that has not notified. -/
theorem alarmInv_nil {deb : BitVec 8} (h1 : -2 ≤ deb.toInt) (h2 : deb.toInt ≤ 2) : AlarmInv deb [] :=
  ⟨h1, h2, Nat.zero_le 1, fun h => absurd rfl h⟩

theorem timerInv_reset (cfg : Config) : TimerInv cfg (Block.reset cfg) where
  chan c := by
    constructor <;> rw [reset_ch]
    · exact Nat.zero_le _
    · exact Nat.zero_le _
    · exact fun h => absurd h Bool.false_ne_true
    · exact Nat.zero_le _
  pass_le := Nat.zero_le _
  pwmCnt_eq := rfl
  ticks_mod := rfl

theorem hostInv_reset (cfg : Config) : HostInv cfg (Block.reset cfg) where
  bounds c := by
    rw [reset_ch]
    exact ⟨Nat.zero_le _, Nat.zero_le _, Nat.zero_le _, rfl, rfl⟩
  pid c := by
    rw [reset_ch]
    exact ⟨⟨cfg.iMin_le, (by decide : (0 : BitVec 32).toInt ≤ isumTop)⟩,
      (by decide : -dtermMax ≤ (0 : BitVec 40).toInt ∧ (0 : BitVec 40).toInt ≤ dtermMax), fun _ => ⟨rfl, rfl, rfl, rfl⟩⟩
  alarm c := by
    rw [reset_ch]
    exact alarmInv_nil (deb := 0) (by decide) (by decide)

theorem blockInv_reset (cfg : Config) : BlockInv cfg (Block.reset cfg) := blockInv_iff.mpr ⟨timerInv_reset cfg, hostInv_reset cfg⟩

/-- Settles O24. -/
theorem resetMeetsTheInvariants : Obligations.ResetMeetsTheInvariants := ⟨blockInv_reset, blockInv_reset config⟩

/-! ## Each agent keeps the other's half -/

theorem timerInv_of_sameTimerRegs {cfg : Config} {s t : Block cfg.nExt} (h : TimerInv cfg s) (hst : SameTimerRegs s t) : TimerInv cfg t := by
  obtain ⟨hphase, hpass, hcnt, hticks, -⟩ := hst.block
  refine ⟨fun c => ?_, by rw [hpass]; exact h.pass_le, by rw [hcnt, hpass, hphase]; exact h.pwmCnt_eq,
    by rw [hticks, hcnt]; exact h.ticks_mod⟩
  obtain ⟨hcur, hacc, hsnap, hheat⟩ := hst.chan c
  have hreads : readsDone t c = readsDone s c := by rw [readsDone, hpass, hphase, readsDone]
  obtain ⟨h1, h2, h3, h4⟩ := h.chan c
  exact ⟨by rwa [hsnap], by rwa [hcur], by rwa [hheat, hcnt, hsnap], by rwa [hacc, hreads]⟩

theorem hostInv_of_sameHostRegs {cfg : Config} {s t : Block cfg.nExt} (h : HostInv cfg s) (hst : SameHostRegs s t) : HostInv cfg t := by
  obtain ⟨-, -, -, -, -, -, hnotify⟩ := hst.block
  refine ⟨fun c => ?_, fun c => ?_, fun c => ?_⟩ <;> rw [hst.chan c]
  · exact { h.bounds c with }
  · exact { h.pid c with }
  · rw [notesOf, hnotify]
    exact h.alarm c

/-! ## A tick keeps the timer's half -/

/-- The read phase of a channel is the odd phase whose channel it is (R62). -/
theorem readPhase_eq_iff {cfg : Config} (c : Chan cfg.nExt) (p : BitVec 3) :
    readPhase c = p.toNat ↔ c.val = phch p ∧ p.toNat % 2 ≠ 0 := by
  have hc : c.val < 4 := Nat.lt_of_lt_of_le c.isLt (Nat.succ_le_succ cfg.nExt_le)
  have key : ∀ (c : Chan 3) (p : BitVec 3), readPhase c = p.toNat ↔ c.val = phch p ∧ p.toNat % 2 ≠ 0 := by decide
  exact key ⟨c.val, hc⟩ p

theorem readPhase_le_seven {n : Nat} (c : Chan n) : readPhase c ≤ 7 := by
  unfold readPhase
  split <;> omega

/-- The accumulator of a channel once the current phase is done: one sample more if it is the channel's read phase (R26, R114). -/
theorem sampled_acc_le {cfg : Config} {adc : BitVec 16} {s : Block cfg.nExt} {c : Chan cfg.nExt} {acc : BitVec 16}
    (ha : SampleOk cfg adc) (h : acc.toNat ≤ readsDone s c * cfg.adcMax) :
    (if c.val = phch s.phase ∧ s.phase.toNat % 2 ≠ 0 then acc + adc else acc).toNat ≤
      (s.pass.toNat + if readPhase c ≤ s.phase.toNat then 1 else 0) * cfg.adcMax := by
  rw [readsDone] at h
  by_cases hread : readPhase c = s.phase.toNat
  · rw [if_pos ((readPhase_eq_iff c s.phase).mp hread), if_pos hread.le]
    rw [if_neg hread.not_lt, Nat.add_zero] at h
    calc (acc + adc).toNat ≤ acc.toNat + adc.toNat := by rw [BitVec.toNat_add]; exact Nat.mod_le _ _
      _ ≤ s.pass.toNat * cfg.adcMax + cfg.adcMax := Nat.add_le_add h ha
      _ = (s.pass.toNat + 1) * cfg.adcMax := (Nat.succ_mul _ _).symm
  · rw [if_neg (mt (readPhase_eq_iff c s.phase).mpr hread)]
    simpa only [Nat.lt_iff_le_and_ne, hread, ne_eq, not_false_eq_true, and_true] using h

/-- Sixteen samples fit in a reading, inverted or not (R5, R118). -/
theorem finalReading_le {cfg : Config} (c : Chan cfg.nExt) {a : BitVec 16} (h : a.toNat ≤ 16 * cfg.adcMax) :
    (finalReading cfg c a).toNat ≤ cfg.fullScale := by
  have ha : a.toNat ≤ cfg.fullScale := h.trans cfg.window_le_fullScale
  have hf := cfg.fullScale_le
  unfold finalReading
  split
  · exact ha
  · rw [BitVec.toNat_sub, BitVec.toNat_ofNat]
    omega

/-- The last phase counts a pass, and the sixteenth pass ends the window (R116, R117). -/
theorem tickState_pass (cfg : Config) (adc : BitVec 16) (s : Block cfg.nExt) : (tickState cfg adc s).pass =
    if s.phase.toNat = 7 then (if (s.pass + 1).toNat = 16 then 0 else s.pass + 1) else s.pass :=
  (tickState_ch cfg adc s bed).2.2.1

/-- Inside a window, what is read when the phase advances is what was read with the phase that ends. -/
theorem readsDone_tickState {cfg : Config} {adc : BitVec 16} {s : Block cfg.nExt} (c : Chan cfg.nExt)
    (hend : ¬ (s.phase.toNat = 7 ∧ (s.pass + 1).toNat = 16)) (hpass : s.pass.toNat ≤ 15) :
    readsDone (tickState cfg adc s) c = s.pass.toNat + if readPhase c ≤ s.phase.toNat then 1 else 0 := by
  have hc := readPhase_le_seven c
  rw [readsDone, tickState_phase, tickState_pass]
  by_cases h7 : s.phase.toNat = 7
  · have h0 : ¬ readPhase c < (s.phase + 1).toNat := by bv_omega
    have hdone : readPhase c ≤ s.phase.toNat := h7.symm ▸ hc
    rw [if_pos h7, if_neg fun h => hend ⟨h7, h⟩, if_neg h0, if_pos hdone]
    bv_omega
  · have h1 : (s.phase + 1).toNat = s.phase.toNat + 1 := by bv_omega
    simp only [h7, if_false, h1, Nat.lt_succ_iff]

/-- The sampling machine and the PWM driver count the same 128 ticks (R16, R119). -/
theorem tickState_counters {cfg : Config} {adc : BitVec 16} {s : Block cfg.nExt} (h : TimerInv cfg s) :
    (tickState cfg adc s).pass.toNat ≤ 15 ∧
      (tickState cfg adc s).pwmCnt.toNat = 8 * (tickState cfg adc s).pass.toNat + (tickState cfg adc s).phase.toNat ∧
      (tickState cfg adc s).ticks.toNat % 128 = (tickState cfg adc s).pwmCnt.toNat := by
  have h1 := h.pass_le
  have h2 := h.pwmCnt_eq
  have h3 := h.ticks_mod
  rw [tickState_pass, tickState_phase, tickState_pwmCnt_succ, tickState_ticks]
  split
  · split <;> bv_omega
  · bv_omega

/-- After the sampling sub-step the snapshot and the pin are those the PWM sub-step left. -/
theorem tickState_pwm (cfg : Config) (adc : BitVec 16) (s : Block cfg.nExt) (c : Chan cfg.nExt) :
    ((tickState cfg adc s).ch c).pwmSnap = ((pwmStep s).ch c).pwmSnap ∧ ((tickState cfg adc s).ch c).heat = ((pwmStep s).ch c).heat := by
  rw [(tickState_ch cfg adc s c).1]
  split <;> exact ⟨rfl, rfl⟩

/-- The PWM sub-step snapshots a duty in range, and a pin it leaves high has not met its snapshot (R182, R183, R185). -/
theorem pwmStep_keeps_pwm {cfg : Config} {s : Block cfg.nExt} (h : BlockInv cfg s) (c : Chan cfg.nExt) :
    ((pwmStep s).ch c).pwmSnap.toNat ≤ cfg.maxDuty ∧ (((pwmStep s).ch c).heat = true →
      1 ≤ (s.pwmCnt + 1).toNat ∧ (s.pwmCnt + 1).toNat ≤ ((pwmStep s).ch c).pwmSnap.toNat) := by
  have hc := h.chan c
  have hmax : cfg.maxDuty ≤ 127 := cfg.maxDuty_le
  rcases pwmStep_ch_cases s c with ⟨h0, hk⟩ | ⟨h0, hk⟩ <;> rw [hk]
  · refine ⟨hc.duty_le, fun hheat => ?_⟩
    have hlow : (s.ch c).heat = false := by
      by_contra hhigh
      have := (hc.heat_high (Bool.eq_true_of_not_eq_false hhigh)).1
      rw [h0] at this
      exact absurd this (by decide)
    have hduty : (s.ch c).duty ≠ 0 := by
      intro hz
      simp [hz, hlow] at hheat
    show 1 ≤ (s.pwmCnt + 1).toNat ∧ (s.pwmCnt + 1).toNat ≤ (s.ch c).duty.toNat
    bv_omega
  · refine ⟨hc.pwmSnap_le, fun hheat => ?_⟩
    obtain ⟨-, hlt⟩ := Bool.and_eq_true_iff.mp hheat
    have hlt : s.pwmCnt.toNat < (s.ch c).pwmSnap.toNat := of_decide_eq_true hlt
    have hsnap := hc.pwmSnap_le
    show 1 ≤ (s.pwmCnt + 1).toNat ∧ (s.pwmCnt + 1).toNat ≤ (s.ch c).pwmSnap.toNat
    bv_omega

/-- A tick keeps every reading within FULL_SCALE and every accumulator within its samples (R26, R38 item 2). -/
theorem tickState_keeps_samples {cfg : Config} {adc : BitVec 16} {s : Block cfg.nExt} (ha : SampleOk cfg adc) (h : TimerInv cfg s)
    (c : Chan cfg.nExt) : ((tickState cfg adc s).ch c).rawCur.toNat ≤ cfg.fullScale ∧
      ((tickState cfg adc s).ch c).acc.toNat ≤ readsDone (tickState cfg adc s) c * cfg.adcMax := by
  obtain ⟨-, hcur, -, hacc⟩ := h.chan c
  have hpass := h.pass_le
  have hsum := sampled_acc_le ha hacc
  rw [(tickState_ch cfg adc s c).1, pwmStep_ch_frame]
  split
  · rename_i hend
    refine ⟨finalReading_le c (hsum.trans (Nat.mul_le_mul_right _ ?_)), Nat.zero_le _⟩
    split <;> omega
  · rename_i hend
    rw [readsDone_tickState c hend hpass]
    exact ⟨hcur, hsum⟩

theorem timerInv_tickState {cfg : Config} {adc : BitVec 16} {s : Block cfg.nExt} (ha : SampleOk cfg adc) (h : BlockInv cfg s) :
    TimerInv cfg (tickState cfg adc s) := by
  have ht : TimerInv cfg s := (blockInv_iff.mp h).1
  obtain ⟨hpass, hcnt, hticks⟩ := tickState_counters (adc := adc) ht
  refine ⟨fun c => ?_, hpass, hcnt, hticks⟩
  obtain ⟨hcur, hacc⟩ := tickState_keeps_samples ha ht c
  obtain ⟨hsnap, hheat⟩ := pwmStep_keeps_pwm h c
  obtain ⟨esnap, eheat⟩ := tickState_pwm cfg adc s c
  exact ⟨by rwa [esnap], hcur, by rwa [eheat, esnap, tickState_pwmCnt_succ], hacc⟩

/-! ## The range of the PID registers -/

theorem imax_range {n : Nat} (s : Block n) : 0 ≤ imax s ∧ imax s ≤ isumTop := by
  unfold imax
  split
  · exact ⟨by decide, Int.le_refl _⟩
  · have h : 0 ≤ floorDiv ((s.kimax.toNat : Int) * 16) (s.ki.toNat : Int) := Int.ediv_nonneg (by omega) (by omega)
    exact ⟨le_min (by decide) h, min_le_left _ _⟩

/-- The integral is clamped within its register (R22, R143). -/
theorem integralSum_range {n : Nat} (cfg : Config) (s : Block n) (e : Int) (k : Channel) :
    cfg.iMin ≤ integralSum cfg (imax s) e k ∧ integralSum cfg (imax s) e k ≤ isumTop := by
  obtain ⟨h0, htop⟩ := imax_range s
  obtain ⟨hlo, hhi⟩ := clamp_range (v := integralStart k + e) (cfg.iMin_le.trans h0)
  exact ⟨hlo, hhi.trans htop⟩

/-- A gain times a difference of two temperatures. -/
theorem gain_mul_diff_range (kd : GainWord) (t t' : Temp) :
    -dtermMax ≤ (kd.toNat : Int) * (t.toInt - t'.toInt) ∧ (kd.toNat : Int) * (t.toInt - t'.toInt) ≤ dtermMax := by
  have hkd : |(kd.toNat : Int)| ≤ 65535 := abs_le.mpr (by omega)
  have ht : |t.toInt - t'.toInt| ≤ 65535 := by
    have h1 := BitVec.le_toInt t
    have h2 := BitVec.toInt_lt (x := t)
    have h3 := BitVec.le_toInt t'
    have h4 := BitVec.toInt_lt (x := t')
    exact abs_le.mpr (by omega)
  rw [← abs_le, abs_mul]
  exact mul_le_mul hkd ht (abs_nonneg _) (by decide)

/-- The derivative is smoothed with K1 + K2 = 256, so it stays within the range of what it averages (R23, R145). -/
theorem derivativeTerm_range {cfg : Config} {k : Channel} (kd : GainWord) (t : Temp)
    (h : -dtermMax ≤ k.dterm.toInt ∧ k.dterm.toInt ≤ dtermMax) :
    -dtermMax ≤ derivativeTerm cfg kd t.toInt k ∧ derivativeTerm cfg kd t.toInt k ≤ dtermMax := by
  obtain ⟨hx1, hx2⟩ := gain_mul_diff_range kd t k.tprev
  have hk : (cfg.k1 : Int) + (cfg.k2 : Int) = 256 := by exact_mod_cast cfg.k1_add_k2
  unfold derivativeTerm
  refine floorDiv_mem (by decide) ?_ ?_ <;> rw [← hk]
  · nlinarith only [hx1, h.1, Int.natCast_nonneg cfg.k1, Int.natCast_nonneg cfg.k2]
  · nlinarith only [hx2, h.2, Int.natCast_nonneg cfg.k1, Int.natCast_nonneg cfg.k2]

/-- The PID keeps the ranges of its registers; a bang-bang channel has no PID (R148). -/
theorem pidInv_pidChannel {n : Nat} {cfg : Config} {c : Chan cfg.nExt} {k : Channel} (s : Block n) (sp t : Temp)
    (hm : cfg.mode c = .pid) (h : PidInv cfg c k) : PidInv cfg c (pidChannel cfg s sp t k).1 := by
  have hbb : cfg.mode c ≠ .bangbang := by rw [hm]; decide
  by_cases hhigh : (cfg.band : Int) < sp.toInt - t.toInt
  · rw [pidChannel_high k hhigh]
    exact { h with bangbang_idle := fun hb => absurd hb hbb }
  · by_cases hlow : sp.toInt - t.toInt < -(cfg.band : Int)
    · rw [pidChannel_low k hlow]
      exact { h with bangbang_idle := fun hb => absurd hb hbb }
    · rw [pidChannel_inBand k (Int.not_lt.mp hlow) (Int.not_lt.mp hhigh)]
      have hsum := integralSum_range cfg s (sp.toInt - t.toInt) k
      have hdt := derivativeTerm_range (cfg := cfg) s.kd t h.dterm_range
      have hmin := cfg.le_iMin
      refine ⟨?_, ?_, fun hb => absurd hb hbb⟩
      · rwa [toInt_ofInt_of_mem (by decide) (hmin.trans hsum.1) (Int.lt_of_le_of_lt hsum.2 (by decide))]
      · rwa [toInt_ofInt_of_mem (by decide) ((by decide : _ ≤ -dtermMax).trans hdt.1) (Int.lt_of_le_of_lt hdt.2 (by decide))]

/-! ## A host operation keeps the host's half -/

/-- A write of one channel keeps the host's half if what is written meets it. -/
theorem hostInv_modCh {cfg : Config} {s : Block cfg.nExt} {c : Chan cfg.nExt} {f : Channel → Channel} (h : HostInv cfg s)
    (hb : BoundsInv cfg c (f (s.ch c))) (hp : PidInv cfg c (f (s.ch c))) (ha : AlarmInv (f (s.ch c)).deb (notesOf s c)) :
    HostInv cfg (s.modCh c f) where
  bounds := forall_ch_modCh h.bounds hb
  pid := forall_ch_modCh h.pid hp
  alarm := forall_ch_modCh (P := fun c' k => AlarmInv k.deb (notesOf s c')) h.alarm ha

/-- A channel that is not latched has not notified (R244). -/
theorem notesOf_eq_nil {cfg : Config} {s : Block cfg.nExt} {c : Chan cfg.nExt} (h : HostInv cfg s) (hl : (s.ch c).latched = false) :
    notesOf s c = [] := by
  by_contra hne
  exact absurd ((h.alarm c).notes_latched hne) (Int.not_lt.mpr ((latched_eq_false_iff _).mp hl))

/-- The notifications of a channel after a fault: one more for the faulted channel unless stopped, none for any other (R165, R172). -/
theorem notesOf_latch {n : Nat} (c c' : Chan n) (sen : BitVec 8) (cause : Cause) (sub : BitVec 4) (s : Block n) :
    notesOf (latch c sen cause sub s) c' =
      notesOf s c' ++ if c' = c ∧ s.stopped = false then [⟨cause, sub, c.val⟩] else [] := by
  unfold notesOf
  rw [latch_notify]
  by_cases hs : s.stopped = true
  · simp [hs]
  · by_cases hc : c' = c
    · simp [hs, hc]
    · have hv : c.val ≠ c'.val := fun e => hc (Fin.ext e.symm)
      simp [hs, hc, hv]

/-- A fault of a channel that is not latched is its first (R244). -/
theorem hostInv_latch {cfg : Config} {s : Block cfg.nExt} {c : Chan cfg.nExt} {sen : BitVec 8} (cause : Cause) (sub : BitVec 4)
    (h : HostInv cfg s) (hl : (s.ch c).latched = false) (h1 : -2 ≤ sen.toInt) (h2 : sen.toInt < 0) :
    HostInv cfg (latch c sen cause sub s) := by
  refine ⟨fun c' => ?_, fun c' => ?_, fun c' => ?_⟩ <;> rw [latch_ch]
  · split
    · rename_i hc
      subst hc
      exact { h.bounds c' with rawTgt_le := Nat.zero_le _ }
    · exact h.bounds c'
  · split
    · rename_i hc
      subst hc
      exact { h.pid c' with }
    · exact h.pid c'
  · rw [notesOf_latch]
    by_cases hc : c' = c
    · subst hc
      rw [if_pos rfl, notesOf_eq_nil h hl, List.nil_append]
      exact ⟨h1, (by omega : sen.toInt ≤ 2), by split <;> simp, fun _ => h2⟩
    · rw [if_neg hc, if_neg fun h => hc h.1, List.append_nil]
      exact h.alarm c'

/-- The record of the bed's check is in neither half. -/
theorem hostInv_with_bedLast {cfg : Config} {s : Block cfg.nExt} (h : HostInv cfg s) (b : BitVec 32) : HostInv cfg { s with bedLast := b } :=
  ⟨h.bounds, h.pid, h.alarm⟩

theorem hostInv_of_monitorStep {cfg : Config} {s t : Block cfg.nExt} {c : Chan cfg.nExt} (h : HostInv cfg s) (hst : MonitorStep c s t) :
    HostInv cfg t := by
  cases hst with
  | keeps b => exact hostInv_with_bedLast h b
  | counts b v hl h0 h2 =>
    refine hostInv_modCh (hostInv_with_bedLast h b) { h.bounds c with } { h.pid c with } ?_
    show AlarmInv v (notesOf s c)
    rw [notesOf_eq_nil h hl]
    exact alarmInv_nil (by omega) h2
  | latches b sen cause sub hl h1 h2 => exact hostInv_latch cause sub (hostInv_with_bedLast h b) hl h1 h2

/-- What `REG c` does before it regulates clears the pending flag and at most the target. -/
theorem hostInv_beginRegulation {cfg : Config} {s : Block cfg.nExt} (c : Chan cfg.nExt) (h : HostInv cfg s) :
    HostInv cfg (beginRegulation c s) := by
  have hpend : HostInv cfg (s.modCh c fun k => { k with pend := false }) :=
    hostInv_modCh h { h.bounds c with } { h.pid c with } (h.alarm c)
  unfold beginRegulation holdLatchedTarget
  split
  · exact hostInv_modCh hpend { hpend.bounds c with rawTgt_le := Nat.zero_le _ } { hpend.pid c with } (hpend.alarm c)
  · exact hpend

/-- A regulator answers a duty in range, and keeps the host's half (R136, R146, R148). -/
theorem hostInv_regulator {cfg : Config} {s : Block cfg.nExt} (c : Chan cfg.nExt) (sp t : Temp) (r : Raw) (h : HostInv cfg s) :
    HostInv cfg (regulator cfg c sp t r s).1 := by
  cases hm : cfg.mode c with
  | bangbang =>
    simp only [regulator, hm]
    exact h
  | pid =>
    simp only [regulator, hm, pid]
    have hp := pidInv_pidChannel s sp t hm (h.pid c)
    refine hostInv_modCh h ?_ hp ?_ <;> rw [pidChannel_frame]
    · exact { h.bounds c with }
    · exact h.alarm c

theorem pidChannel_duty_le {n : Nat} (cfg : Config) (s : Block n) (sp t : Temp) (k : Channel) :
    (pidChannel cfg s sp t k).2.toNat ≤ cfg.maxDuty := by
  by_cases hhigh : (cfg.band : Int) < sp.toInt - t.toInt
  · rw [pidChannel_high k hhigh]
    exact (fullDuty_toNat cfg).le
  · by_cases hlow : sp.toInt - t.toInt < -(cfg.band : Int)
    · rw [pidChannel_low k hlow]
      exact Nat.zero_le _
    · rw [pidChannel_inBand k (Int.not_lt.mp hlow) (Int.not_lt.mp hhigh)]
      have h := pidOutput_toNat cfg ((s.kp.toNat : Int) * (sp.toInt - t.toInt))
        ((s.ki.toNat : Int) * integralSum cfg (imax s) (sp.toInt - t.toInt) k) (derivativeTerm cfg s.kd t.toInt k)
      have hclamp := (clamp_range (v := floorDiv _ 4096) (Int.natCast_nonneg cfg.maxDuty)).2.trans' h.le
      exact_mod_cast hclamp

/-- Either regulator answers a duty in range (R139, R146, R148). -/
theorem regulator_duty_le (cfg : Config) (c : Chan cfg.nExt) (sp t : Temp) (r : Raw) (s : Block cfg.nExt) :
    (regulator cfg c sp t r s).2.toNat ≤ cfg.maxDuty := by
  cases hm : cfg.mode c with
  | pid =>
    simp only [regulator, hm, pid]
    exact pidChannel_duty_le ..
  | bangbang =>
    simp only [regulator, hm, bangbang]
    split
    · exact (fullDuty_toNat cfg).le
    · exact Nat.zero_le _

/-- The Safety Monitor passes a duty in range on, or stores 0 (R166). -/
theorem safetyDuty_le {cfg : Config} {c : Chan cfg.nExt} {r : Raw} {t : Temp} {d : Duty} {s : Block cfg.nExt}
    (h : d.toNat ≤ cfg.maxDuty) : (safetyDuty cfg c r t d s).toNat ≤ cfg.maxDuty := by
  rcases safetyDuty_cases cfg c r t d s with e | e <;> rw [e]
  · exact Nat.zero_le _
  · exact h

/-- `REG` keeps the host's half, one part after the other. -/
theorem hostInv_regulate {cfg : Config} {s : Block cfg.nExt} (c : Chan cfg.nExt) (h : HostInv cfg s) :
    HostInv cfg (regulate cfg c s).1 := by
  rw [regulate_eq]
  dsimp only
  have hreg := hostInv_regulator c (setpoint cfg c (beginRegulation c s)) (measuredTemp cfg c s) (s.ch c).snap (hostInv_beginRegulation c h)
  have hmon := hostInv_of_monitorStep hreg (monitorStep_safetyState cfg c (s.ch c).snap (measuredTemp cfg c s) _)
  exact hostInv_modCh hmon { hmon.bounds c with duty_le := safetyDuty_le (regulator_duty_le ..) } { hmon.pid c with } (hmon.alarm c)

/-- Every shape of a host operation keeps the host's half; `DRAIN` because the published readings it copies are in range. -/
theorem hostInv_of_hostStep {cfg : Config} {s t : Block cfg.nExt} (h : BlockInv cfg s) (hst : HostStep cfg s t) : HostInv cfg t := by
  have hs : HostInv cfg s := (blockInv_iff.mp h).2
  cases hst with
  | same => exact hs
  | drain =>
    refine ⟨fun c => ?_, fun c => ?_, fun c => ?_⟩ <;> rw [takeWindow_ch]
    · exact { hs.bounds c with snap_le := (h.chan c).rawCur_le }
    · exact { hs.pid c with }
    · exact hs.alarm c
  | reg c => exact hostInv_regulate c hs
  | target c r hr => exact hostInv_modCh hs { hs.bounds c with rawTgt_le := hr } { hs.pid c with } (hs.alarm c)
  | duty c d hd => exact hostInv_modCh hs { hs.bounds c with duty_le := hd } { hs.pid c with } (hs.alarm c)
  | gain g v =>
    refine ⟨fun c => ?_, fun c => ?_, fun c => ?_⟩ <;> rw [setGain_ch]
    · exact hs.bounds c
    · exact hs.pid c
    · rw [notesOf, setGain_notify]
      exact hs.alarm c
  | cal c j v => exact hostInv_modCh hs { hs.bounds c with } { hs.pid c with } (hs.alarm c)
  | stop b => exact ⟨hs.bounds, hs.pid, hs.alarm⟩

/-! ## Every operation keeps the invariants -/

theorem blockInv_operate {cfg : Config} {s : Block cfg.nExt} (i : Instr) (h : BlockInv cfg s) : BlockInv cfg (operate cfg i s).1 := by
  obtain ⟨htimer, hhost⟩ := blockInv_iff.mp h
  cases hi : isTick cfg i with
  | true =>
    obtain ⟨adc, ha, -, ht⟩ := operate_of_isTick s hi
    rw [ht]
    exact blockInv_iff.mpr ⟨timerInv_tickState ha h, hostInv_of_sameHostRegs hhost (sameHostRegs_tickState cfg adc s)⟩
  | false =>
    by_cases hr : i = .reset
    · subst hr
      exact blockInv_reset cfg
    · have hst := hostStep_of_operate s hi hr
      exact blockInv_iff.mpr ⟨timerInv_of_sameTimerRegs htimer (sameTimerRegs_of_hostStep hst), hostInv_of_hostStep h hst⟩

theorem blockInv_operateWord {cfg : Config} {s : Block cfg.nExt} (w : Word) (h : BlockInv cfg s) : BlockInv cfg (operateWord cfg w s).1 := by
  unfold operateWord
  split
  · exact blockInv_operate _ h
  · exact h

/-- Settles O23: a step idles or performs a word on the block, and each agent's operations keep its own half of the invariants and leave
the registers of the other half alone. -/
theorem everyStepKeepsTheInvariants : Obligations.EveryStepKeepsTheInvariants := by
  refine ⟨fun s t h hstep => ?_, fun cfg i s h => blockInv_operate i h⟩
  rcases step_cases s with ⟨-, e⟩ | ⟨op, rest, -, -, e⟩ | ⟨op, rest, -, -, e⟩ <;> rw [e] at hstep
  · cases hstep
    exact h
  · obtain ⟨hblock, -, -⟩ := perform_next hstep
    show BlockInv config t.toBlock
    rw [hblock]
    exact blockInv_operateWord op.word h
  · cases hstep

end Sys2Proof.Proofs
end

section
/-! The family 20_memory.md, the operation port: the word of an operation decodes to it (R82 to R86), a step runs the next word (R66, R88),
and stepping through the port runs the waiting words in order (R71, R277). -/

namespace Sys2Proof.Proofs

open Sys2Proof.Machine Sys2Proof.Safety Sys2Proof.Laws

/-! ## The word of an operation in a block of any configuration -/

/-- Sixteen samples fit FULL_SCALE and FULL_SCALE fits a raw value (R5), so a sample is 12 bits wide at most. -/
theorem adcBits_le (cfg : Config) : cfg.adcBits ≤ 12 := by
  by_contra h
  have hpow : 2 ^ 13 ≤ 2 ^ cfg.adcBits := Nat.pow_le_pow_right (by decide) (by omega)
  have hwindow : 16 * (2 ^ cfg.adcBits - 1) ≤ cfg.fullScale := cfg.window_le_fullScale
  have hfull := cfg.fullScale_le
  omega

theorem sampleOk_iff (cfg : Config) (adc : BitVec 16) : SampleOk cfg adc ↔ adc.toNat < 2 ^ cfg.adcBits :=
  Nat.le_sub_one_iff_lt (Nat.two_pow_pos cfg.adcBits)

/-- The mask of `TICK`'s row covers the bits from ADC_BITS up. -/
theorem getLsbD_tickMask (cfg : Config) {i : Nat} (hi : i < 32) : (tickMask cfg).getLsbD i = decide (cfg.adcBits ≤ i) := by
  have hb := adcBits_le cfg
  have hwidth : i - cfg.adcBits < 32 - cfg.adcBits := by omega
  have hmask : 2 ^ 32 - 2 ^ cfg.adcBits = 2 ^ cfg.adcBits * (2 ^ (32 - cfg.adcBits) - 1) := by
    rw [Nat.mul_sub, ← Nat.pow_add, Nat.add_sub_cancel' (by omega), Nat.mul_one]
  rw [tickMask, hmask, BitVec.getLsbD_ofNat, Nat.testBit_two_pow_mul, Nat.testBit_two_pow_sub_one]
  simp [hi, hwidth]

/-- What the mask of `TICK`'s row leaves of a tick's word: the opcode and the sample's bits from ADC_BITS up. -/
theorem getLsbD_tick_word_and_mask (cfg : Config) (adc : BitVec 16) {i : Nat} (hi : i < 32) :
    (encode (.tick adc) &&& tickMask cfg).getLsbD i =
      if i < 16 then adc.getLsbD i && decide (cfg.adcBits ≤ i) else (0x01000000 : Word).getLsbD i := by
  have hb := adcBits_le cfg
  have hword : (encode (.tick adc)).getLsbD i = if i < 16 then adc.getLsbD i else (0x0100 : BitVec 16).getLsbD (i - 16) :=
    BitVec.getLsbD_append
  have hhigh : ∀ i, i < 32 → 16 ≤ i → (0x0100 : BitVec 16).getLsbD (i - 16) = (0x01000000 : Word).getLsbD i := by decide
  rw [BitVec.getLsbD_and, getLsbD_tickMask cfg hi, hword]
  split
  · rfl
  · have h16 : 16 ≤ i := by omega
    rw [hhigh i hi h16, decide_eq_true (by omega), Bool.and_true]

/-- The word of a tick meets its row exactly when the sample is ADC_BITS wide: every higher bit must be zero (R83, R84, R86). -/
theorem tick_word_and_mask_iff (cfg : Config) (adc : BitVec 16) :
    encode (.tick adc) &&& tickMask cfg = 0x01000000 ↔ SampleOk cfg adc := by
  have hlow : ∀ i < 16, (0x01000000 : Word).getLsbD i = false := by decide
  rw [sampleOk_iff]
  constructor
  · intro h
    refine Nat.lt_pow_two_of_testBit _ fun i hi => ?_
    by_cases h16 : i < 16
    · have hbit := getLsbD_tick_word_and_mask cfg adc (i := i) (by omega)
      rw [h, hlow i h16, if_pos h16, decide_eq_true hi, Bool.and_true] at hbit
      exact hbit.symm
    · exact BitVec.getLsbD_of_ge adc i (by omega)
  · intro h
    refine BitVec.eq_of_getLsbD_eq fun i hi => ?_
    rw [getLsbD_tick_word_and_mask cfg adc hi]
    split
    · rename_i h16
      rw [hlow i h16, Bool.and_eq_false_iff, decide_eq_false_iff_not, or_iff_not_imp_right, not_not]
      exact fun hi => Nat.testBit_lt_two_pow (h.trans_le (Nat.pow_le_pow_right (by decide) hi))
    · rfl

theorem row_of_match {w mask pattern : Word} (i : Instr) (h : w &&& mask = pattern) : row w mask pattern i = .ok i := if_pos h

theorem adcField_tick {cfg : Config} {adc : BitVec 16} (h : SampleOk cfg adc) : adcField cfg (encode (.tick adc)) = adc := by
  rw [adcField, encode, immField_assemble, Nat.mod_eq_of_lt ((sampleOk_iff cfg adc).mp h), BitVec.ofNat_toNat, BitVec.setWidth_eq]

theorem dutyField_assemble (op : BitVec 8) (c j : BitVec 4) (d : Duty) : dutyField (assemble op c j (d.setWidth 16)) = d := by
  apply BitVec.eq_of_toNat_eq
  simp only [dutyField, BitVec.extractLsb'_toNat, assemble_toNat, Nat.shiftRight_eq_div_pow, BitVec.toNat_setWidth]
  omega

theorem bitField_assemble (op : BitVec 8) (c j : BitVec 4) (v : BitVec 1) : bitField (assemble op c j (v.setWidth 16)) = v := by
  apply BitVec.eq_of_toNat_eq
  simp only [bitField, BitVec.extractLsb'_toNat, assemble_toNat, Nat.shiftRight_eq_div_pow, BitVec.toNat_setWidth]
  omega

/-- R84, R85: in every configuration, the word of an operation chooses the operation's own row, and the row reads its operands back. -/
theorem decodeFor_encode {cfg : Config} {i : Instr} (h : sampleFits cfg i = true) : decodeFor cfg (encode i) = .ok i := by
  cases i with
  | nop => exact row_of_match _ (EncodesItsRow.nop rfl)
  | drain => exact row_of_match _ (EncodesItsRow.drain rfl)
  | reset => exact row_of_match _ (EncodesItsRow.reset rfl)
  | tick adc =>
    have ha : SampleOk cfg adc := of_decide_eq_true h
    rw [decodeFor, adcField_tick ha]
    simp only [encode, opField_assemble]
    exact row_of_match _ ((tick_word_and_mask_iff cfg adc).mpr ha)
  | reg c =>
    simp only [decodeFor, encode, opField_assemble, chanField_assemble]
    exact row_of_match _ (EncodesItsRow.reg c rfl)
  | settgt c t =>
    simp only [decodeFor, encode, opField_assemble, chanField_assemble, immField_assemble]
    exact row_of_match _ (EncodesItsRow.settgt c t rfl)
  | gettgt c =>
    simp only [decodeFor, encode, opField_assemble, chanField_assemble]
    exact row_of_match _ (EncodesItsRow.gettgt c rfl)
  | gettemp c =>
    simp only [decodeFor, encode, opField_assemble, chanField_assemble]
    exact row_of_match _ (EncodesItsRow.gettemp c rfl)
  | getpwr c =>
    simp only [decodeFor, encode, opField_assemble, chanField_assemble]
    exact row_of_match _ (EncodesItsRow.getpwr c rfl)
  | setduty c d =>
    simp only [decodeFor, encode, opField_assemble, chanField_assemble, dutyField_assemble]
    exact row_of_match _ (EncodesItsRow.setduty c d rfl)
  | clrtgt c =>
    simp only [decodeFor, encode, opField_assemble, chanField_assemble]
    exact row_of_match _ (EncodesItsRow.clrtgt c rfl)
  | setgain j g =>
    simp only [decodeFor, encode, opField_assemble, subField_assemble, immField_assemble]
    exact row_of_match _ (EncodesItsRow.setgain j g rfl)
  | getgain j =>
    simp only [decodeFor, encode, opField_assemble, subField_assemble]
    exact row_of_match _ (EncodesItsRow.getgain j rfl)
  | setcal c j v =>
    simp only [decodeFor, encode, opField_assemble, chanField_assemble, subField_assemble, immField_assemble]
    exact row_of_match _ (EncodesItsRow.setcal c j v rfl)
  | getcal c j =>
    simp only [decodeFor, encode, opField_assemble, chanField_assemble, subField_assemble]
    exact row_of_match _ (EncodesItsRow.getcal c j rfl)
  | setstop v =>
    simp only [decodeFor, encode, opField_assemble, bitField_assemble]
    exact row_of_match _ (EncodesItsRow.setstop v rfl)

/-- R83, R86: a sample above ADC_MAX sets a bit that must be zero. -/
theorem decodeFor_encode_tick_of_not {cfg : Config} {adc : BitVec 16} (h : ¬ SampleOk cfg adc) :
    decodeFor cfg (encode (.tick adc)) = .error .mustBeZero := by
  have hrow : row (encode (.tick adc)) (tickMask cfg) 0x01000000 (.tick (adcField cfg (encode (.tick adc)))) = .error .mustBeZero :=
    if_neg (mt (tick_word_and_mask_iff cfg adc).mp h)
  rw [decodeFor, encode, opField_assemble]
  exact hrow

/-- The word of an operation does to the block what the operation does. A tick whose sample is above ADC_MAX has no legal word, and both
are answered (ERR, 0). -/
theorem operateWord_encode (cfg : Config) (i : Instr) : operateWord cfg (encode i) = operate cfg i := by
  funext s
  unfold operateWord
  cases h : sampleFits cfg i with
  | true => rw [decodeFor_encode h]
  | false =>
    cases i with
    | tick adc =>
      have ha : ¬ SampleOk cfg adc := of_decide_eq_false h
      rw [decodeFor_encode_tick_of_not ha]
      simp only [operate, tickOp, sample?_of_not ha]
    | _ => cases h

/-! ## Running operations -/

/-- The state the machine is in after the operation `i`. -/
def stateAfter (s : State) (i : Instr) : State where
  toBlock := (operate config i s.toBlock).1
  port := s.port
  response := some (operate config i s.toBlock).2

theorem exec_eq_next (i : Instr) (s : State) : exec i s = .next (stateAfter s i) := exec_eq_perform i s

/-- A sequence of operations always completes, one after the other (R277). -/
theorem execAll_eq_next (is : List Instr) (s : State) : execAll is s = .next (is.foldl stateAfter s) := by
  induction is generalizing s with
  | nil => rfl
  | cons i is ih =>
    rw [execAll, exec_eq_next]
    exact ih (stateAfter s i)

/-- The operation as its agent presents it (R88). -/
def issued (i : Instr) : Operation := ⟨issuer (encode i), encode i⟩

/-- A step on the word of an operation performs the operation and takes that word only. -/
theorem step_issued (i : Instr) (s : State) (rest : List Operation) :
    step { s with port := issued i :: rest } = .next { stateAfter s i with port := rest } := by
  have hpresent : present { s with port := issued i :: rest } = .word (encode i) { s with port := rest } :=
    present_presenting { s with port := rest } (encode i)
  rw [step_eq_perform hpresent, operateWord_encode]
  rfl

theorem run_succ {M : Host.Core} {s t : M.State} (h : M.step s = .next t) (k : Nat) : M.run (k + 1) s = M.run k t := by
  simp only [Host.Core.run, h]

/-- Settles O11, by induction on the waiting operations: each step performs the first of them. -/
theorem portRunsInOrder : Obligations.PortRunsInOrder := by
  intro is s rest
  refine ⟨is.foldl stateAfter s, execAll_eq_next is s, ?_⟩
  induction is generalizing s with
  | nil => rfl
  | cons i is ih =>
    have hstep : Sys2Proof.core.step { s with port := issued i :: (is.map issued ++ rest) } =
        .next { stateAfter s i with port := is.map issued ++ rest } := step_issued i s _
    exact (run_succ hstep is.length).trans (ih (stateAfter s i))

/-- Settles O6: the two ways R88 names its agents both present the word, and the decoded word is the operation. -/
theorem stepRunsDecodedOperation : Obligations.StepRunsDecodedOperation := by
  intro s op rest i hport hagent hdecode
  have hmay : mayIssue op.agent op.word = true := by
    rcases hagent with hagent | ⟨hagent, hword⟩
    · rw [hagent]
      exact mayIssue_issuer op.word
    · rw [hagent, hword]
      decide
  have hpresent : present s = .word op.word { s with port := rest } := by rw [present_cons hport, if_pos hmay]
  have hdecode : decodeFor config op.word = .ok i := hdecode
  rw [step_eq_perform hpresent, exec_eq_perform]
  simp only [State.perform, operateWord, hdecode]

end Sys2Proof.Proofs
end

section
/-! The family 20_memory.md, the operands: an index or immediate out of range is answered (ERR, 0) (R67), what the reading operations answer
(R69), and the gain registers by number (R63). -/

namespace Sys2Proof.Proofs

open Sys2Proof.Machine Sys2Proof.Safety Sys2Proof.Laws

/-! ## Operands out of range -/

/-- In a block of any configuration, an operand out of range makes a lookup of the operation's rule fail (R67). Whether a sample is in range
is a question of the tick's word (R86). -/
theorem operate_of_not_wellFormed {cfg : Config} {i : Instr} (s : Block cfg.nExt) (hfits : sampleFits cfg i = true)
    (h : wellFormedFor cfg i = false) : operate cfg i s = operandError s := by
  cases i with
  | nop => cases h
  | drain => cases h
  | setstop v => cases h
  | reset => cases h
  | tick adc => exact absurd (hfits.symm.trans h) (by decide)
  | reg c =>
    have hc : ¬ ChannelOk cfg c := of_decide_eq_false h
    simp only [operate, regOp, channel?_of_not hc]
  | settgt c t =>
    have hc : ¬ ChannelOk cfg c := of_decide_eq_false h
    simp only [operate, settgtOp, channel?_of_not hc]
  | gettgt c =>
    have hc : ¬ ChannelOk cfg c := of_decide_eq_false h
    simp only [operate, gettgtOp, channel?_of_not hc]
  | gettemp c =>
    have hc : ¬ ChannelOk cfg c := of_decide_eq_false h
    simp only [operate, gettempOp, channel?_of_not hc]
  | getpwr c =>
    have hc : ¬ ChannelOk cfg c := of_decide_eq_false h
    simp only [operate, getpwrOp, channel?_of_not hc]
  | clrtgt c =>
    have hc : ¬ ChannelOk cfg c := of_decide_eq_false h
    simp only [operate, clrtgtOp, channel?_of_not hc]
  | setgain j g =>
    have hj : ¬ GainOk j := of_decide_eq_false h
    simp only [operate, setgainOp, gain?_of_not hj]
  | getgain j =>
    have hj : ¬ GainOk j := of_decide_eq_false h
    simp only [operate, getgainOp, gain?_of_not hj]
  | setduty c d =>
    simp only [operate, setdutyOp]
    rcases Bool.and_eq_false_iff.mp h with hc | hd
    · rw [channel?_of_not (of_decide_eq_false hc)]
    · rw [duty?_of_not (of_decide_eq_false hd)]
      cases channel? cfg c <;> rfl
  | setcal c j v =>
    simp only [operate, setcalOp]
    rcases Bool.and_eq_false_iff.mp h with hc | hj
    · rw [channel?_of_not (of_decide_eq_false hc)]
    · rw [cell?_of_not (of_decide_eq_false hj)]
      cases channel? cfg c <;> rfl
  | getcal c j =>
    simp only [operate, getcalOp]
    rcases Bool.and_eq_false_iff.mp h with hc | hj
    · rw [channel?_of_not (of_decide_eq_false hc)]
    · rw [cell?_of_not (of_decide_eq_false hj)]
      cases channel? cfg c <;> rfl

/-- Settles O9: the operand error keeps the block, its histories included, and performing it keeps the waiting words. -/
theorem outOfRangeOperandAnswersErr : Obligations.OutOfRangeOperandAnswersErr := by
  intro i s hfits h
  rw [exec_eq_next, stateAfter, operate_of_not_wellFormed s.toBlock hfits h]
  rfl

/-! ## Operands in range -/

/-- The machine after an operation that its block answers with `respond(OK, v)`. -/
theorem exec_of_respondOk {i : Instr} {s : State} {t : Block config.nExt} {v : BitVec 32}
    (h : operate config i s.toBlock = respondOk v t) : exec i s = .next { s with toBlock := t, response := some ⟨.ok, v⟩ } := by
  rw [exec_eq_next, stateAfter, h]
  rfl

theorem exec_getgain {j : BitVec 4} {r : Gain} (h : gain? j = some r) (s : State) :
    exec (.getgain j) s = .next { s with response := some ⟨.ok, zextResult (s.gain r)⟩ } :=
  exec_of_respondOk (by simp only [operate, getgainOp, h])

theorem exec_setgain {j : BitVec 4} {r : Gain} (h : gain? j = some r) (g : GainWord) (s : State) :
    exec (.setgain j g) s = .next { s with toBlock := s.setGain r g, response := some ⟨.ok, 0⟩ } :=
  exec_of_respondOk (by simp only [operate, setgainOp, h])

/-- R69: an unsigned result is the value read, in 32 bits. -/
theorem zextResult_eq {w : Nat} (v : BitVec w) : zextResult v = BitVec.ofNat 32 v.toNat := (BitVec.ofNat_toNat 32 v).symm

/-- R69: a TEMP result is the signed value read, in 32 bits. -/
theorem sextResult_eq (t : Temp) : sextResult t = BitVec.ofInt 32 t.toInt := rfl

/-- Settles O50: with the operands in range each lookup succeeds, and the rule responds with what it reads. -/
theorem readingOperationsChangeNothing : Obligations.ReadingOperationsChangeNothing := by
  intro c j s
  simp only [← zextResult_eq, ← sextResult_eq]
  refine ⟨fun hc => ⟨?_, ?_, ?_, fun hj => ?_⟩, exec_getgain (r := .kp) rfl s, exec_getgain (r := .ki) rfl s,
    exec_getgain (r := .kd) rfl s, exec_getgain (r := .kimax) rfl s⟩ <;> apply exec_of_respondOk
  · simp only [operate, gettgtOp, channel?_of_ok hc]
  · simp only [operate, gettempOp, channel?_of_ok hc]
  · simp only [operate, getpwrOp, channel?_of_ok hc]
  · simp only [operate, getcalOp, channel?_of_ok hc, cell?_of_ok hj]
    rfl

/-- Settles O52: each number names its own gain register (R63), and the write of one leaves the rest of the block. -/
theorem setgainWritesOneGain : Obligations.SetgainWritesOneGain := fun g s =>
  ⟨exec_setgain (r := .kp) rfl g s, exec_setgain (r := .ki) rfl g s, exec_setgain (r := .kd) rfl g s,
    exec_setgain (r := .kimax) rfl g s⟩

end Sys2Proof.Proofs
end

section
/-! The family 20_memory.md, the sampling scheduler: what a prepare phase and a read phase do (R113 to R116), and that the 128th tick of a
window publishes the sum of each channel's sixteen samples (R62, R117 to R119, R122). -/

namespace Sys2Proof.Proofs

open Sys2Proof.Machine Sys2Proof.Safety Sys2Proof.Laws

/-! ## One tick of the sampling machine -/

theorem exec_tick {adc : BitVec 16} (h : SampleOk config adc) (s : State) :
    exec (.tick adc) s = .next { s with toBlock := tickState config adc s.toBlock, response := some ⟨.ok, 0⟩ } :=
  exec_of_respondOk (tickOp_of_ok h s.toBlock)

/-- What a tick at phase `p` asks of the converter: in the prepare phase of a present channel its analog input (R113, R115). -/
def phaseRequests (cfg : Config) (p : BitVec 3) : List (BitVec 4) :=
  if h : phch p < cfg.nch ∧ p.toNat % 2 = 0 then [cfg.ain ⟨phch p, h.1⟩] else []

theorem tickState_requests (cfg : Config) (adc : BitVec 16) (s : Block cfg.nExt) :
    (tickState cfg adc s).adcreq = s.adcreq ++ phaseRequests cfg s.phase := by
  have h : (tickState cfg adc s).adcreq = (samplePhase cfg adc (pwmStep s)).adcreq := by
    simp only [tickState, countTick_adcreq, sampleStep, advancePhase_adcreq]
  rw [h, samplePhase_adcreq, pwmStep_adcreq, pwmStep_phase]
  rfl

theorem phaseRequests_prepare {cfg : Config} {p : BitVec 3} {c : Nat} (hp : p.toNat % 2 = 0) (hc : phch p = c) :
    phaseRequests cfg p = if h : c < cfg.nch then [cfg.ain ⟨c, h⟩] else [] := by
  subst hc
  simp only [phaseRequests, hp, and_true]

theorem phaseRequests_read {cfg : Config} {p : BitVec 3} (hp : p.toNat % 2 = 1) : phaseRequests cfg p = [] :=
  dif_neg fun h => by omega

/-- A channel's accumulator once the current phase is done (R114, R115). -/
def sampledAcc (adc : BitVec 16) {n : Nat} (s : Block n) (c : Chan n) : BitVec 16 :=
  if c.val = phch s.phase ∧ s.phase.toNat % 2 ≠ 0 then (s.ch c).acc + adc else (s.ch c).acc

/-- A tick inside a window accumulates, publishes nothing and leaves the ready flag. -/
theorem tickState_inWindow {cfg : Config} {s : Block cfg.nExt} (adc : BitVec 16) (hend : ¬ (s.phase.toNat = 7 ∧ (s.pass + 1).toNat = 16)) :
    (tickState cfg adc s).ready = s.ready ∧ (tickState cfg adc s).pass = (if s.phase.toNat = 7 then s.pass + 1 else s.pass) ∧
      ∀ c, ((tickState cfg adc s).ch c).acc = sampledAcc adc s c ∧ ((tickState cfg adc s).ch c).rawCur = (s.ch c).rawCur := by
  refine ⟨?_, ?_, fun c => ⟨?_, tickState_rawCur hend c⟩⟩
  · rw [(tickState_ch cfg adc s bed).2.2.2, if_neg hend]
  · rw [tickState_pass]
    split
    · rename_i h7
      rw [if_neg fun h16 => hend ⟨h7, h16⟩]
    · rfl
  · rw [(tickState_ch cfg adc s c).1, if_neg hend, pwmStep_ch_frame]
    rfl

/-- The tick that ends a window publishes (R117, R118). -/
theorem tickState_endOfWindow {cfg : Config} {s : Block cfg.nExt} (adc : BitVec 16) (h7 : s.phase.toNat = 7) (h15 : s.pass.toNat = 15) :
    (tickState cfg adc s).ready = true ∧ (tickState cfg adc s).pass = 0 ∧ (tickState cfg adc s).phase = 0 ∧
      ∀ c, ((tickState cfg adc s).ch c).acc = 0 ∧ ((tickState cfg adc s).ch c).rawCur = finalReading cfg c (sampledAcc adc s c) := by
  have h16 : (s.pass + 1).toNat = 16 := by bv_omega
  refine ⟨?_, ?_, ?_, fun c => ?_⟩
  · rw [(tickState_ch cfg adc s bed).2.2.2, if_pos ⟨h7, h16⟩]
  · rw [tickState_pass, if_pos h7, if_pos h16]
  · rw [tickState_phase]
    bv_omega
  · rw [(tickState_ch cfg adc s c).1, if_pos ⟨h7, h16⟩, pwmStep_ch_frame]
    exact ⟨rfl, rfl⟩

/-! ## The phases one by one -/

/-- Settles O14: the prepare phases are the even ones, in which the scheduler accumulates nothing. -/
theorem preparePhaseRequestsItsInput : Obligations.PreparePhaseRequestsItsInput := by
  intro p c hpc adc s ha hphase
  subst hphase
  have hprepare : ∀ pc ∈ [((0 : BitVec 3), 1), (2, 0), (4, 2), (6, 3)], pc.1.toNat % 2 = 0 ∧ phch pc.1 = pc.2 := by decide
  obtain ⟨heven, hc⟩ : s.phase.toNat % 2 = 0 ∧ phch s.phase = c := hprepare _ hpc
  have hseven : s.phase.toNat ≠ 7 := fun h => by omega
  obtain ⟨hready, hpass, hch⟩ := tickState_inWindow (s := s.toBlock) adc fun h => hseven h.1
  refine ⟨_, exec_tick ha s, ?_, tickState_phase .., ?_, hready, fun c' => ?_⟩
  · rw [← phaseRequests_prepare heven hc]
    exact tickState_requests ..
  · exact hpass.trans (if_neg hseven)
  · obtain ⟨hacc, hcur⟩ := hch c'
    exact ⟨hacc.trans (if_neg fun h => h.2 heven), hcur⟩

/-- Settles O15: the read phases are the odd ones, in which the scheduler requests nothing. -/
theorem readPhaseAccumulatesTheSample : Obligations.ReadPhaseAccumulatesTheSample := by
  intro p c hpc adc s ha hphase hpass
  subst hphase
  have hread : ∀ pc ∈ [((1 : BitVec 3), 1), (3, 0), (5, 2), (7, 3)], pc.1.toNat % 2 = 1 ∧ phch pc.1 = pc.2 := by decide
  obtain ⟨hodd, rfl⟩ : s.phase.toNat % 2 = 1 ∧ phch s.phase = c := hread _ hpc
  have hend : ¬ (s.phase.toNat = 7 ∧ (s.pass + 1).toNat = 16) := by
    rintro ⟨h7, h16⟩
    exact hpass (BitVec.eq_of_toNat_eq h7) (by bv_omega)
  obtain ⟨hready, hcount, hch⟩ := tickState_inWindow (s := s.toBlock) adc hend
  refine ⟨_, exec_tick ha s, ?_, hready, ?_, fun c' => ?_⟩
  · have h := tickState_requests config adc s.toBlock
    rwa [phaseRequests_read hodd, List.append_nil] at h
  · rw [hcount]
    simp only [← BitVec.toNat_inj]
    rfl
  · obtain ⟨hacc, hcur⟩ := hch c'
    refine ⟨?_, hcur⟩
    rw [hacc, sampledAcc]
    simp only [hodd, ne_eq, one_ne_zero, not_false_eq_true, and_true]

end Sys2Proof.Proofs
end

section
/-! The family 20_memory.md, the window: what its first ticks have asked for and summed, whatever host operations fall between them, and what
its 128th tick publishes (R62, R113 to R119, R122). -/

namespace Sys2Proof.Proofs

open Sys2Proof.Machine Sys2Proof.Safety Sys2Proof.Laws

/-! ## The requests of a window -/

/-- The request for the channel numbered `c`, if the block has it (R113, R115). -/
def channelRequest (cfg : Config) (c : Nat) : Option (BitVec 4) := if h : c < cfg.nch then some (cfg.ain ⟨c, h⟩) else none

theorem phaseRequests_eq_channelRequest (cfg : Config) {p : BitVec 3} {c : Nat} (hp : p.toNat % 2 = 0) (hc : phch p = c) :
    phaseRequests cfg p = (channelRequest cfg c).toList := by
  rw [phaseRequests_prepare hp hc, channelRequest]
  split <;> rfl

/-- The requests of one pass, in the order E0, bed, E1, E2 (R62). -/
def passRequests (cfg : Config) : List (BitVec 4) := [1, 0, 2, 3].filterMap (channelRequest cfg)

/-- The requests of the first `k` ticks of a window. -/
def windowRequests (cfg : Config) (k : Nat) : List (BitVec 4) := (List.range k).flatMap fun i => phaseRequests cfg (BitVec.ofNat 3 i)

theorem windowRequests_succ (cfg : Config) (k : Nat) :
    windowRequests cfg (k + 1) = windowRequests cfg k ++ phaseRequests cfg (BitVec.ofNat 3 k) := by
  simp [windowRequests, List.range_succ, List.flatMap_append]

/-- The eight phases of a pass make its requests. -/
theorem windowRequests_eight (cfg : Config) : windowRequests cfg 8 = passRequests cfg := by
  have hrange : windowRequests cfg 8 = ([0, 1, 2, 3, 4, 5, 6, 7] : List (BitVec 3)).flatMap (phaseRequests cfg) := rfl
  rw [hrange, passRequests, List.filterMap_eq_flatMap_toList]
  have h0 : phaseRequests cfg 0 = (channelRequest cfg 1).toList := phaseRequests_eq_channelRequest cfg rfl rfl
  have h2 : phaseRequests cfg 2 = (channelRequest cfg 0).toList := phaseRequests_eq_channelRequest cfg rfl rfl
  have h4 : phaseRequests cfg 4 = (channelRequest cfg 2).toList := phaseRequests_eq_channelRequest cfg rfl rfl
  have h6 : phaseRequests cfg 6 = (channelRequest cfg 3).toList := phaseRequests_eq_channelRequest cfg rfl rfl
  have hread {p : BitVec 3} (hp : p.toNat % 2 = 1) : phaseRequests cfg p = [] := phaseRequests_read hp
  simp only [List.flatMap_cons, h0, h2, h4, h6, hread (p := 1) rfl, hread (p := 3) rfl, hread (p := 5) rfl, hread (p := 7) rfl,
    List.nil_append]
  rfl

theorem windowRequests_pass (cfg : Config) (n : Nat) : windowRequests cfg (8 * (n + 1)) = windowRequests cfg (8 * n) ++ passRequests cfg := by
  rw [← windowRequests_eight, windowRequests, Nat.mul_succ, List.range_add, List.flatMap_append, List.flatMap_map]
  congr 1
  have hphase (i : Nat) : BitVec.ofNat 3 (8 * n + i) = BitVec.ofNat 3 i := by bv_omega
  simp only [hphase]
  rfl

/-- Each pass asks once for each channel. -/
theorem windowRequests_passes (cfg : Config) (n : Nat) : windowRequests cfg (8 * n) = (List.replicate n (passRequests cfg)).flatten := by
  induction n with
  | zero => rfl
  | succ n ih => rw [windowRequests_pass, ih, List.replicate_succ', List.flatten_append, List.flatten_singleton]

/-! ## The sums of a window -/

/-- The sum of a channel's samples among the first samples `xs` of a window: one per pass, in the channel's read phase (R62). -/
def windowSum {n : Nat} (c : Chan n) (xs : List (BitVec 16)) : Nat :=
  ((List.range 16).map fun p => (xs.getD (8 * p + readPhase c) 0).toNat).sum

theorem windowSum_nil {n : Nat} (c : Chan n) : windowSum c [] = 0 := by simp [windowSum]

/-- Of a window's sixteen samples of a channel, at most one is at a given tick. -/
theorem sum_map_ite_tick {r k : Nat} (a : Nat) (hr : r < 8) (hk : k < 128) :
    ((List.range 16).map fun p => if 8 * p + r = k then a else 0).sum = if r = k % 8 then a else 0 := by
  show (∑ p ∈ Finset.range 16, if 8 * p + r = k then a else 0) = _
  by_cases h : r = k % 8
  · have hp : ∀ p, 8 * p + r = k ↔ p = k / 8 := fun p => by omega
    simp only [hp]
    rw [Finset.sum_ite_eq', if_pos (Finset.mem_range.mpr (by omega)), if_pos h]
  · rw [if_neg h]
    exact Finset.sum_eq_zero fun p _ => if_neg fun hp => h (by omega)

theorem getD_concat_toNat (xs : List (BitVec 16)) (a : BitVec 16) (k : Nat) :
    ((xs ++ [a]).getD k 0).toNat = (xs.getD k 0).toNat + if k = xs.length then a.toNat else 0 := by
  rcases Nat.lt_trichotomy k xs.length with h | h | h
  · simp [List.getElem?_append_left h, h.ne]
  · simp [h]
  · simp [h.ne', List.getElem?_eq_none, h.le, Nat.succ_le_of_lt h]

/-- One more sample counts for the channel whose read phase it falls in. -/
theorem windowSum_concat {n : Nat} (c : Chan n) {xs : List (BitVec 16)} (a : BitVec 16) (h : xs.length < 128) :
    windowSum c (xs ++ [a]) = windowSum c xs + if readPhase c = xs.length % 8 then a.toNat else 0 := by
  simp only [windowSum, getD_concat_toNat]
  rw [List.sum_map_add, sum_map_ite_tick a.toNat (Nat.lt_succ_of_le (readPhase_le_seven c)) h]

/-- Sixteen samples fit FULL_SCALE (R5). -/
theorem windowSum_le {cfg : Config} (c : Chan cfg.nExt) {xs : List (BitVec 16)} (h : ∀ x ∈ xs, SampleOk cfg x) :
    windowSum c xs ≤ cfg.fullScale := by
  have hsample (k : Nat) : (xs.getD k 0).toNat ≤ cfg.adcMax := by
    rcases Nat.lt_or_ge k xs.length with hk | hk
    · rw [List.getD_eq_getElem _ _ hk]
      exact h _ (List.getElem_mem hk)
    · rw [List.getD_eq_default _ _ hk]
      exact Nat.zero_le _
  calc windowSum c xs ≤ ((List.range 16).map fun p => (xs.getD (8 * p + readPhase c) 0).toNat).length • cfg.adcMax :=
        List.sum_le_card_nsmul _ _ fun x hx => by
          obtain ⟨p, -, rfl⟩ := List.mem_map.mp hx
          exact hsample _
    _ = 16 * cfg.adcMax := by simp
    _ ≤ cfg.fullScale := cfg.window_le_fullScale

/-- The published reading is the sum, or its complement to FULL_SCALE (R118). -/
theorem finalReading_ofNat_toNat {cfg : Config} (c : Chan cfg.nExt) {v : Nat} (h : v ≤ cfg.fullScale) :
    (finalReading cfg c (BitVec.ofNat 16 v)).toNat = if cfg.linear c then v else cfg.fullScale - v := by
  have hf := cfg.fullScale_le
  unfold finalReading
  split
  · rw [BitVec.toNat_ofNat]
    omega
  · rw [BitVec.toNat_sub, BitVec.toNat_ofNat, BitVec.toNat_ofNat]
    omega

/-! ## The window as it goes on -/

/-- `s` is a block that stood at a window's start as `s₀` and has since taken the samples `xs`, fewer than a window holds: where the
sampling machine is, what it has asked for, and what it has summed. -/
structure WindowProgress (cfg : Config) (s₀ : Block cfg.nExt) (xs : List (BitVec 16)) (s : Block cfg.nExt) : Prop where
  fits : ∀ x ∈ xs, SampleOk cfg x
  length_lt : xs.length < 128
  phase_eq : s.phase.toNat = xs.length % 8
  pass_eq : s.pass.toNat = xs.length / 8
  ticks_eq : s.ticks = s₀.ticks + BitVec.ofNat 32 xs.length
  adcreq_eq : s.adcreq = s₀.adcreq ++ windowRequests cfg xs.length
  acc_eq : ∀ c, (s.ch c).acc = BitVec.ofNat 16 (windowSum c xs)

namespace WindowProgress

variable {cfg : Config} {s₀ s t : Block cfg.nExt} {xs : List (BitVec 16)} {adc : BitVec 16}

theorem start (hphase : s.phase = 0) (hpass : s.pass = 0) (hacc : ∀ c, (s.ch c).acc = 0) : WindowProgress cfg s [] s where
  fits := by simp
  length_lt := by decide
  phase_eq := by rw [hphase]; rfl
  pass_eq := by rw [hpass]; rfl
  ticks_eq := (BitVec.add_zero _).symm
  adcreq_eq := (List.append_nil _).symm
  acc_eq c := by rw [hacc, windowSum_nil]; rfl

/-- An operation that spares the timer agent's registers is none of the window's. -/
theorem of_sameTimerRegs (h : WindowProgress cfg s₀ xs s) (hst : SameTimerRegs s t) : WindowProgress cfg s₀ xs t := by
  obtain ⟨hphase, hpass, -, hticks, hreq⟩ := hst.block
  refine ⟨h.fits, h.length_lt, ?_, ?_, ?_, ?_, fun c => ?_⟩
  · rw [hphase, h.phase_eq]
  · rw [hpass, h.pass_eq]
  · rw [hticks, h.ticks_eq]
  · rw [hreq, h.adcreq_eq]
  · obtain ⟨-, hacc, -⟩ := hst.chan c
    rw [hacc, h.acc_eq]

theorem requests_tick (h : WindowProgress cfg s₀ xs s) :
    (tickState cfg adc s).adcreq = s₀.adcreq ++ windowRequests cfg (xs ++ [adc]).length := by
  have hphase : s.phase = BitVec.ofNat 3 xs.length := BitVec.eq_of_toNat_eq (by rw [h.phase_eq, BitVec.toNat_ofNat])
  rw [tickState_requests, h.adcreq_eq, hphase, List.append_assoc, ← windowRequests_succ, List.length_append, List.length_singleton]

theorem ticks_tick (h : WindowProgress cfg s₀ xs s) :
    (tickState cfg adc s).ticks = s₀.ticks + BitVec.ofNat 32 (xs ++ [adc]).length := by
  rw [tickState_ticks, h.ticks_eq, List.length_append, List.length_singleton, BitVec.ofNat_add, BitVec.add_assoc]
  rfl

theorem sampledAcc_eq (h : WindowProgress cfg s₀ xs s) (c : Chan cfg.nExt) :
    sampledAcc adc s c = BitVec.ofNat 16 (windowSum c (xs ++ [adc])) := by
  rw [sampledAcc, windowSum_concat c adc h.length_lt, h.acc_eq c, ← h.phase_eq]
  simp only [← readPhase_eq_iff]
  split
  · rw [BitVec.ofNat_add, BitVec.ofNat_toNat, BitVec.setWidth_eq]
  · rw [Nat.add_zero]

theorem fits_concat (h : WindowProgress cfg s₀ xs s) (ha : SampleOk cfg adc) : ∀ x ∈ xs ++ [adc], SampleOk cfg x := by
  intro x hx
  rcases List.mem_append.mp hx with hx | hx
  · exact h.fits x hx
  · obtain rfl := List.mem_singleton.mp hx
    exact ha

/-- A tick that leaves the window unfinished is one more sample of it. -/
theorem tick (h : WindowProgress cfg s₀ xs s) (ha : SampleOk cfg adc) (hlen : (xs ++ [adc]).length < 128) :
    WindowProgress cfg s₀ (xs ++ [adc]) (tickState cfg adc s) := by
  have hphase := h.phase_eq
  have hpass := h.pass_eq
  have hlen' : xs.length + 1 < 128 := by simpa using hlen
  have hend : ¬ (s.phase.toNat = 7 ∧ (s.pass + 1).toNat = 16) := by bv_omega
  obtain ⟨-, hcount, hch⟩ := tickState_inWindow adc hend
  refine ⟨h.fits_concat ha, hlen, ?_, ?_, h.ticks_tick, h.requests_tick, fun c => (hch c).1.trans (h.sampledAcc_eq c)⟩
  · rw [tickState_phase, List.length_append, List.length_singleton]
    bv_omega
  · rw [hcount, List.length_append, List.length_singleton]
    split <;> bv_omega

/-- Any operation but `RESET` takes the window on by the samples it holds, if it leaves the window unfinished. -/
theorem operation (h : WindowProgress cfg s₀ xs s) {i : Instr} (hi : i ≠ .reset) (hlen : (xs ++ tickSamples cfg [i]).length < 128) :
    WindowProgress cfg s₀ (xs ++ tickSamples cfg [i]) (operate cfg i s).1 := by
  cases htick : isTick cfg i with
  | true =>
    obtain ⟨adc, ha, rfl, ht⟩ := operate_of_isTick s htick
    have hone : tickSamples cfg [.tick adc] = [adc] := by simp [tickSamples, sample?_of_ok ha]
    rw [hone] at hlen ⊢
    rw [ht]
    exact h.tick ha hlen
  | false =>
    have hnone : tickSamples cfg [i] = [] := List.eq_nil_of_length_eq_zero (tickCount_cons_other [] htick)
    rw [hnone, List.append_nil]
    exact h.of_sameTimerRegs (sameTimerRegs_of_hostStep (hostStep_of_operate s htick hi))

end WindowProgress

/-- Any operations but `RESET` take the window on by the samples they hold, if they leave the window unfinished. -/
theorem windowProgress_foldl {s₀ : Block config.nExt} {is : List Instr} {xs : List (BitVec 16)} {s : State}
    (h : WindowProgress config s₀ xs s.toBlock) (hreset : .reset ∉ is) (hlen : (xs ++ tickSamples config is).length < 128) :
    WindowProgress config s₀ (xs ++ tickSamples config is) (is.foldl stateAfter s).toBlock := by
  induction is generalizing xs s with
  | nil => simpa [tickSamples] using h
  | cons i is ih =>
    obtain ⟨hi, hreset⟩ := not_or.mp (mt List.mem_cons.mpr hreset)
    have hsplit : xs ++ tickSamples config (i :: is) = (xs ++ tickSamples config [i]) ++ tickSamples config is := by
      rw [List.append_assoc]
      exact congrArg (xs ++ ·) (List.filterMap_append (l := [i]) (l' := is))
    rw [hsplit] at hlen ⊢
    have hfirst : (xs ++ tickSamples config [i]).length < 128 := by
      rw [List.length_append] at hlen
      omega
    exact ih (s := stateAfter s i) (h.operation (Ne.symm hi) hfirst) hreset hlen

/-- Settles O18: 127 ticks and any host operations leave the window one sample short, and the last tick publishes it. -/
theorem windowPublishesSumOfSixteenSamples : Obligations.WindowPublishesSumOfSixteenSamples := by
  intro is adc s hphase hpass hacc ha hreset hcount
  have hlen : (tickSamples config is).length = 127 := hcount
  have h : WindowProgress config s.toBlock (tickSamples config is) (is.foldl stateAfter s).toBlock :=
    windowProgress_foldl (.start hphase hpass hacc) hreset (by rw [List.nil_append, hlen]; decide)
  have hexec : execAll (is ++ [.tick adc]) s = exec (.tick adc) (is.foldl stateAfter s) := by
    rw [execAll_eq_next, List.foldl_append, exec_eq_next]
    rfl
  have hphase7 : (is.foldl stateAfter s).phase.toNat = 7 := by rw [h.phase_eq, hlen]
  have hpass15 : (is.foldl stateAfter s).pass.toNat = 15 := by rw [h.pass_eq, hlen]
  obtain ⟨hready, hpass', hphase', hch⟩ := tickState_endOfWindow (cfg := config) adc hphase7 hpass15
  have hlast : (tickSamples config is ++ [adc]).length = 8 * 16 := by rw [List.length_append, hlen]; rfl
  refine ⟨_, hexec.trans (exec_tick ha _), hready, hphase', hpass', ?_, ?_, fun c => ?_⟩
  · have hticks := h.ticks_tick (adc := adc)
    rwa [hlast] at hticks
  · have hreq := h.requests_tick (adc := adc)
    rwa [hlast, windowRequests_passes] at hreq
  · obtain ⟨hzero, hcur⟩ := hch c
    refine ⟨hzero, ?_⟩
    show ((tickState config adc _).ch c).rawCur.toNat = _
    rw [hcur, h.sampledAcc_eq, finalReading_ofNat_toNat c (windowSum_le c (h.fits_concat ha))]
    rfl

end Sys2Proof.Proofs
end

section
/-! The family 30_encoding.md, the decoder: it reads every operation back from its word and accepts no other word (R82 to R86, R89). -/

namespace Sys2Proof.Proofs

open Sys2Proof.Machine Sys2Proof.Safety Sys2Proof.Laws

/-- Settles O1: the word of an operation chooses its own row, which reads the operands back. -/
theorem decodeOfEncodeIsTheInstruction : Obligations.DecodeOfEncodeIsTheInstruction := fun _ _ => decodeFor_encode

/-- Settles O3: each word is the one its operation is encoded as. -/
theorem exampleWordsDecode : Obligations.ExampleWordsDecode :=
  ⟨decodeFor_encode (i := .nop) rfl, decodeFor_encode (i := .tick 775) (by decide), decodeFor_encode (i := .reg 1) rfl,
    decodeFor_encode (i := .settgt 1 3200) rfl, decodeFor_encode (i := .setduty 1 127) rfl,
    decodeFor_encode (i := .setgain 1 0x0080) rfl, decodeFor_encode (i := .getgain 3) rfl,
    decodeFor_encode (i := .setcal 1 2 0x1234) rfl, decodeFor_encode (i := .getcal 1 2) rfl,
    decodeFor_encode (i := .setstop 1) rfl, decodeFor_encode (i := .reset) rfl⟩

/-! ## What a row of the table says of the word it accepts -/

theorem row_eq_ok_iff {w mask pattern : Word} {i i' : Instr} : row w mask pattern i' = .ok i ↔ w &&& mask = pattern ∧ i' = i := by
  unfold row
  split <;> simp [*]

/-- A row's mask and match, field by field: the opcode is the row's, and the masked bits of the other fields are zero (R84). -/
theorem fields_of_match {w : Word} {op : BitVec 8} {mc mj : BitVec 4} {mi : BitVec 16}
    (h : w &&& assemble 0xFF mc mj mi = assemble op 0 0 0) :
    opField w = op ∧ chanField w &&& mc = 0 ∧ subField w &&& mj = 0 ∧ immField w &&& mi = 0 := by
  rw [← assemble_fields w, assemble_and] at h
  have hop := congrArg opField h
  have hc := congrArg chanField h
  have hj := congrArg subField h
  have hi := congrArg immField h
  rw [opField_assemble, opField_assemble] at hop
  rw [chanField_assemble, chanField_assemble] at hc
  rw [subField_assemble, subField_assemble] at hj
  rw [immField_assemble, immField_assemble] at hi
  exact ⟨(BitVec.and_allOnes (x := opField w)).symm.trans hop, hc, hj, hi⟩

/-- What a row's mask makes of one field: where the field's value `x` is zero in the bits of `mask`, it is `v`, the value the encoder puts
there. -/
def FieldReadAs {w : Nat} (v mask x : BitVec w) : Prop := x &&& mask = 0 → v = x

/-- A field the row does not mask is read whole. -/
theorem FieldReadAs.whole {w : Nat} {mask x : BitVec w} : FieldReadAs x mask x := fun _ => rfl

/-- A field the row masks whole must be zero (R86). -/
theorem FieldReadAs.zero {w : Nat} {x : BitVec w} : FieldReadAs 0 (BitVec.allOnes w) x := fun h =>
  h.symm.trans BitVec.and_allOnes

/-- A field masked but for its low bits is its low bits (R83). -/
theorem FieldReadAs.low {w : Nat} {v : BitVec w} {mask x : BitVec 16} (hmask : ∀ i < 16, mask.getLsbD i = decide (w ≤ i))
    (hv : ∀ i < w, v.getLsbD i = x.getLsbD i) : FieldReadAs (v.setWidth 16) mask x := by
  intro h
  refine BitVec.eq_of_getLsbD_eq fun i hi => ?_
  rw [BitVec.getLsbD_setWidth, decide_eq_true hi, Bool.true_and]
  by_cases hw : i < w
  · exact hv i hw
  · have hbit : (x &&& mask).getLsbD i = false := by rw [h]; exact BitVec.getLsbD_zero
    rw [BitVec.getLsbD_and, hmask i hi, decide_eq_true (Nat.le_of_not_lt hw), Bool.and_true] at hbit
    rw [BitVec.getLsbD_of_ge v i (Nat.le_of_not_lt hw), hbit]

theorem FieldReadAs.duty {w : Word} : FieldReadAs ((dutyField w).setWidth 16) 0xFF00 (immField w) :=
  .low (by decide) fun i hi => by simp [dutyField, immField, hi, Nat.lt_trans hi (show 8 < 16 by decide)]

theorem FieldReadAs.bit {w : Word} : FieldReadAs ((bitField w).setWidth 16) 0xFFFE (immField w) :=
  .low (by decide) fun i hi => by simp [bitField, immField, hi, Nat.lt_trans hi (show 1 < 16 by decide)]

/-- A word that a row accepts is put together from the row's opcode and the fields as the row reads them. -/
theorem assemble_of_match {w : Word} {op : BitVec 8} {mc mj c j : BitVec 4} {mi imm : BitVec 16}
    (h : w &&& assemble 0xFF mc mj mi = assemble op 0 0 0) (hc : FieldReadAs c mc (chanField w))
    (hj : FieldReadAs j mj (subField w)) (hi : FieldReadAs imm mi (immField w)) : assemble op c j imm = w := by
  obtain ⟨hop, hc0, hj0, hi0⟩ := fields_of_match h
  rw [← hop, hc hc0, hj hj0, hi hi0, assemble_fields]

/-- The same for a row that is not a tick's, as the decoder runs it: the word is that of the operation the row gives. -/
theorem encode_of_row {cfg : Config} {w : Word} {i i' : Instr} (op : BitVec 8) (mc mj : BitVec 4)
    (mi : BitVec 16) {c j : BitVec 4} {imm : BitVec 16} (h : row w (assemble 0xFF mc mj mi) (assemble op 0 0 0) i' = .ok i)
    (hc : FieldReadAs c mc (chanField w)) (hj : FieldReadAs j mj (subField w)) (hi : FieldReadAs imm mi (immField w))
    (hencode : encode i' = assemble op c j imm) (hfits : sampleFits cfg i' = true) : encode i = w ∧ sampleFits cfg i = true := by
  obtain ⟨hmatch, rfl⟩ := row_eq_ok_iff.mp h
  exact ⟨hencode.trans (assemble_of_match hmatch hc hj hi), hfits⟩

/-! ## The row of `TICK`, whose mask depends on ADC_BITS -/

theorem tickMask_and_high (cfg : Config) : tickMask cfg &&& 0xFFFF0000 = 0xFFFF0000 := by
  have hb := adcBits_le cfg
  have hhigh : ∀ i < 32, (0xFFFF0000 : Word).getLsbD i = decide (16 ≤ i) := by decide
  refine BitVec.eq_of_getLsbD_eq fun i hi => ?_
  rw [BitVec.getLsbD_and, getLsbD_tickMask cfg hi, hhigh i hi, ← Bool.decide_and, decide_eq_decide]
  omega

/-- The row of `TICK` accepts the word of its immediate only. -/
theorem encode_tick_of_match {cfg : Config} {w : Word} (h : w &&& tickMask cfg = 0x01000000) : encode (.tick (immField w)) = w := by
  have hhigh : w &&& 0xFFFF0000 = 0x01000000 := by
    rw [← tickMask_and_high cfg, ← BitVec.and_assoc, h]
    rfl
  exact assemble_of_match (mc := 15) (mj := 15) (mi := 0) hhigh .zero .zero .whole

/-- The tick the decoder reads: the immediate is a sample in range, so the sample field is the whole of it (R83). -/
theorem encode_of_tick_row {cfg : Config} {w : Word} {i : Instr}
    (h : row w (tickMask cfg) 0x01000000 (.tick (adcField cfg w)) = .ok i) : encode i = w ∧ sampleFits cfg i = true := by
  obtain ⟨hmatch, rfl⟩ := row_eq_ok_iff.mp h
  have hword := encode_tick_of_match hmatch
  have hsample : SampleOk cfg (immField w) := (tick_word_and_mask_iff cfg _).mp (by rw [hword, hmatch])
  have hfield : adcField cfg w = immField w := by rw [← adcField_tick hsample, hword]
  rw [hfield]
  exact ⟨hword, decide_eq_true hsample⟩

/-! ## The decoder -/

/-- R85, R86: row by row, which fields the mask clears and which the operation holds. -/
theorem encode_of_decodeFor {cfg : Config} {w : Word} {i : Instr} (h : decodeFor cfg w = .ok i) :
    encode i = w ∧ sampleFits cfg i = true := by
  unfold decodeFor at h
  split at h
  · exact encode_of_row 0x00 15 15 0xFFFF h .zero .zero .zero rfl rfl
  · exact encode_of_tick_row h
  · exact encode_of_row 0x02 15 15 0xFFFF h .zero .zero .zero rfl rfl
  · exact encode_of_row 0x03 0 15 0xFFFF h .whole .zero .zero rfl rfl
  · exact encode_of_row 0x10 0 15 0 h .whole .zero .whole rfl rfl
  · exact encode_of_row 0x11 0 15 0xFFFF h .whole .zero .zero rfl rfl
  · exact encode_of_row 0x12 0 15 0xFFFF h .whole .zero .zero rfl rfl
  · exact encode_of_row 0x13 0 15 0xFFFF h .whole .zero .zero rfl rfl
  · exact encode_of_row 0x14 0 15 0xFF00 h .whole .zero .duty rfl rfl
  · exact encode_of_row 0x15 0 15 0xFFFF h .whole .zero .zero rfl rfl
  · exact encode_of_row 0x20 15 0 0 h .zero .whole .whole rfl rfl
  · exact encode_of_row 0x21 15 0 0xFFFF h .zero .whole .zero rfl rfl
  · exact encode_of_row 0x22 0 0 0 h .whole .whole .whole rfl rfl
  · exact encode_of_row 0x23 0 0 0xFFFF h .whole .whole .zero rfl rfl
  · exact encode_of_row 0x30 15 15 0xFFFE h .zero .zero .bit rfl rfl
  · exact encode_of_row 0xFF 15 15 0xFFFF h .zero .zero .zero rfl rfl
  · cases h

/-- Settles O2: the row that accepts a word clears exactly the fields its operation does not hold. -/
theorem decodedWordIsItsEncoding : Obligations.DecodedWordIsItsEncoding := fun _ _ _ => encode_of_decodeFor

/-- R87: an opcode of the reserved ranges is in no row. -/
theorem decodeFor_of_reserved {cfg : Config} {w : Word} {op : Nat} (hop : (opField w).toNat = op)
    (h : (0x04 ≤ op ∧ op ≤ 0x0F) ∨ (0x16 ≤ op ∧ op ≤ 0x1F) ∨ (0x24 ≤ op ∧ op ≤ 0x2F) ∨ (0x31 ≤ op ∧ op ≤ 0xFE)) :
    decodeFor cfg w = .error .reservedOpcode := by
  unfold decodeFor
  split
  case h_17 => rfl
  all_goals omega

theorem opField_toNat (w : Word) : (opField w).toNat = w.toNat / 2 ^ 24 := by
  rw [opField, BitVec.extractLsb'_toNat, Nat.shiftRight_eq_div_pow, Nat.mod_eq_of_lt (by have := w.isLt; omega)]

end Sys2Proof.Proofs
end

section
/-! The family 30_encoding.md, the operation port: which agent may issue a word (R88), and that an illegal word is answered (ERR, 0) and
changes nothing (R86, R87). -/

namespace Sys2Proof.Proofs

open Sys2Proof.Machine Sys2Proof.Safety Sys2Proof.Laws

/-! ## The agents -/

/-- R88: a word comes from its one agent, but that `RESET` may come from the reset source too. -/
theorem mayIssue_iff (a : Agent) (w : Word) :
    mayIssue a w = true ↔ a = issuer w ∨ (opField w = opcodeReset ∧ a = .resetSource) := by
  have hne : opcodeTick ≠ opcodeReset := by decide
  by_cases ht : opField w = opcodeTick
  · simp [mayIssue, issuer, ht, hne]
  · by_cases hr : opField w = opcodeReset
    · simp [mayIssue, issuer, hr, hne.symm, or_comm]
    · simp [mayIssue, issuer, ht, hr]

theorem issuer_ne_resetSource (w : Word) : issuer w ≠ .resetSource := by
  unfold issuer
  split <;> decide

theorem step_of_wrongAgent {s : State} {op : Operation} {rest : List Operation} (hport : s.port = op :: rest)
    (hmay : mayIssue op.agent op.word = false) : step s = .refused .wrongAgent := by
  have hpresent : present s = .wrongAgent := by rw [present_cons hport, hmay]; rfl
  rw [step, hpresent]

/-- Settles O7: in each of the three cases the agent is not the word's own, nor the reset source with a `RESET`. -/
theorem wrongAgentIsNoStep : Obligations.WrongAgentIsNoStep := by
  intro s op rest hport hwrong
  refine step_of_wrongAgent hport (Bool.eq_false_iff.mpr (mt (mayIssue_iff op.agent op.word).mp ?_))
  rcases hwrong with ⟨htick, hagent⟩ | ⟨htick, hagent⟩ | ⟨hreset, hagent⟩
  · rintro (hown | ⟨hreset, -⟩)
    · exact hagent (hown.trans (if_pos htick))
    · exact absurd (htick.symm.trans hreset) (by decide)
  · rw [hagent]
    rintro (hown | ⟨-, hsource⟩)
    · exact absurd (hown.trans (if_neg htick)) (by decide)
    · cases hsource
  · rw [hagent]
    rintro (hown | ⟨hreset', -⟩)
    · exact issuer_ne_resetSource op.word hown.symm
    · exact hreset hreset'

/-- Settles O8: a step idles, performs the word, or refuses one that its agent may not issue. -/
theorem stepStopsOnlyForWrongAgent : Obligations.StepStopsOnlyForWrongAgent := by
  intro s
  rcases step_cases s with ⟨-, hidle⟩ | ⟨op, rest, -, -, hperform⟩ | ⟨op, rest, hport, hmay, hrefused⟩
  · exact .inl ⟨s, hidle⟩
  · exact .inl ⟨_, hperform.trans (perform_eq _ _)⟩
  · have hwrong : ¬ (op.agent = issuer op.word ∨ (opField op.word = opcodeReset ∧ op.agent = .resetSource)) := by
      rw [← mayIssue_iff, hmay]
      decide
    rw [not_or] at hwrong
    exact .inr ⟨hrefused, op, rest, hport, hwrong⟩

/-! ## Illegal words -/

/-- An illegal word from its agent is taken from the port and answered (ERR, 0); the block keeps every register and both histories. -/
theorem step_of_illegal {s : State} {w : Word} {rest : List Operation} {e : IllegalWord} (hport : s.port = ⟨issuer w, w⟩ :: rest)
    (hdecode : decodeFor config w = .error e) : step s = .next { s with port := rest, response := some ⟨.err, 0⟩ } := by
  have hpresent : present s = .word w { s with port := rest } := by rw [present_cons hport, mayIssue_issuer]; rfl
  rw [step_eq_perform hpresent, perform_eq]
  simp only [operateWord, hdecode, illegalWord_fst, illegalWord_snd]

/-- Settles O4: a reserved opcode is in no row, and as it is not that of `TICK` the host is the agent of the word. -/
theorem reservedOpcodeAnswersErr : Obligations.ReservedOpcodeAnswersErr := by
  intro s w rest hport hreserved
  have hagent : issuer w = .host := by
    refine if_neg fun htick => ?_
    have hop := opField_toNat w
    rw [htick, show opcodeTick.toNat = 1 from rfl] at hop
    simp only [← hop] at hreserved
    omega
  rw [← hagent] at hport
  exact step_of_illegal hport (decodeFor_of_reserved (opField_toNat w) hreserved)

/-- Settles O5: a word the decoder accepts is the word of an operation. -/
theorem mustBeZeroBitAnswersErr : Obligations.MustBeZeroBitAnswersErr := by
  intro s w rest hport _ hnone
  cases hdecode : decodeFor config w with
  | error e => exact step_of_illegal hport hdecode
  | ok i =>
    obtain ⟨hword, hfits⟩ := encode_of_decodeFor hdecode
    exact absurd hword (hnone i hfits)

end Sys2Proof.Proofs
end

section
/-! The family 30_encoding.md, the pseudo-operations `ALLOFF` and `MANAGE` (R90, R229, R230). -/

namespace Sys2Proof.Proofs

open Sys2Proof.Machine Sys2Proof.Safety Sys2Proof.Laws

theorem channel?_chanImm {cfg : Config} {c : Nat} (h : c < cfg.nch) : channel? cfg (chanImm c) = some ⟨c, h⟩ := by
  have hn : cfg.nch ≤ 4 := Nat.succ_le_succ cfg.nExt_le
  have hval : (chanImm c).toNat = c := by
    rw [chanImm, BitVec.toNat_ofNat]
    omega
  have hok : ChannelOk cfg (chanImm c) := by rwa [ChannelOk, hval]
  rw [channel?_of_ok hok]
  simp only [hval]

/-! ## ALLOFF -/

/-- A channel with its target and its duty 0. -/
def turnedOff (k : Channel) : Channel := { k with rawTgt := 0, duty := 0 }

/-- The two operations by which `ALLOFF` turns one channel off (R230). -/
def turnOff (c : Nat) : List Instr := [.clrtgt (chanImm c), .setduty (chanImm c) 0]

/-- The block with the channels below `m` off. -/
def offBelow {n : Nat} (m : Nat) (s : Block n) : Block n := s.modAll fun c k => if c.val < m then turnedOff k else k

theorem offBelow_ch {n : Nat} (m : Nat) (s : Block n) (c : Chan n) :
    (offBelow m s).ch c = if c.val < m then turnedOff (s.ch c) else s.ch c := ch_modAll s c _

theorem offBelow_zero {n : Nat} (s : Block n) : offBelow 0 s = s :=
  block_ext (fun c => offBelow_ch 0 s c) rfl rfl rfl rfl rfl rfl rfl rfl rfl rfl rfl rfl rfl

theorem offBelow_succ {n : Nat} (s : Block n) (c : Chan n) : (offBelow c.val s).modCh c turnedOff = offBelow (c.val + 1) s := by
  refine block_ext (fun c' => ?_) rfl rfl rfl rfl rfl rfl rfl rfl rfl rfl rfl rfl rfl
  rw [ch_modCh, offBelow_ch, offBelow_ch, offBelow_ch]
  by_cases h : c' = c
  · simp [h]
  · have hval : c'.val ≠ c.val := fun e => h (Fin.ext e)
    have hlt : c'.val < c.val + 1 ↔ c'.val < c.val := by omega
    simp [h, hlt]

theorem offBelow_all {n : Nat} (s : Block n) : offBelow (n + 1) s = { s with chan := Vector.ofFn fun c => turnedOff (s.ch c) } := by
  refine block_ext (fun c => ?_) rfl rfl rfl rfl rfl rfl rfl rfl rfl rfl rfl rfl rfl
  rw [offBelow_ch, if_pos c.isLt]
  simp

theorem operate_clrtgt {cfg : Config} {c : Nat} (h : c < cfg.nch) (s : Block cfg.nExt) :
    operate cfg (.clrtgt (chanImm c)) s = respondOk 0 (s.modCh ⟨c, h⟩ fun k => { k with rawTgt := 0 }) := by
  simp only [operate, clrtgtOp, channel?_chanImm h]

theorem operate_setduty_zero {cfg : Config} {c : Nat} (h : c < cfg.nch) (s : Block cfg.nExt) :
    operate cfg (.setduty (chanImm c) 0) s = respondOk 0 (s.modCh ⟨c, h⟩ fun k => { k with duty := 0 }) := by
  have hduty : DutyOk cfg 0 := Nat.zero_le _
  simp only [operate, setdutyOp, channel?_chanImm h, duty?_of_ok hduty]

theorem foldl_turnOff {c : Nat} (h : c < config.nch) (s : State) :
    (turnOff c).foldl stateAfter s = { s with toBlock := s.toBlock.modCh ⟨c, h⟩ turnedOff, response := some ⟨.ok, 0⟩ } := by
  simp only [turnOff, List.foldl_cons, List.foldl_nil, stateAfter, operate_clrtgt h, operate_setduty_zero h, respondOk_fst,
    respondOk_snd, modCh_modCh]
  rfl

/-- By induction on the number of channels turned off; the next one is above those. -/
theorem foldl_turnOff_below (s : State) {m : Nat} (h : m < config.nch) :
    ((List.range (m + 1)).map turnOff).flatten.foldl stateAfter s =
      { s with toBlock := offBelow (m + 1) s.toBlock, response := some ⟨.ok, 0⟩ } := by
  induction m with
  | zero =>
    have hfirst := offBelow_succ s.toBlock (⟨0, h⟩ : Chan config.nExt)
    rw [offBelow_zero] at hfirst
    rw [← hfirst]
    exact foldl_turnOff h s
  | succ m ih =>
    rw [List.range_succ, List.map_append, List.flatten_append, List.foldl_append, ih (by omega),
      ← offBelow_succ s.toBlock (⟨m + 1, h⟩ : Chan config.nExt)]
    exact foldl_turnOff h _

/-- Settles O58: channel by channel up to the last, the two operations leave the target and the duty 0. -/
theorem alloffClearsTargetsAndDuties : Obligations.AlloffClearsTargetsAndDuties := by
  intro s
  have hall : (Pseudo.alloff.expand config).foldl stateAfter s =
      { s with toBlock := offBelow (config.nExt + 1) s.toBlock, response := some ⟨.ok, 0⟩ } :=
    foldl_turnOff_below s (Nat.lt_succ_self config.nExt)
  rw [execAll_eq_next, hall, offBelow_all]
  rfl

/-! ## MANAGE -/

/-- Operations that each respond (OK, 0) and leave the block as it is do so in a row. -/
theorem execAll_of_idle {is : List Instr} {s : State} (hne : is ≠ [])
    (h : ∀ i ∈ is, operate config i s.toBlock = respondOk 0 s.toBlock) :
    execAll is s = .next { s with response := some ⟨.ok, 0⟩ } := by
  induction is generalizing s with
  | nil => exact absurd rfl hne
  | cons i is ih =>
    rw [execAll, exec_of_respondOk (h i List.mem_cons_self)]
    cases is with
    | nil => rfl
    | cons i' is' => exact ih (List.cons_ne_nil i' is') fun j hj => h j (List.mem_cons_of_mem i hj)

/-- R131: with no window ready, `DRAIN` does nothing. -/
theorem operate_drain_idle {cfg : Config} {s : Block cfg.nExt} (h : s.ready = false) : operate cfg .drain s = respondOk 0 s :=
  if_neg (Bool.eq_false_iff.mp h)

/-- R268: with nothing pending, `REG` does nothing. -/
theorem operate_reg_idle {cfg : Config} {s : Block cfg.nExt} {c : Nat} (hc : c < cfg.nch) (h : ∀ c, (s.ch c).pend = false) :
    operate cfg (.reg (chanImm c)) s = respondOk 0 s := by
  simp only [operate, regOp, channel?_chanImm hc]
  exact if_neg (Bool.eq_false_iff.mp (h _))

/-- `MANAGE` is `DRAIN` and `REG` of channels of the block (R229). -/
theorem mem_manage {cfg : Config} {i : Instr} (h : i ∈ Pseudo.manage.expand cfg) : i = .drain ∨ ∃ c < cfg.nch, i = .reg (chanImm c) := by
  simp only [Pseudo.expand, List.cons_append, List.mem_cons, List.mem_append, List.mem_map, List.mem_range, List.not_mem_nil,
    or_false] at h
  rcases h with rfl | ⟨k, hk, rfl⟩ | rfl
  · exact .inl rfl
  · exact .inr ⟨k + 1, Nat.succ_lt_succ hk, rfl⟩
  · exact .inr ⟨0, Nat.succ_pos _, rfl⟩

/-- Settles O59: none of its operations finds anything to do. -/
theorem manageWithoutAWindowDoesNothing : Obligations.ManageWithoutAWindowDoesNothing := by
  intro s hready hpend
  refine execAll_of_idle (List.cons_ne_nil _ _) fun i hi => ?_
  rcases mem_manage hi with rfl | ⟨c, hc, rfl⟩
  · exact operate_drain_idle hready
  · exact operate_reg_idle hc hpend

end Sys2Proof.Proofs
end

section
/-! The family 41_sampling_scheduler.md: the three lines of a tick commute (R111), and the tick that ends a window publishes (R117, R118,
R120). -/

namespace Sys2Proof.Proofs

open Sys2Proof.Machine Sys2Proof.Safety Sys2Proof.Laws

/-! ## The end of a window -/

/-- Settles O16: in its last phase the window's last sample belongs to channel 3. -/
theorem lastPhaseOfTheWindowPublishes : Obligations.LastPhaseOfTheWindowPublishes := by
  intro adc s ha hphase hpass
  obtain ⟨hready, hpass', hphase', hch⟩ :=
    tickState_endOfWindow (s := s.toBlock) adc (congrArg BitVec.toNat hphase) (congrArg BitVec.toNat hpass)
  have hrequests := tickState_requests config adc s.toBlock
  rw [hphase, phaseRequests_read rfl, List.append_nil] at hrequests
  have hsum (c : Chan config.nExt) : sampledAcc adc s.toBlock c = if c.val = 3 then (s.ch c).acc + adc else (s.ch c).acc := by
    have hread : phch s.phase = 3 ∧ s.phase.toNat % 2 ≠ 0 := by rw [hphase]; decide
    obtain ⟨hchan, hodd⟩ := hread
    rw [sampledAcc, hchan]
    exact if_congr (and_iff_left hodd) rfl rfl
  refine ⟨_, exec_tick ha s, hready, hpass', hphase', hrequests, fun c => ?_⟩
  obtain ⟨hacc, hcur⟩ := hch c
  rw [hsum] at hcur
  exact ⟨hacc, hcur⟩

/-! ## What the PWM sub-step commutes with -/

/-- A channel update outside the PWM driver: it commutes with both edges and keeps the debounce counter, which `HEAT_EN` reads. -/
structure SparesPwm (f : Channel → Channel) : Prop where
  deb : ∀ k, (f k).deb = k.deb
  leadingEdge : ∀ en k, (f k).leadingEdge en = f (k.leadingEdge en)
  trailingEdge : ∀ cnt k, (f k).trailingEdge cnt = f (k.trailingEdge cnt)

/-- The registers the sampling machine writes of a channel, computed from its accumulator, are none of the PWM driver's. -/
theorem sparesPwm_sampling (cur : BitVec 16 → Raw → Raw) (acc : BitVec 16 → BitVec 16) :
    SparesPwm fun k => { k with rawCur := cur k.acc k.rawCur, acc := acc k.acc } where
  deb _ := rfl
  leadingEdge en k := by simp only [leadingEdge_eq]
  trailingEdge cnt k := by simp only [trailingEdge_eq]

theorem modCh_eq_modAll {n : Nat} (s : Block n) (c : Chan n) (f : Channel → Channel) :
    s.modCh c f = s.modAll fun c' => if c' = c then f else id := by
  refine block_ext (fun c' => ?_) rfl rfl rfl rfl rfl rfl rfl rfl rfl rfl rfl rfl rfl
  rw [ch_modCh, ch_modAll]
  split
  · rename_i h
    rw [h]
  · rfl

theorem modAll_modAll {n : Nat} (s : Block n) (f g : Chan n → Channel → Channel) :
    (s.modAll f).modAll g = s.modAll fun c k => g c (f c k) := by
  simp [Block.modAll, Block.ch]

theorem advancePwm_modAll {n : Nat} (s : Block n) (f : Chan n → Channel → Channel) :
    s.advancePwm.modAll f = (s.modAll f).advancePwm := rfl

theorem pwmStep_modAll {n : Nat} (s : Block n) {f : Chan n → Channel → Channel} (hf : ∀ c, SparesPwm (f c)) :
    pwmStep (s.modAll f) = (pwmStep s).modAll f := by
  have hen : (s.modAll f).heatEn = s.heatEn := heatEn_congr rfl fun c => by rw [ch_modAll, (hf c).deb]
  unfold pwmStep
  simp only [modAll_pwmCnt, hen, advancePwm_modAll]
  split
  · simp only [modAll_modAll, (hf _).leadingEdge]
  · simp only [modAll_modAll, (hf _).trailingEdge]

theorem pwmStep_modCh {n : Nat} (s : Block n) (c : Chan n) {f : Channel → Channel} (hf : SparesPwm f) :
    pwmStep (s.modCh c f) = (pwmStep s).modCh c f := by
  rw [modCh_eq_modAll, modCh_eq_modAll]
  refine pwmStep_modAll s fun c' => ?_
  split
  · exact hf
  · exact ⟨fun _ => rfl, fun _ _ => rfl, fun _ _ => rfl⟩

/-! ## The block registers of the two other lines: the PWM sub-step reads none of them -/

theorem pwmStep_emitAdcReq {n : Nat} (s : Block n) (a : BitVec 4) : pwmStep (s.emitAdcReq a) = (pwmStep s).emitAdcReq a := by
  rw [pwmStep_eq, pwmStep_eq]
  rfl

theorem pwmStep_with_phase_pass {n : Nat} (s : Block n) (p : BitVec 3) (q : BitVec 5) :
    pwmStep { s with phase := p, pass := q } = { pwmStep s with phase := p, pass := q } := by
  rw [pwmStep_eq, pwmStep_eq]
  rfl

theorem pwmStep_with_pass_ready {n : Nat} (s : Block n) (q : BitVec 5) (r : Bool) :
    pwmStep { s with pass := q, ready := r } = { pwmStep s with pass := q, ready := r } := by
  rw [pwmStep_eq, pwmStep_eq]
  rfl

theorem pwmStep_countTick {n : Nat} (s : Block n) : pwmStep (countTick s) = countTick (pwmStep s) := by
  rw [pwmStep_eq, pwmStep_eq]
  rfl

/-! ## The PWM sub-step and the sampling sub-step -/

/-- The action of the phase requests a conversion or writes an accumulator (R113, R114). -/
theorem pwmStep_samplePhase (cfg : Config) (adc : BitVec 16) (s : Block cfg.nExt) :
    pwmStep (samplePhase cfg adc s) = samplePhase cfg adc (pwmStep s) := by
  unfold samplePhase
  simp only [pwmStep_phase]
  split
  · split
    · exact pwmStep_emitAdcReq s _
    · exact pwmStep_modCh s _ (sparesPwm_sampling (fun _ r => r) (· + adc))
  · rfl

theorem publish_eq (cfg : Config) (s : Block cfg.nExt) :
    publish cfg s = { s.modAll fun c k => { k with rawCur := finalReading cfg c k.acc, acc := 0 } with pass := 0, ready := true } := by
  unfold publish
  simp only [modAll_modAll]

/-- Publication writes the readings and the accumulators, and of the block the pass counter and the ready flag (R117). -/
theorem pwmStep_publish (cfg : Config) (s : Block cfg.nExt) : pwmStep (publish cfg s) = publish cfg (pwmStep s) := by
  rw [publish_eq, publish_eq, pwmStep_with_pass_ready,
    pwmStep_modAll s fun c => sparesPwm_sampling (fun a _ => finalReading cfg c a) fun _ => 0]

theorem pwmStep_advancePhase (cfg : Config) (s : Block cfg.nExt) : pwmStep (advancePhase cfg s) = advancePhase cfg (pwmStep s) := by
  unfold advancePhase
  simp only [pwmStep_phase, pwmStep_pass]
  split
  · split
    · rw [pwmStep_publish, pwmStep_with_phase_pass]
    · rw [pwmStep_with_phase_pass]
  · exact pwmStep_with_phase_pass s (s.phase + 1) s.pass

theorem pwmStep_sampleStep (cfg : Config) (adc : BitVec 16) (s : Block cfg.nExt) :
    pwmStep (sampleStep cfg adc s) = sampleStep cfg adc (pwmStep s) := by
  rw [sampleStep, sampleStep, pwmStep_advancePhase, pwmStep_samplePhase]

/-! ## The tick counter and the sampling sub-step, which never touches it -/

theorem countTick_samplePhase (cfg : Config) (adc : BitVec 16) (s : Block cfg.nExt) :
    countTick (samplePhase cfg adc s) = samplePhase cfg adc (countTick s) := by
  unfold samplePhase
  simp only [apply_dite countTick, apply_ite countTick]
  rfl

theorem countTick_advancePhase (cfg : Config) (s : Block cfg.nExt) : countTick (advancePhase cfg s) = advancePhase cfg (countTick s) := by
  unfold advancePhase
  simp only [apply_ite countTick]
  rfl

theorem countTick_sampleStep (cfg : Config) (adc : BitVec 16) (s : Block cfg.nExt) :
    countTick (sampleStep cfg adc s) = sampleStep cfg adc (countTick s) := by
  rw [sampleStep, sampleStep, countTick_advancePhase, countTick_samplePhase]

/-- Settles O13: no line of a tick reads a register another one writes. -/
theorem tickSubstepsCommute : Obligations.TickSubstepsCommute := fun cfg adc s =>
  ⟨(pwmStep_sampleStep cfg adc s).symm, (pwmStep_countTick s).symm, countTick_sampleStep cfg adc s⟩

end Sys2Proof.Proofs
end

section
/-! The family 42_pid_regulator.md, the two regulators: outside the band the PID is bypassed (R139, R140), inside it computes exactly and
nothing overflows (R138, R143 to R147), saturation leaves no windup (R141), and bang-bang compares raw values (R148). -/

namespace Sys2Proof.Proofs

open Sys2Proof.Machine Sys2Proof.Safety Sys2Proof.Laws

/-! ## Outside the band -/

theorem pid_ch {n : Nat} (cfg : Config) (c : Chan n) (sp t : Temp) (s : Block n) :
    (pid cfg c sp t s).1.ch c = (pidChannel cfg s sp t (s.ch c)).1 := ch_modCh_same s c _

theorem pid_duty {n : Nat} (cfg : Config) (c : Chan n) (sp t : Temp) (s : Block n) :
    (pid cfg c sp t s).2 = (pidChannel cfg s sp t (s.ch c)).2 := rfl

/-- Settles O33: the two saturated branches write the reset flag only, and the band between them clears it. -/
theorem pidIsBypassedOutsideTheBand : Obligations.PidIsBypassedOutsideTheBand := by
  intro cfg c sp t s
  refine ⟨fun h => ?_, fun h => ?_, fun h1 h2 => ?_⟩
  · simp only [pid, pidChannel_high _ h]
    rfl
  · simp only [pid, pidChannel_low _ h]
    rfl
  · rw [pid_ch, pidChannel_inBand _ h1 h2]

/-! ## In the band -/

/-- A clamp between limits in order is a minimum and a maximum (R6). -/
theorem clamp_eq_max_min {v lo hi : Int} (h : lo ≤ hi) : clamp v lo hi = max lo (min hi v) := by
  unfold clamp
  split
  · omega
  · split <;> omega

/-- R152: for a divisor that is not negative, `floor_div` is the quotient rounded towards minus infinity. -/
theorem floorDiv_eq_fdiv (a : Int) {b : Int} (h : 0 ≤ b) : floorDiv a b = Int.fdiv a b := (Int.fdiv_eq_ediv_of_nonneg a h).symm

theorem imax_eq {n : Nat} (s : Block n) :
    imax s = if s.ki = 0 then 2 ^ 31 - 1 else min (2 ^ 31 - 1) (Int.fdiv ((s.kimax.toNat : Int) * 16) s.ki.toNat) := by
  have hzero : s.ki.toNat = 0 ↔ s.ki = 0 := by rw [← BitVec.toNat_inj]; rfl
  unfold imax
  rw [floorDiv_eq_fdiv _ (Int.natCast_nonneg _)]
  exact if_congr hzero rfl rfl

theorem integralSum_eq {n : Nat} (cfg : Config) (s : Block n) (e : Int) (k : Channel) :
    integralSum cfg (imax s) e k = max cfg.iMin (min (imax s) ((if k.pidrst then 0 else k.isum.toInt) + e)) :=
  clamp_eq_max_min (cfg.iMin_le.trans (imax_range s).1)

theorem derivativeTerm_eq (cfg : Config) (kd : GainWord) (t : Int) (k : Channel) :
    derivativeTerm cfg kd t k =
      Int.fdiv ((256 - (cfg.k1 : Int)) * ((kd.toNat : Int) * (t - k.tprev.toInt)) + (cfg.k1 : Int) * k.dterm.toInt) 256 := by
  have hk : (cfg.k2 : Int) = 256 - cfg.k1 := by
    have := cfg.k1_add_k2
    omega
  rw [← hk]
  exact floorDiv_eq_fdiv _ (by decide)

/-- The register holds the clamped integral (R22). -/
theorem isum_toInt_ofInt {n : Nat} (cfg : Config) (s : Block n) (e : Int) (k : Channel) :
    (BitVec.ofInt 32 (integralSum cfg (imax s) e k)).toInt = integralSum cfg (imax s) e k := by
  obtain ⟨hlo, hhi⟩ := integralSum_range cfg s e k
  exact toInt_ofInt_of_mem (by decide) (cfg.le_iMin.trans hlo) (Int.lt_of_le_of_lt hhi (by decide))

/-- The register holds the filtered derivative, an average with weights K1 + K2 = 256 of what it held and of a number that fits it, whatever
it held (R23, R145). -/
theorem dterm_toInt_ofInt (cfg : Config) (kd : GainWord) (t : Temp) (k : Channel) :
    (BitVec.ofInt 40 (derivativeTerm cfg kd t.toInt k)).toInt = derivativeTerm cfg kd t.toInt k := by
  obtain ⟨hx1, hx2⟩ := gain_mul_diff_range kd t k.tprev
  have hd1 : -(2 ^ 39 : Int) ≤ k.dterm.toInt := BitVec.le_toInt k.dterm
  have hd2 : k.dterm.toInt ≤ 2 ^ 39 - 1 := Int.le_sub_one_of_lt BitVec.toInt_lt
  have hk : (cfg.k1 : Int) + (cfg.k2 : Int) = 256 := by exact_mod_cast cfg.k1_add_k2
  have hx1 : -(2 ^ 39 : Int) ≤ _ := (by decide : -(2 ^ 39 : Int) ≤ -dtermMax).trans hx1
  have hx2 : _ ≤ (2 ^ 39 - 1 : Int) := hx2.trans (by decide)
  have hmem : -(2 ^ 39 : Int) ≤ derivativeTerm cfg kd t.toInt k ∧ derivativeTerm cfg kd t.toInt k ≤ 2 ^ 39 - 1 := by
    unfold derivativeTerm
    refine floorDiv_mem (by decide) ?_ ?_ <;> rw [← hk]
    · nlinarith only [hx1, hd1, Int.natCast_nonneg cfg.k1, Int.natCast_nonneg cfg.k2]
    · nlinarith only [hx2, hd2, Int.natCast_nonneg cfg.k1, Int.natCast_nonneg cfg.k2]
  exact toInt_ofInt_of_mem (by decide) hmem.1 (Int.lt_of_le_sub_one hmem.2)

theorem pidOutput_eq (cfg : Config) (p i dt : Int) :
    ((pidOutput cfg p i dt).toNat : Int) = max 0 (min (cfg.maxDuty : Int) (Int.fdiv (p + i - dt) 4096)) := by
  rw [pidOutput_toNat, clamp_eq_max_min (Int.natCast_nonneg _), floorDiv_eq_fdiv _ (by decide)]

/-- Settles O34: the clamps and the smoothing keep each value within its register. -/
theorem pidInBandIsExact : Obligations.PidInBandIsExact := by
  intro cfg c sp t s e he h1 h2
  subst he
  have hk := (pid_ch cfg c sp t s).trans (congrArg Prod.fst (pidChannel_inBand (s.ch c) h1 h2))
  have hd := (pid_duty cfg c sp t s).trans <| congrArg Prod.snd (pidChannel_inBand (s.ch c) h1 h2)
  dsimp only
  rw [hk, hd, ← imax_eq, ← integralSum_eq, ← derivativeTerm_eq]
  exact ⟨isum_toInt_ofInt .., dterm_toInt_ofInt .., rfl, rfl, pidOutput_eq .., rfl, fun c' hc => ch_modCh_ne s _ hc⟩

/-! ## Saturation -/

/-- A call outside the band sets the reset flag. -/
theorem pid_pidrst_of_saturated {n : Nat} {cfg : Config} {c : Chan n} {sp t : Temp} {s : Block n}
    (h : (cfg.band : Int) < sp.toInt - t.toInt ∨ sp.toInt - t.toInt < -(cfg.band : Int)) :
    ((pid cfg c sp t s).1.ch c).pidrst = true := by
  rw [pid_ch]
  rcases h with h | h
  · rw [pidChannel_high _ h]
  · rw [pidChannel_low _ h]

/-- A run of PID calls of one channel, with their setpoints and temperatures. -/
def pidRun {n : Nat} (cfg : Config) (c : Chan n) (calls : List (Temp × Temp)) (s : Block n) : Block n :=
  calls.foldl (fun s p => (pid cfg c p.1 p.2 s).1) s

/-- No call moves a gain, so the upper clamp of the integral stands. -/
theorem imax_pidRun {n : Nat} (cfg : Config) (c : Chan n) (calls : List (Temp × Temp)) (s : Block n) :
    imax (pidRun cfg c calls s) = imax s := by
  induction calls generalizing s with
  | nil => rfl
  | cons p calls ih => exact ih (pid cfg c p.1 p.2 s).1

/-- After a run of saturated calls the reset flag is set: by the last of them, or, if there was none, from before. -/
theorem pidRun_pidrst_of_saturated {n : Nat} {cfg : Config} {c : Chan n} {calls : List (Temp × Temp)} {s : Block n}
    (hset : calls ≠ [] ∨ (s.ch c).pidrst = true)
    (hsat : ∀ p ∈ calls, (cfg.band : Int) < p.1.toInt - p.2.toInt ∨ p.1.toInt - p.2.toInt < -(cfg.band : Int)) :
    ((pidRun cfg c calls s).ch c).pidrst = true := by
  induction calls generalizing s with
  | nil => exact hset.resolve_left fun h => h rfl
  | cons p calls ih =>
    exact ih (.inr (pid_pidrst_of_saturated (hsat p List.mem_cons_self))) fun q hq => hsat q (List.mem_cons_of_mem p hq)

/-- Settles O35: the in-band call finds the reset flag set, so its integral is the error alone, clamped. -/
theorem saturationLeavesNoWindup : Obligations.SaturationLeavesNoWindup := by
  intro cfg c bad sp t s e hset hsat he h1 h2
  subst he
  have hflag := pidRun_pidrst_of_saturated hset hsat
  show let k := (pid cfg c sp t (pidRun cfg c bad s)).1.ch c
    k.isum.toInt = max cfg.iMin (min (imax s) (sp.toInt - t.toInt)) ∧ k.pidrst = false
  dsimp only
  rw [pid_ch, pidChannel_inBand _ h1 h2]
  refine ⟨?_, rfl⟩
  rw [isum_toInt_ofInt, integralSum_eq, hflag, if_pos rfl, Int.zero_add, imax_pidRun]

/-! ## The registers the PID does not know -/

/-- The PID reads and writes its own four registers only: a write of others goes before or after it. -/
theorem pidChannel_map {n : Nat} (cfg : Config) (s : Block n) (sp t : Temp) {g : Channel → Channel}
    (hg : ∀ k i d p b, g { k with isum := i, dterm := d, tprev := p, pidrst := b } =
      { g k with isum := i, dterm := d, tprev := p, pidrst := b }) (k : Channel) :
    pidChannel cfg s sp t (g k) = (g (pidChannel cfg s sp t k).1, (pidChannel cfg s sp t k).2) := by
  have hown : g k = { g k with isum := k.isum, dterm := k.dterm, tprev := k.tprev, pidrst := k.pidrst } :=
    hg k k.isum k.dterm k.tprev k.pidrst
  by_cases hhigh : (cfg.band : Int) < sp.toInt - t.toInt
  · rw [pidChannel_high (g k) hhigh, pidChannel_high k hhigh, hown]
    exact Prod.ext (hg k _ _ _ _).symm rfl
  · by_cases hlow : sp.toInt - t.toInt < -(cfg.band : Int)
    · rw [pidChannel_low (g k) hlow, pidChannel_low k hlow, hown]
      exact Prod.ext (hg k _ _ _ _).symm rfl
    · rw [pidChannel_inBand (g k) (Int.not_lt.mp hlow) (Int.not_lt.mp hhigh),
        pidChannel_inBand k (Int.not_lt.mp hlow) (Int.not_lt.mp hhigh), hown]
      exact Prod.ext (hg k _ _ _ _).symm rfl

/-! ## Bang-bang -/

theorem bangbang_eq {n : Nat} (cfg : Config) (c : Chan n) (r : Raw) (s : Block n) :
    bangbang cfg c r s = if r.toNat < (s.ch c).rawTgt.toNat then BitVec.ofNat 8 cfg.maxDuty else 0 := rfl

/-- Settles O36: no raw value is below 0, and the regulator of a bang-bang channel returns the block it is called on. -/
theorem bangbangComparesRawValues : Obligations.BangbangComparesRawValues := by
  intro cfg c sp t r s
  refine ⟨bangbang_eq cfg c r s, fun h => ?_, fun hm => ?_⟩
  · rw [bangbang_eq, h]
    exact if_neg (Nat.not_lt_zero _)
  · simp only [regulator, hm]

end Sys2Proof.Proofs
end

section
/-! The family 42_pid_regulator.md, `DRAIN` and the frame of `REG`: the window is taken whole (R131), `REG` with nothing pending does
nothing (R133, R268), else it stores one duty and keeps all registers but its own (R133, R137, R151), and it never reads the current
reading (R134). -/

namespace Sys2Proof.Proofs

open Sys2Proof.Machine Sys2Proof.Safety Sys2Proof.Laws

/-! ## DRAIN -/

theorem operate_drain_ready {cfg : Config} {s : Block cfg.nExt} (h : s.ready = true) :
    operate cfg .drain s = respondOk 1 (takeWindow s) := if_pos h

/-- Settles O29: the two branches of the rule, and the word by evaluation. -/
theorem drainTakesTheWholeWindow : Obligations.DrainTakesTheWholeWindow :=
  ⟨by decide, fun _ => ⟨fun h => exec_of_respondOk (operate_drain_ready h), fun h => exec_of_respondOk (operate_drain_idle h)⟩⟩

/-! ## REG of a channel in range -/

theorem exec_reg {c : BitVec 4} {s : State} (h : ChannelOk config c) (hp : (s.ch ⟨c.toNat, h⟩).pend = true) :
    exec (.reg c) s = .next { s with
      toBlock := (regulate config ⟨c.toNat, h⟩ s.toBlock).1
      response := some ⟨.ok, BitVec.ofNat 32 (256 + (regulate config ⟨c.toNat, h⟩ s.toBlock).2.toNat)⟩ } := by
  refine exec_of_respondOk ?_
  simp only [operate, regOp, channel?_of_ok h]
  exact if_pos hp

/-- Settles O30: the rule responds 0 with the block as it is. -/
theorem regWithoutAWindowDoesNothing : Obligations.RegWithoutAWindowDoesNothing := by
  intro c s h hp
  refine exec_of_respondOk ?_
  simp only [operate, regOp, channel?_of_ok h]
  exact if_neg (Bool.eq_false_iff.mp hp)

/-- Channel 0 is the bed (R61). -/
theorem chan_eq_bed_iff {n : Nat} {c : BitVec 4} (h : c.toNat < n + 1) : (⟨c.toNat, h⟩ : Chan n) = bed ↔ c = 0 := by
  rw [← BitVec.toNat_inj]
  exact Fin.ext_iff

/-! ## The frame of REG -/

theorem regulate_pend (cfg : Config) (c : Chan cfg.nExt) (s : Block cfg.nExt) : ((regulate cfg c s).1.ch c).pend = false := by
  rw [regulate_eq]
  simp only [ch_modCh_same]
  rw [safetyState_ch, regulator_ch]
  cases cfg.mode c with
  | pid =>
    dsimp only
    rw [pidChannel_frame, beginRegulation_ch]
  | bangbang =>
    dsimp only
    rw [beginRegulation_ch]

theorem regulate_duty_le (cfg : Config) (c : Chan cfg.nExt) (s : Block cfg.nExt) : (regulate cfg c s).2.toNat ≤ cfg.maxDuty :=
  safetyDuty_le (regulator_duty_le ..)

/-- `REG` writes of the block's own registers and the histories BED_LAST and the notifications at most. -/
theorem regulate_frame (cfg : Config) (c : Chan cfg.nExt) (s : Block cfg.nExt) :
    (regulate cfg c s).1 = { s with
      chan := (regulate cfg c s).1.chan, bedLast := (regulate cfg c s).1.bedLast, notify := (regulate cfg c s).1.notify } :=
  block_ext (fun _ => rfl) (regulate_phase ..) (regulate_pass ..) (regulate_ready ..) (regulate_pwmCnt ..) (regulate_ticks ..) rfl
    (regulate_kp ..) (regulate_ki ..) (regulate_kd ..) (regulate_kimax ..) (regulate_stopped ..) (regulate_adcreq ..) rfl

/-- The Safety Monitor's part for an extruder is the range debounce alone (R161). -/
theorem safetyState_extruder {cfg : Config} {c : Chan cfg.nExt} (hc : c ≠ bed) (r : Raw) (t : Temp) (s : Block cfg.nExt) :
    safetyState cfg c r t s = debounce c ((s.ch c).over r) ((s.ch c).under r) s := if_neg hc

/-- Only the bed's check records its time (R168). -/
theorem regulate_bedLast_of_extruder {cfg : Config} {c : Chan cfg.nExt} (hc : c ≠ bed) (s : Block cfg.nExt) :
    (regulate cfg c s).1.bedLast = s.bedLast := by
  rw [regulate_eq]
  simp only [modCh_bedLast, safetyState_extruder hc, debounce_bedLast, regulator_bedLast, beginRegulation_bedLast]

/-- Settles O31: the frame laws of `REG`, one clause each. -/
theorem regStoresOneDuty : Obligations.RegStoresOneDuty := by
  intro c s h hp
  have hpend := regulate_pend config ⟨c.toNat, h⟩ s.toBlock
  have hduty := regulate_duty config ⟨c.toNat, h⟩ s.toBlock
  refine ⟨_, exec_reg h hp, ⟨hpend, ?_, ?_, ?_⟩, fun c' hc' => regulate_ch_ne config s.toBlock hc', ?_, fun hc => ?_⟩
  · dsimp only
    rw [hduty]
    exact regulate_duty_le ..
  · dsimp only
    rw [hduty]
  · obtain ⟨_, _, _, _, _, _, _, _, hk⟩ := regulate_ch config ⟨c.toNat, h⟩ s.toBlock
    dsimp only
    rw [hk] at hpend ⊢
    subst hpend
    rfl
  · exact congrArg (fun b => ({ toBlock := b, port := s.port, response := _ } : State)) (regulate_frame ..)
  · exact regulate_bedLast_of_extruder (mt (chan_eq_bed_iff h).mp hc) s.toBlock

/-! ## The current readings -/

/-- The block with other current readings, as a later window may have published them. -/
def withReadings {n : Nat} (f : Chan n → Raw) (s : Block n) : Block n := s.modAll fun c k => { k with rawCur := f c }

theorem withReadings_ch {n : Nat} (f : Chan n → Raw) (s : Block n) (c : Chan n) :
    (withReadings f s).ch c = { s.ch c with rawCur := f c } := ch_modAll ..

/-- A write of one channel that neither reads nor writes the current reading goes before or after the new readings. -/
theorem withReadings_modCh {n : Nat} (f : Chan n → Raw) (s : Block n) (c : Chan n) {g : Channel → Channel}
    (hg : ∀ k v, g { k with rawCur := v } = { g k with rawCur := v }) :
    (withReadings f s).modCh c g = withReadings f (s.modCh c g) := by
  refine block_ext (fun c' => ?_) rfl rfl rfl rfl rfl rfl rfl rfl rfl rfl rfl rfl rfl
  rw [ch_modCh, withReadings_ch, withReadings_ch, withReadings_ch, ch_modCh]
  split
  · rename_i hc
    subst hc
    exact hg ..
  · rfl

theorem latch_withReadings {n : Nat} (f : Chan n → Raw) (c : Chan n) (sen : BitVec 8) (cause : Cause) (sub : BitVec 4) (s : Block n) :
    latch c sen cause sub (withReadings f s) = withReadings f (latch c sen cause sub s) := by
  rw [latch_eq, latch_eq, withReadings_modCh f s c fun _ _ => rfl]
  rfl

theorem debounce_withReadings {n : Nat} (f : Chan n → Raw) (c : Chan n) (hi lo : Bool) (s : Block n) :
    debounce c hi lo (withReadings f s) = withReadings f (debounce c hi lo s) := by
  have hl : ((withReadings f s).ch c).latched = (s.ch c).latched := by rw [withReadings_ch]; rfl
  have hd : ((withReadings f s).ch c).deb = (s.ch c).deb := by rw [withReadings_ch]
  unfold debounce
  simp only [hl, hd, latchRange, latch_withReadings, apply_ite (withReadings f)]
  rw [withReadings_modCh f s c fun _ _ => rfl, withReadings_modCh f s c fun _ _ => rfl]

theorem bedAbsCheck_withReadings {cfg : Config} (f : Chan cfg.nExt → Raw) (t : Temp) (s : Block cfg.nExt) :
    bedAbsCheck cfg t (withReadings f s) = withReadings f (bedAbsCheck cfg t s) := by
  have hl : ((withReadings f s).ch bed).latched = (s.ch bed).latched := by rw [withReadings_ch]; rfl
  simp only [bedAbsCheck, hl, latch_withReadings, apply_ite (withReadings f)]

theorem bedGatedDebounce_withReadings {cfg : Config} (f : Chan cfg.nExt → Raw) (hi lo : Bool) (s : Block cfg.nExt) :
    bedGatedDebounce cfg hi lo (withReadings f s) = withReadings f (bedGatedDebounce cfg hi lo s) := by
  simp only [bedGatedDebounce, apply_ite (withReadings f), ← debounce_withReadings]
  rfl

theorem safetyState_withReadings {cfg : Config} (f : Chan cfg.nExt → Raw) (c : Chan cfg.nExt) (r : Raw) (t : Temp) (s : Block cfg.nExt) :
    safetyState cfg c r t (withReadings f s) = withReadings f (safetyState cfg c r t s) := by
  have hover : ((withReadings f s).ch c).over r = (s.ch c).over r := by rw [withReadings_ch]; rfl
  have hunder : ((withReadings f s).ch c).under r = (s.ch c).under r := by rw [withReadings_ch]; rfl
  simp only [safetyState, hover, hunder, bedAbsCheck_withReadings, bedGatedDebounce_withReadings, debounce_withReadings,
    apply_ite (withReadings f)]

theorem safetyDuty_withReadings {cfg : Config} (f : Chan cfg.nExt → Raw) (c : Chan cfg.nExt) (r : Raw) (t : Temp) (d : Duty)
    (s : Block cfg.nExt) : safetyDuty cfg c r t d (withReadings f s) = safetyDuty cfg c r t d s := by
  unfold safetyDuty
  rw [withReadings_ch]
  rfl

theorem beginRegulation_withReadings {n : Nat} (f : Chan n → Raw) (c : Chan n) (s : Block n) :
    beginRegulation c (withReadings f s) = withReadings f (beginRegulation c s) := by
  have hl (s : Block n) : ((withReadings f s).ch c).latched = (s.ch c).latched := by rw [withReadings_ch]; rfl
  unfold beginRegulation holdLatchedTarget
  rw [withReadings_modCh f s c fun _ _ => rfl, withReadings_modCh f _ c fun _ _ => rfl, hl, apply_ite (withReadings f)]

/-- The PID keeps the current reading and computes without it. -/
theorem pidChannel_with_rawCur {n : Nat} (cfg : Config) (s : Block n) (sp t : Temp) (k : Channel) (v : Raw) :
    pidChannel cfg s sp t { k with rawCur := v } =
      ({ (pidChannel cfg s sp t k).1 with rawCur := v }, (pidChannel cfg s sp t k).2) :=
  pidChannel_map cfg s sp t (g := fun k => { k with rawCur := v }) (fun _ _ _ _ _ => rfl) k

theorem regulator_withReadings {cfg : Config} (f : Chan cfg.nExt → Raw) (c : Chan cfg.nExt) (sp t : Temp) (r : Raw) (s : Block cfg.nExt) :
    regulator cfg c sp t r (withReadings f s) =
      (withReadings f (regulator cfg c sp t r s).1, (regulator cfg c sp t r s).2) := by
  have hpid (k : Channel) : pidChannel cfg (withReadings f s) sp t k = pidChannel cfg s sp t k := rfl
  cases hm : cfg.mode c with
  | pid =>
    simp only [regulator, hm, pid, hpid, withReadings_ch, pidChannel_with_rawCur]
    rw [withReadings_modCh f s c fun k v => congrArg Prod.fst (pidChannel_with_rawCur cfg s sp t k v)]
  | bangbang =>
    simp only [regulator, hm, bangbang_eq, withReadings_ch]

/-- The drained copy and the current reading are different registers, and every part of `REG` reads the first only (R134). -/
theorem regulate_withReadings {cfg : Config} (f : Chan cfg.nExt → Raw) (c : Chan cfg.nExt) (s : Block cfg.nExt) :
    regulate cfg c (withReadings f s) = (withReadings f (regulate cfg c s).1, (regulate cfg c s).2) := by
  have ht : measuredTemp cfg c (withReadings f s) = measuredTemp cfg c s := by rw [measuredTemp, withReadings_ch, measuredTemp]
  have hsp (s : Block cfg.nExt) : setpoint cfg c (withReadings f s) = setpoint cfg c s := by rw [setpoint, withReadings_ch, setpoint]
  have hsnap : ((withReadings f s).ch c).snap = (s.ch c).snap := by rw [withReadings_ch]
  rw [regulate_eq, regulate_eq]
  simp only [hsnap, ht, beginRegulation_withReadings, hsp, regulator_withReadings, safetyDuty_withReadings, safetyState_withReadings]
  rw [withReadings_modCh f _ c fun _ _ => rfl]

theorem regOp_withReadings {cfg : Config} (f : Chan cfg.nExt → Raw) (c : BitVec 4) (s : Block cfg.nExt) :
    regOp cfg c (withReadings f s) = (withReadings f (regOp cfg c s).1, (regOp cfg c s).2) := by
  unfold regOp
  split
  · rfl
  · rename_i c' _
    have hp : ((withReadings f s).ch c').pend = (s.ch c').pend := by rw [withReadings_ch]
    unfold regChannel
    rw [hp, regulate_withReadings]
    split <;> rfl

/-- Settles O37: `REG` and the new readings commute. -/
theorem regIgnoresCurrentReadings : Obligations.RegIgnoresCurrentReadings := by
  intro c s t f h
  have hreg : operate config (.reg c) (withReadings f s.toBlock) = _ := regOp_withReadings f c s.toBlock
  rw [exec_next h, exec_eq_next]
  refine congrArg Host.Outcome.next ?_
  show ({ toBlock := (operate config (.reg c) (withReadings f s.toBlock)).1, port := s.port,
          response := some (operate config (.reg c) (withReadings f s.toBlock)).2 } : State) = _
  rw [hreg]
  rfl

end Sys2Proof.Proofs
end

section
/-! The family 42_pid_regulator.md, the Safety Monitor as `REG` calls it, by what it finds: a latched channel (R168, R170), an extruder in
range (R164), the debounce of a channel that is not latched (R164, R165, R172), and the bed between two gated checks and at one (R167 to
R169). -/

namespace Sys2Proof.Proofs

open Sys2Proof.Machine Sys2Proof.Safety Sys2Proof.Laws

/-! ## The Safety Monitor, by what it finds -/

/-- A latched channel stays as it is (R170); of the rest only the time of the bed's check is recorded, at its open gate (R168). -/
theorem safetyState_of_latched {cfg : Config} {c : Chan cfg.nExt} {s : Block cfg.nExt} (r : Raw) (t : Temp)
    (hl : (s.ch c).latched = true) :
    safetyState cfg c r t s =
      { s with bedLast := if c = bed ∧ cfg.bedInterval ≤ (s.ticks - s.bedLast).toNat then s.ticks else s.bedLast } := by
  by_cases hc : c = bed
  · subst hc
    have habs : bedAbsCheck cfg t s = s := by simp [bedAbsCheck, hl]
    have hdeb : debounce bed ((s.ch bed).over r) ((s.ch bed).under r) { s with bedLast := s.ticks } = { s with bedLast := s.ticks } :=
      debounce_latched _ _ hl
    simp only [safetyState, habs, bedGatedDebounce, hdeb, bedGateOpen, decide_eq_true_eq, true_and, if_true]
    split <;> rfl
  · rw [safetyState_extruder hc, debounce_latched _ _ hl, if_neg fun h => hc h.1]

theorem over_eq_false {k : Channel} {r : Raw} (h : r.toNat < k.rawMax.toNat) : k.over r = false :=
  Bool.eq_false_iff.mpr (mt (over_iff k r).mp (Nat.not_le.mpr h))

theorem under_eq_false {k : Channel} {r : Raw} (h : k.rawMin.toNat ≤ r.toNat) : k.under r = false :=
  Bool.eq_false_iff.mpr (mt (under_iff k r).mp (Nat.not_lt.mpr h))

/-- A reading in range clears the count of an extruder that is not latched (R164). -/
theorem safetyState_extruder_inRange {cfg : Config} {c : Chan cfg.nExt} {s : Block cfg.nExt} {r : Raw} (t : Temp) (hc : c ≠ bed)
    (hl : (s.ch c).latched = false) (hmin : (s.ch c).rawMin.toNat ≤ r.toNat) (hmax : r.toNat < (s.ch c).rawMax.toNat) :
    safetyState cfg c r t s = s.modCh c fun k => { k with deb := 0 } := by
  rw [safetyState_extruder hc, over_eq_false hmax, under_eq_false hmin, debounce_inRange hl]

/-- A bed that is not latched is latched above its absolute maximum, whatever the gate (R169). -/
theorem bedAbsCheck_of_unlatched {cfg : Config} {s : Block cfg.nExt} (t : Temp) (hl : (s.ch bed).latched = false) :
    bedAbsCheck cfg t s = if cfg.bedAbsMax.toInt < t.toInt then latch bed sentinelOver .bedTemp 3 s else s := by
  simp [bedAbsCheck, bedTooHot, hl]

theorem safetyState_bed (cfg : Config) (r : Raw) (t : Temp) (s : Block cfg.nExt) :
    safetyState cfg bed r t s = bedGatedDebounce cfg ((s.ch bed).over r) ((s.ch bed).under r) (bedAbsCheck cfg t s) := by
  rw [safetyState, if_pos rfl]

/-- Between two gated checks the bed's only check is its absolute maximum (R168). -/
theorem safetyState_bed_of_closed {cfg : Config} {s : Block cfg.nExt} (r : Raw) (t : Temp)
    (hg : (s.ticks - s.bedLast).toNat < cfg.bedInterval) : safetyState cfg bed r t s = bedAbsCheck cfg t s := by
  have hclosed : ¬ bedGateOpen cfg (bedAbsCheck cfg t s) = true := by
    rw [bedGateOpen, bedAbsCheck_ticks, bedAbsCheck_bedLast, decide_eq_true_eq]
    exact Nat.not_le.mpr hg
  rw [safetyState_bed, bedGatedDebounce, if_neg hclosed]

/-- At a gated check the bed's range debounce follows its absolute maximum (R167, R168). -/
theorem safetyState_bed_of_open {cfg : Config} {s : Block cfg.nExt} (r : Raw) (t : Temp)
    (hg : cfg.bedInterval ≤ (s.ticks - s.bedLast).toNat) :
    safetyState cfg bed r t s =
      debounce bed ((s.ch bed).over r) ((s.ch bed).under r) { bedAbsCheck cfg t s with bedLast := s.ticks } := by
  have hopen : bedGateOpen cfg (bedAbsCheck cfg t s) = true := by
    rw [bedGateOpen, bedAbsCheck_ticks, bedAbsCheck_bedLast, decide_eq_true_eq]
    exact hg
  rw [safetyState_bed, bedGatedDebounce, if_pos hopen, ← bedAbsCheck_ticks cfg t s]

/-! ## The verdicts of the Safety Monitor on a channel that is not latched -/

/-- The monitor of a channel that is not latched writes its counter, and zeroes its target when it latches it (R165). -/
theorem monitorStep_ch {n : Nat} {c : Chan n} {s t : Block n} (h : MonitorStep c s t) (hl : (s.ch c).latched = false) :
    t.ch c = { s.ch c with deb := (t.ch c).deb, rawTgt := if (t.ch c).deb.toInt < 0 then 0 else (s.ch c).rawTgt } := by
  cases h with
  | keeps b =>
    have h0 : ¬ (s.ch c).deb.toInt < 0 := Int.not_lt.mpr ((latched_eq_false_iff _).mp hl)
    rw [ch_with_bedLast, if_neg h0]
  | counts b v _ h0 _ =>
    rw [ch_modCh_same, if_neg (Int.not_lt.mpr h0)]
    rfl
  | latches b sen cause sub _ _ hneg =>
    rw [latch_ch, if_pos rfl, if_pos hneg]
    rfl

theorem not_inRange_of_or {hi lo : Bool} (h : (hi || lo) = true) : ¬ (¬ hi = true ∧ ¬ lo = true) := by
  rwa [← not_or, not_not, ← Bool.or_eq_true]

/-- The count of a channel that is not latched, and the sentinel at the threshold (R164, R165). -/
theorem debounce_deb {n : Nat} {c : Chan n} {s : Block n} (hi lo : Bool) (h0 : 0 ≤ (s.ch c).deb.toInt) (h2 : (s.ch c).deb.toInt ≤ 2) :
    ((debounce c hi lo s).ch c).deb.toInt =
      if ¬ hi = true ∧ ¬ lo = true then 0 else if (s.ch c).deb.toInt ≤ 1 then (s.ch c).deb.toInt + 1
      else if hi = true then -1 else -2 := by
  rcases debounce_cases c hi lo s with ⟨hl, -⟩ | ⟨-, rfl, rfl, h⟩ | ⟨-, hout, hn, h⟩ | ⟨-, hout, hn, h⟩
  · exact absurd ((latched_iff _).mp hl) (Int.not_lt.mpr h0)
  · rw [h, ch_modCh_same]
    rfl
  · have hle : (s.ch c).deb.toInt ≤ 1 := Int.le_of_lt_add_one (Int.lt_sub_right_of_add_lt hn)
    rw [h, ch_modCh_same, if_neg (not_inRange_of_or hout), if_pos hle]
    exact toInt_ofInt_of_mem (by decide) (by omega) (by omega)
  · have hgt : ¬ (s.ch c).deb.toInt ≤ 1 := fun hle => absurd (hn.trans (Int.add_le_add_right hle 1)) (by decide)
    rw [h, latchRange, latch_ch, if_pos rfl, if_neg (not_inRange_of_or hout), if_neg hgt]
    cases hi <;> rfl

/-- A fault notifies once unless stopped (R165, R172). -/
theorem latch_notify_append {n : Nat} (c : Chan n) (sen : BitVec 8) (cause : Cause) (sub : BitVec 4) (s : Block n) :
    (latch c sen cause sub s).notify = s.notify ++ if s.stopped then [] else [⟨cause, sub, c.val⟩] := by
  rw [latch_notify]
  split
  · exact (List.append_nil _).symm
  · rfl

/-- The debounce notifies at the threshold only, unless stopped (R165, R172, R173). -/
theorem debounce_notify {n : Nat} {c : Chan n} {s : Block n} (hi lo : Bool) (h0 : 0 ≤ (s.ch c).deb.toInt) :
    (debounce c hi lo s).notify = s.notify ++
      if s.stopped then [] else if (¬ hi = true ∧ ¬ lo = true) ∨ (s.ch c).deb.toInt ≤ 1 then []
      else [⟨(rangeFault c hi).1, (rangeFault c hi).2, c.val⟩] := by
  rcases debounce_cases c hi lo s with ⟨hl, -⟩ | ⟨-, rfl, rfl, h⟩ | ⟨-, hout, hn, h⟩ | ⟨-, hout, hn, h⟩
  · exact absurd ((latched_iff _).mp hl) (Int.not_lt.mpr h0)
  · simp [h]
  · have hle : (s.ch c).deb.toInt ≤ 1 := Int.le_of_lt_add_one (Int.lt_sub_right_of_add_lt hn)
    simp [h, hle]
  · have hgt : ¬ (s.ch c).deb.toInt ≤ 1 := fun hle => absurd (hn.trans (Int.add_le_add_right hle 1)) (by decide)
    rw [h, latchRange, latch_notify_append, if_neg (not_or.mpr ⟨not_inRange_of_or hout, hgt⟩)]

/-- The range fault of the bed has a sub-code per bound (R243). -/
theorem rangeFault_bed {n : Nat} (hi : Bool) : rangeFault (bed : Chan n) hi = (.bedTemp, if hi then 1 else 2) := if_pos rfl

/-! ## A gated check of the bed -/

/-- A bed that the absolute maximum has latched stays as it is at the range debounce that follows (R167, R169). -/
theorem safetyState_bed_of_open_hot {cfg : Config} {s : Block cfg.nExt} (r : Raw) {t : Temp}
    (hg : cfg.bedInterval ≤ (s.ticks - s.bedLast).toNat) (hl : (s.ch bed).latched = false) (hot : cfg.bedAbsMax.toInt < t.toInt) :
    safetyState cfg bed r t s = latch bed sentinelOver .bedTemp 3 { s with bedLast := s.ticks } := by
  rw [safetyState_bed_of_open r t hg, bedAbsCheck_of_unlatched t hl, if_pos hot, latch_with_bedLast, debounce_latched]
  rw [latch_ch, if_pos rfl]
  rfl

theorem safetyState_bed_of_open_not_hot {cfg : Config} {s : Block cfg.nExt} (r : Raw) {t : Temp}
    (hg : cfg.bedInterval ≤ (s.ticks - s.bedLast).toNat) (hl : (s.ch bed).latched = false) (hot : ¬ cfg.bedAbsMax.toInt < t.toInt) :
    safetyState cfg bed r t s = debounce bed ((s.ch bed).over r) ((s.ch bed).under r) { s with bedLast := s.ticks } := by
  rw [safetyState_bed_of_open r t hg, bedAbsCheck_of_unlatched t hl, if_neg hot]

theorem safetyState_bedLast_of_open {cfg : Config} {s : Block cfg.nExt} (r : Raw) (t : Temp)
    (hg : cfg.bedInterval ≤ (s.ticks - s.bedLast).toNat) : (safetyState cfg bed r t s).bedLast = s.ticks := by
  rw [safetyState_bed_of_open r t hg, debounce_bedLast]

/-- The counter of a bed with registers `k`, not latched, after a gated check of the reading `r` at temperature `t` (R165 to R169). -/
def gatedCount (cfg : Config) (k : Channel) (r : Raw) (t : Temp) : Int :=
  if cfg.bedAbsMax.toInt < t.toInt then -1
  else if ¬ k.rawMax.toNat ≤ r.toNat ∧ ¬ r.toNat < k.rawMin.toNat then 0
  else if k.deb.toInt ≤ 1 then k.deb.toInt + 1
  else if k.rawMax.toNat ≤ r.toNat then -1 else -2

/-- What that check notifies (R165, R169, R172). -/
def gatedNotes (cfg : Config) (stopped : Bool) (k : Channel) (r : Raw) (t : Temp) : List Notification :=
  if stopped then []
  else if cfg.bedAbsMax.toInt < t.toInt then [⟨.bedTemp, 3, 0⟩]
  else if ¬ k.rawMax.toNat ≤ r.toNat ∧ ¬ r.toNat < k.rawMin.toNat ∨ k.deb.toInt ≤ 1 then []
  else if k.rawMax.toNat ≤ r.toNat then [⟨.bedTemp, 1, 0⟩] else [⟨.bedTemp, 2, 0⟩]

/-- The absolute maximum comes before the range debounce (R167). -/
theorem safetyState_verdict_of_open {cfg : Config} {s : Block cfg.nExt} (r : Raw) (t : Temp)
    (hg : cfg.bedInterval ≤ (s.ticks - s.bedLast).toNat) (h0 : 0 ≤ (s.ch bed).deb.toInt) (h2 : (s.ch bed).deb.toInt ≤ 2) :
    ((safetyState cfg bed r t s).ch bed).deb.toInt = gatedCount cfg (s.ch bed) r t ∧
      (safetyState cfg bed r t s).notify = s.notify ++ gatedNotes cfg s.stopped (s.ch bed) r t := by
  unfold gatedCount gatedNotes
  have hl : (s.ch bed).latched = false := (latched_eq_false_iff _).mpr h0
  by_cases hot : cfg.bedAbsMax.toInt < t.toInt
  · rw [safetyState_bed_of_open_hot r hg hl hot, latch_ch, latch_notify_append, if_pos rfl, if_pos hot, if_pos hot]
    exact ⟨rfl, rfl⟩
  · have hdeb := debounce_deb (s := { s with bedLast := s.ticks }) ((s.ch bed).over r) ((s.ch bed).under r) h0 h2
    have hnotify := debounce_notify (s := { s with bedLast := s.ticks }) ((s.ch bed).over r) ((s.ch bed).under r) h0
    rw [rangeFault_bed] at hnotify
    simp only [over_iff, under_iff, ch_with_bedLast] at hdeb hnotify
    rw [safetyState_bed_of_open_not_hot r hg hl hot, hdeb, hnotify, if_neg hot, if_neg hot]
    refine ⟨rfl, ?_⟩
    by_cases hhi : (s.ch bed).rawMax.toNat ≤ r.toNat
    · simp only [hhi, if_true]
      rfl
    · simp only [hhi, if_false]
      rfl

end Sys2Proof.Proofs
end

section
/-! The family 42_pid_regulator.md, `REG` through the Safety Monitor: the registers and the duty the regulator of the channel's mode gives
(R133 to R138, R148), and what the monitor makes of them for an extruder in range (R164), for a latched channel (R163, R166, R170) and for
the bed (R166 to R169, R172). -/

namespace Sys2Proof.Proofs

open Sys2Proof.Machine Sys2Proof.Safety Sys2Proof.Laws

/-! ## The regulator of a channel's mode on the channel's registers -/

/-- The registers and the duty the regulator of the mode of `c` gives for registers `k`: the PID on both raw values converted with the
channel's own calibration, the bang-bang on the raw values (R134 to R136, R148). -/
def regulatedChannel (cfg : Config) (c : Chan cfg.nExt) (s : Block cfg.nExt) (k : Channel) : Channel × Duty :=
  match cfg.mode c with
  | .pid => pidChannel cfg s (cfg.rawToTemp c k.cal k.rawTgt) (cfg.rawToTemp c k.cal k.snap) k
  | .bangbang => (k, if k.snap.toNat < k.rawTgt.toNat then BitVec.ofNat 8 cfg.maxDuty else 0)

theorem regulatedChannel_frame (cfg : Config) (c : Chan cfg.nExt) (s : Block cfg.nExt) (k : Channel) :
    (regulatedChannel cfg c s k).1 = { k with
      isum := (regulatedChannel cfg c s k).1.isum
      dterm := (regulatedChannel cfg c s k).1.dterm
      tprev := (regulatedChannel cfg c s k).1.tprev
      pidrst := (regulatedChannel cfg c s k).1.pidrst } := by
  unfold regulatedChannel
  cases cfg.mode c with
  | pid => exact pidChannel_frame ..
  | bangbang => rfl

theorem regulatedChannel_with_pend (cfg : Config) (c : Chan cfg.nExt) (s : Block cfg.nExt) (k : Channel) (b : Bool) :
    regulatedChannel cfg c s { k with pend := b } =
      ({ (regulatedChannel cfg c s k).1 with pend := b }, (regulatedChannel cfg c s k).2) := by
  unfold regulatedChannel
  cases cfg.mode c with
  | pid => exact pidChannel_map cfg s _ _ (g := fun k => { k with pend := b }) (fun _ _ _ _ _ => rfl) k
  | bangbang => rfl

/-- The regulator on the target none (R163): the PID runs on the temperature of raw 0, the bang-bang gives 0. -/
def untargetedChannel (cfg : Config) (c : Chan cfg.nExt) (s : Block cfg.nExt) (k : Channel) : Channel × Duty :=
  match cfg.mode c with
  | .pid => pidChannel cfg s (cfg.rawToTemp c k.cal 0) (cfg.rawToTemp c k.cal k.snap) k
  | .bangbang => (k, 0)

theorem regulatedChannel_of_target_zero (cfg : Config) (c : Chan cfg.nExt) (s : Block cfg.nExt) (k : Channel) :
    regulatedChannel cfg c s { k with rawTgt := 0 } =
      ({ (untargetedChannel cfg c s k).1 with rawTgt := 0 }, (untargetedChannel cfg c s k).2) := by
  unfold regulatedChannel untargetedChannel
  cases cfg.mode c with
  | pid => exact pidChannel_map cfg s _ _ (g := fun k => { k with rawTgt := 0 }) (fun _ _ _ _ _ => rfl) k
  | bangbang =>
    have hzero : ¬ k.snap.toNat < (0 : Raw).toNat := Nat.not_lt_zero _
    rw [if_neg hzero]

/-! ## The whole of REG, through the Safety Monitor -/

/-- A channel with the target `REG` regulates it on: none while it is latched (R163). -/
def heldChannel (k : Channel) : Channel := { k with rawTgt := if k.latched then 0 else k.rawTgt }

theorem heldChannel_of_unlatched {k : Channel} (h : k.latched = false) : heldChannel k = k := by simp [heldChannel, h]

theorem heldChannel_of_latched {k : Channel} (h : k.latched = true) : heldChannel k = { k with rawTgt := 0 } := by
  simp [heldChannel, h]

/-- The channel `REG` hands to the Safety Monitor, and the regulator's duty. -/
def handedChannel (cfg : Config) (c : Chan cfg.nExt) (s : Block cfg.nExt) : Channel × Duty :=
  let q := regulatedChannel cfg c s (heldChannel (s.ch c))
  ({ q.1 with pend := false }, q.2)

/-- The block `REG` hands to the Safety Monitor. -/
def handedBlock (cfg : Config) (c : Chan cfg.nExt) (s : Block cfg.nExt) : Block cfg.nExt := s.modCh c fun _ => (handedChannel cfg c s).1

theorem handedBlock_ch (cfg : Config) (c : Chan cfg.nExt) (s : Block cfg.nExt) :
    (handedBlock cfg c s).ch c = (handedChannel cfg c s).1 := ch_modCh_same ..

/-- The regulator's registers are the PID's, so what the Safety Monitor reads of the channel is what `REG` found. -/
theorem handedChannel_frame (cfg : Config) (c : Chan cfg.nExt) (s : Block cfg.nExt) :
    (handedChannel cfg c s).1 = { s.ch c with
      pend := false
      rawTgt := if (s.ch c).latched then 0 else (s.ch c).rawTgt
      isum := (handedChannel cfg c s).1.isum
      dterm := (handedChannel cfg c s).1.dterm
      tprev := (handedChannel cfg c s).1.tprev
      pidrst := (handedChannel cfg c s).1.pidrst } := by
  unfold handedChannel
  dsimp only
  rw [regulatedChannel_frame]
  rfl

theorem handedBlock_latched (cfg : Config) (c : Chan cfg.nExt) (s : Block cfg.nExt) :
    ((handedBlock cfg c s).ch c).latched = (s.ch c).latched := by
  rw [handedBlock_ch, handedChannel_frame]
  rfl

theorem handedBlock_rawMin (cfg : Config) (c : Chan cfg.nExt) (s : Block cfg.nExt) :
    ((handedBlock cfg c s).ch c).rawMin = (s.ch c).rawMin := by
  rw [handedBlock_ch, handedChannel_frame]

theorem handedBlock_rawMax (cfg : Config) (c : Chan cfg.nExt) (s : Block cfg.nExt) :
    ((handedBlock cfg c s).ch c).rawMax = (s.ch c).rawMax := by
  rw [handedBlock_ch, handedChannel_frame]

theorem handedBlock_deb (cfg : Config) (c : Chan cfg.nExt) (s : Block cfg.nExt) :
    ((handedBlock cfg c s).ch c).deb = (s.ch c).deb := by
  rw [handedBlock_ch, handedChannel_frame]

theorem handedChannel_of_unlatched {cfg : Config} {c : Chan cfg.nExt} {s : Block cfg.nExt} (h : (s.ch c).latched = false) :
    handedChannel cfg c s =
      ({ (regulatedChannel cfg c s (s.ch c)).1 with pend := false }, (regulatedChannel cfg c s (s.ch c)).2) := by
  rw [handedChannel, heldChannel_of_unlatched h]

theorem handedChannel_of_latched {cfg : Config} {c : Chan cfg.nExt} {s : Block cfg.nExt} (h : (s.ch c).latched = true) :
    handedChannel cfg c s =
      ({ (untargetedChannel cfg c s (s.ch c)).1 with pend := false, rawTgt := 0 }, (untargetedChannel cfg c s (s.ch c)).2) := by
  rw [handedChannel, heldChannel_of_latched h, regulatedChannel_of_target_zero]

theorem beginRegulation_eq {n : Nat} (c : Chan n) (s : Block n) :
    beginRegulation c s = s.modCh c fun k => { heldChannel k with pend := false } := by
  refine block_ext (fun c' => ?_) (beginRegulation_phase ..) (beginRegulation_pass ..) (beginRegulation_ready ..)
    (beginRegulation_pwmCnt ..) (beginRegulation_ticks ..) (beginRegulation_bedLast ..) (beginRegulation_kp ..) (beginRegulation_ki ..)
    (beginRegulation_kd ..) (beginRegulation_kimax ..) (beginRegulation_stopped ..) (beginRegulation_adcreq ..)
    (beginRegulation_notify ..)
  by_cases hc : c' = c
  · subst hc
    rw [beginRegulation_ch, ch_modCh_same]
    rfl
  · rw [beginRegulation_ch_ne s hc, ch_modCh_ne s _ hc]

/-- The regulator as `REG` calls it, on the converted target and reading, gives the channel's regulated registers. -/
theorem regulator_eq (cfg : Config) (c : Chan cfg.nExt) (s : Block cfg.nExt) :
    regulator cfg c (setpoint cfg c s) (measuredTemp cfg c s) (s.ch c).snap s =
      (s.modCh c fun _ => (regulatedChannel cfg c s (s.ch c)).1, (regulatedChannel cfg c s (s.ch c)).2) := by
  unfold regulator regulatedChannel
  cases cfg.mode c with
  | pid => rfl
  | bangbang =>
    have hid : s.modCh c (fun _ => s.ch c) = s := modCh_id s c _ rfl
    exact Prod.ext hid.symm rfl

theorem regulator_beginRegulation (cfg : Config) (c : Chan cfg.nExt) (s : Block cfg.nExt) :
    regulator cfg c (setpoint cfg c (beginRegulation c s)) (measuredTemp cfg c s) (s.ch c).snap (beginRegulation c s) =
      (handedBlock cfg c s, (handedChannel cfg c s).2) := by
  have hch : (beginRegulation c s).ch c = { heldChannel (s.ch c) with pend := false } := beginRegulation_ch c s
  have ht : measuredTemp cfg c s = measuredTemp cfg c (beginRegulation c s) := by
    rw [measuredTemp, measuredTemp, hch]
    rfl
  have hsnap : (s.ch c).snap = ((beginRegulation c s).ch c).snap := by
    rw [hch]
    rfl
  have hgains (k : Channel) : regulatedChannel cfg c (beginRegulation c s) k = regulatedChannel cfg c s k := by
    rw [beginRegulation_eq]
    rfl
  rw [ht, hsnap, regulator_eq, hgains, hch, regulatedChannel_with_pend, beginRegulation_eq, modCh_modCh]
  rfl

/-- The duty the Safety Monitor passes on: 0 out of range (R166) and for a bed above its absolute maximum (R169). -/
theorem safetyDuty_eq (cfg : Config) (c : Chan cfg.nExt) (r : Raw) (t : Temp) (d : Duty) (s : Block cfg.nExt) :
    safetyDuty cfg c r t d s =
      if (s.ch c).rawMax.toNat ≤ r.toNat ∨ r.toNat < (s.ch c).rawMin.toNat ∨ c = bed ∧ cfg.bedAbsMax.toInt < t.toInt then 0 else d := by
  have hout : (s.ch c).outOfRange r = true ↔ (s.ch c).rawMax.toNat ≤ r.toNat ∨ r.toNat < (s.ch c).rawMin.toNat := by
    rw [Channel.outOfRange, Bool.or_eq_true, over_iff, under_iff]
  have hhot : bedTooHot cfg t = true ↔ cfg.bedAbsMax.toInt < t.toInt := decide_eq_true_iff
  simp only [safetyDuty, hout, hhot, ← or_assoc]
  split
  · rename_i h
    rw [if_pos (.inl h)]
  · rename_i h
    simp only [h, false_or]

/-- The duty `REG` stores. -/
def storedDuty (cfg : Config) (c : Chan cfg.nExt) (s : Block cfg.nExt) : Duty :=
  if (s.ch c).rawMax.toNat ≤ (s.ch c).snap.toNat ∨ (s.ch c).snap.toNat < (s.ch c).rawMin.toNat ∨
      c = bed ∧ cfg.bedAbsMax.toInt < (measuredTemp cfg c s).toInt then 0
  else (handedChannel cfg c s).2

/-- `REG` regulates, has the Safety Monitor gate, and only then writes the duty (R133, R137). -/
theorem regulate_eq_safety (cfg : Config) (c : Chan cfg.nExt) (s : Block cfg.nExt) :
    regulate cfg c s =
      ((safetyState cfg c (s.ch c).snap (measuredTemp cfg c s) (handedBlock cfg c s)).modCh c
        fun k => { k with duty := storedDuty cfg c s }, storedDuty cfg c s) := by
  have hd : safetyDuty cfg c (s.ch c).snap (measuredTemp cfg c s) (handedChannel cfg c s).2 (handedBlock cfg c s) = storedDuty cfg c s := by
    rw [safetyDuty_eq, handedBlock_ch, handedChannel_frame]
    rfl
  rw [regulate_eq]
  simp only [regulator_beginRegulation, hd]

theorem regulate_snd (cfg : Config) (c : Chan cfg.nExt) (s : Block cfg.nExt) : (regulate cfg c s).2 = storedDuty cfg c s := by
  rw [regulate_eq_safety]

theorem storedDuty_of_inRange {cfg : Config} {c : Chan cfg.nExt} {s : Block cfg.nExt}
    (hmin : (s.ch c).rawMin.toNat ≤ (s.ch c).snap.toNat) (hmax : (s.ch c).snap.toNat < (s.ch c).rawMax.toNat)
    (hot : ¬ (c = bed ∧ cfg.bedAbsMax.toInt < (measuredTemp cfg c s).toInt)) : storedDuty cfg c s = (handedChannel cfg c s).2 :=
  if_neg (not_or.mpr ⟨Nat.not_le.mpr hmax, not_or.mpr ⟨Nat.not_lt.mpr hmin, hot⟩⟩)

theorem modCh_with_bedLast {n : Nat} (s : Block n) (b : BitVec 32) (c : Chan n) (f : Channel → Channel) :
    Block.modCh { s with bedLast := b } c f = { s.modCh c f with bedLast := b } := rfl

theorem modCh_with_notify {n : Nat} (s : Block n) (e : List Notification) (c : Chan n) (f : Channel → Channel) :
    Block.modCh { s with notify := e } c f = { s.modCh c f with notify := e } := rfl

/-! ## An extruder in range -/

theorem regulate_extruder_inRange {cfg : Config} {c : Chan cfg.nExt} {s : Block cfg.nExt} (hc : c ≠ bed)
    (hl : (s.ch c).latched = false) (hmin : (s.ch c).rawMin.toNat ≤ (s.ch c).snap.toNat)
    (hmax : (s.ch c).snap.toNat < (s.ch c).rawMax.toNat) :
    (let (k, d) := regulatedChannel cfg c s (s.ch c)
     regulate cfg c s = (s.modCh c fun _ => { k with pend := false, deb := 0, duty := d }, d)) := by
  have hd : storedDuty cfg c s = (regulatedChannel cfg c s (s.ch c)).2 := by
    rw [storedDuty_of_inRange hmin hmax fun h => hc h.1, handedChannel_of_unlatched hl]
  have hsafe := safetyState_extruder_inRange (s := handedBlock cfg c s) (r := (s.ch c).snap) (measuredTemp cfg c s) hc
    ((handedBlock_latched ..).trans hl) (by rwa [handedBlock_rawMin]) (by rwa [handedBlock_rawMax])
  dsimp only
  rw [regulate_eq_safety, hsafe, hd, handedBlock, handedChannel_of_unlatched hl, modCh_modCh, modCh_modCh]

/-- Settles O32: the monitor clears the count and passes the regulator's duty on. -/
theorem extruderInRangeStoresRegulatorDuty : Obligations.ExtruderInRangeStoresRegulatorDuty := by
  intro c s h k hc hk hp h0 hmin hmax
  subst hk
  have hreg := regulate_extruder_inRange (mt (chan_eq_bed_iff h).mp hc) ((latched_eq_false_iff _).mpr h0) hmin hmax
  have hexec := exec_reg h hp
  dsimp only at hreg
  rw [hreg] at hexec
  exact hexec

/-! ## A latched channel -/

theorem regulate_latched {cfg : Config} {c : Chan cfg.nExt} {s : Block cfg.nExt} (hl : (s.ch c).latched = true) :
    (let k := s.ch c
     let (k', d) := untargetedChannel cfg c s k
     let d := if k.rawMax.toNat ≤ k.snap.toNat ∨ k.snap.toNat < k.rawMin.toNat ∨
       c = bed ∧ cfg.bedAbsMax.toInt < (measuredTemp cfg c s).toInt then 0 else d
     regulate cfg c s =
       ({ s.modCh c fun _ => { k' with pend := false, rawTgt := 0, duty := d } with
          bedLast := if c = bed ∧ cfg.bedInterval ≤ (s.ticks - s.bedLast).toNat then s.ticks else s.bedLast }, d)) := by
  have hsafe := safetyState_of_latched (s.ch c).snap (measuredTemp cfg c s) ((handedBlock_latched cfg c s).trans hl)
  dsimp only
  rw [regulate_eq_safety, hsafe, storedDuty, modCh_with_bedLast, handedBlock, handedChannel_of_latched hl, modCh_modCh]
  rfl

/-- Settles O43: the monitor leaves a latched channel alone, and its target none is the raw target 0. -/
theorem latchedChannelKeepsItsTargetAtZero : Obligations.LatchedChannelKeepsItsTargetAtZero := by
  intro c s h k hk hp hneg
  subst hk
  have hreg := regulate_latched ((latched_iff _).mpr hneg)
  have hexec := exec_reg h hp
  dsimp only at hreg
  rw [hreg] at hexec
  simp only [chan_eq_bed_iff h] at hexec
  exact hexec

/-! ## The bed between two gated checks -/

theorem exec_reg_bed {s : State} (hp : (s.ch bed).pend = true) :
    exec (.reg 0) s = .next { s with
      toBlock := (regulate config bed s.toBlock).1
      response := some ⟨.ok, BitVec.ofNat 32 (256 + (regulate config bed s.toBlock).2.toNat)⟩ } :=
  exec_reg (c := 0) (Nat.succ_pos _) hp

theorem regulate_bed_inRange_of_closed {cfg : Config} {s : Block cfg.nExt} (hl : (s.ch bed).latched = false)
    (hmin : (s.ch bed).rawMin.toNat ≤ (s.ch bed).snap.toNat) (hmax : (s.ch bed).snap.toNat < (s.ch bed).rawMax.toNat)
    (hg : (s.ticks - s.bedLast).toNat < cfg.bedInterval) :
    (let (k, d) := regulatedChannel cfg bed s (s.ch bed)
     regulate cfg bed s =
       if cfg.bedAbsMax.toInt < (measuredTemp cfg bed s).toInt then
         ({ s.modCh bed fun _ => { k with pend := false, deb := sentinelOver, rawTgt := 0, duty := 0 } with
            notify := if s.stopped then s.notify else s.notify ++ [⟨.bedTemp, 3, 0⟩] }, 0)
       else (s.modCh bed fun _ => { k with pend := false, duty := d }, d)) := by
  have hsafe := safetyState_bed_of_closed (s := handedBlock cfg bed s) (s.ch bed).snap (measuredTemp cfg bed s) hg
  rw [bedAbsCheck_of_unlatched _ ((handedBlock_latched ..).trans hl)] at hsafe
  dsimp only
  rw [regulate_eq_safety, hsafe]
  by_cases hot : cfg.bedAbsMax.toInt < (measuredTemp cfg bed s).toInt
  · have hd : storedDuty cfg bed s = 0 := if_pos (.inr (.inr ⟨rfl, hot⟩))
    rw [if_pos hot, if_pos hot, hd, latch_eq, modCh_with_notify, handedBlock, handedChannel_of_unlatched hl, modCh_modCh,
      modCh_modCh]
    rfl
  · have hd : storedDuty cfg bed s = (regulatedChannel cfg bed s (s.ch bed)).2 := by
      rw [storedDuty_of_inRange hmin hmax fun h => hot h.2, handedChannel_of_unlatched hl]
    rw [if_neg hot, if_neg hot, hd, handedBlock, handedChannel_of_unlatched hl, modCh_modCh]

/-- Settles O47: between two gated checks only the absolute maximum can keep the regulator's duty from the bed. -/
theorem bedInRangeIsRegulatedInItsMode : Obligations.BedInRangeIsRegulatedInItsMode := by
  intro s k hk hp h0 hmin hmax hg
  subst hk
  have hreg := regulate_bed_inRange_of_closed ((latched_eq_false_iff _).mpr h0) hmin hmax hg
  have hexec := exec_reg_bed hp
  dsimp only at hreg
  rw [hreg] at hexec
  by_cases hot : config.bedAbsMax.toInt < (measuredTemp config bed s.toBlock).toInt
  · rw [if_pos hot] at hexec
    exact hexec.trans (congrArg Host.Outcome.next (if_pos hot).symm)
  · rw [if_neg hot] at hexec
    exact hexec.trans (congrArg Host.Outcome.next (if_neg hot).symm)

/-! ## The bed at a gated check -/

/-- A channel that was not latched, after `REG`: the regulator's registers, the monitor's verdict and the stored duty. -/
theorem regulate_ch_of_unlatched {cfg : Config} {c : Chan cfg.nExt} {s : Block cfg.nExt} (hl : (s.ch c).latched = false) :
    (regulate cfg c s).1.ch c = { (regulatedChannel cfg c s (s.ch c)).1 with
      pend := false
      deb := ((regulate cfg c s).1.ch c).deb
      rawTgt := if ((regulate cfg c s).1.ch c).deb.toInt < 0 then 0 else (s.ch c).rawTgt
      duty := storedDuty cfg c s } := by
  have hmon := monitorStep_ch (monitorStep_safetyState cfg c (s.ch c).snap (measuredTemp cfg c s) (handedBlock cfg c s))
    ((handedBlock_latched ..).trans hl)
  have htgt : ((handedBlock cfg c s).ch c).rawTgt = (s.ch c).rawTgt := by
    rw [handedBlock_ch, handedChannel_frame, hl]
    rfl
  rw [regulate_eq_safety, ch_modCh_same, hmon, htgt, handedBlock_ch, handedChannel_of_unlatched hl]

theorem storedDuty_bed {cfg : Config} {s : Block cfg.nExt} (hl : (s.ch bed).latched = false) :
    storedDuty cfg bed s =
      if cfg.bedAbsMax.toInt < (measuredTemp cfg bed s).toInt ∨ (s.ch bed).rawMax.toNat ≤ (s.ch bed).snap.toNat ∨
        (s.ch bed).snap.toNat < (s.ch bed).rawMin.toNat then 0
      else (regulatedChannel cfg bed s (s.ch bed)).2 := by
  rw [storedDuty, handedChannel_of_unlatched hl]
  refine if_congr ?_ rfl rfl
  rw [← or_assoc, or_comm, and_iff_right rfl]

theorem regulate_bedLast_of_open {cfg : Config} {s : Block cfg.nExt} (hg : cfg.bedInterval ≤ (s.ticks - s.bedLast).toNat) :
    (regulate cfg bed s).1.bedLast = s.ticks := by
  rw [regulate_eq_safety]
  exact safetyState_bedLast_of_open (s := handedBlock cfg bed s) _ _ hg

/-- The verdict of a gated check of a bed that is not latched, on the drained reading. -/
theorem regulate_verdict_of_open {cfg : Config} {s : Block cfg.nExt} (hg : cfg.bedInterval ≤ (s.ticks - s.bedLast).toNat)
    (h0 : 0 ≤ (s.ch bed).deb.toInt) (h2 : (s.ch bed).deb.toInt ≤ 2) :
    ((regulate cfg bed s).1.ch bed).deb.toInt = gatedCount cfg (s.ch bed) (s.ch bed).snap (measuredTemp cfg bed s) ∧
      (regulate cfg bed s).1.notify =
        s.notify ++ gatedNotes cfg s.stopped (s.ch bed) (s.ch bed).snap (measuredTemp cfg bed s) := by
  have h := safetyState_verdict_of_open (s := handedBlock cfg bed s) (s.ch bed).snap (measuredTemp cfg bed s) hg
    (by rwa [handedBlock_deb]) (by rwa [handedBlock_deb])
  simp only [gatedCount, gatedNotes, handedBlock_rawMin, handedBlock_rawMax, handedBlock_deb] at h
  rw [regulate_eq_safety, ch_modCh_same]
  exact h

/-- Settles O45: the registers of the bed, the time of its check, and the verdict on its reading. -/
theorem openBedGateDebounces : Obligations.OpenBedGateDebounces := by
  intro s k hk hp hg h0 h2
  subst hk
  have hl : (s.ch bed).latched = false := (latched_eq_false_iff _).mpr h0
  obtain ⟨hdeb, hnotify⟩ := regulate_verdict_of_open hg h0 h2
  have hch := regulate_ch_of_unlatched hl
  have hexec := exec_reg_bed hp
  rw [storedDuty_bed hl] at hch
  rw [regulate_snd, storedDuty_bed hl] at hexec
  exact ⟨_, hexec, regulate_bedLast_of_open hg, hdeb, hch, rfl, hnotify⟩

end Sys2Proof.Proofs
end

section
/-! The family 43_safety_monitor.md, the latch: what keeps a latched counter (R170), when the heaters are enabled (R171), and that a block
with a latched channel never heats again without `RESET` (R187, R245). -/

namespace Sys2Proof.Proofs

open Sys2Proof.Machine Sys2Proof.Safety Sys2Proof.Laws

/-! ## A latched counter -/

theorem modCh_deb {n : Nat} (s : Block n) (c c' : Chan n) {f : Channel → Channel} (hf : ∀ k, (f k).deb = k.deb) :
    ((s.modCh c f).ch c').deb = (s.ch c').deb :=
  forall_ch_modCh (P := fun c' k => k.deb = (s.ch c').deb) (fun _ => rfl) (hf _) c'

/-- `REG` of a latched channel keeps its sentinel, because the Safety Monitor leaves the channel alone. -/
theorem regulate_deb_of_latched {cfg : Config} {c : Chan cfg.nExt} {s : Block cfg.nExt} (hl : (s.ch c).latched = true) :
    ((regulate cfg c s).1.ch c).deb = (s.ch c).deb := by
  rw [regulate_eq_safety, ch_modCh_same, safetyState_of_latched _ _ ((handedBlock_latched ..).trans hl), ch_with_bedLast, handedBlock_deb]

/-- Of the host agent's operations only `REG` writes a counter at all. -/
theorem hostStep_deb_of_latched {cfg : Config} {s t : Block cfg.nExt} {c : Chan cfg.nExt} (h : HostStep cfg s t)
    (hl : (s.ch c).latched = true) : (t.ch c).deb = (s.ch c).deb := by
  cases h with
  | same => rfl
  | drain => rw [takeWindow_ch]
  | reg c' =>
    by_cases hc : c = c'
    · subst hc
      exact regulate_deb_of_latched hl
    · rw [regulate_ch_ne cfg s hc]
  | target c' => exact modCh_deb s c' c fun _ => rfl
  | duty c' => exact modCh_deb s c' c fun _ => rfl
  | gain g v => rw [setGain_ch]
  | cal c' => exact modCh_deb s c' c fun _ => rfl
  | stop => rfl

/-- In a block of any configuration: the counters are the host agent's registers, so a tick keeps them too (R39). -/
theorem operate_deb_of_latched {cfg : Config} {i : Instr} {s : Block cfg.nExt} {c : Chan cfg.nExt} (hr : i ≠ .reset)
    (hl : (s.ch c).latched = true) : ((operate cfg i s).1.ch c).deb = (s.ch c).deb := by
  cases hi : isTick cfg i with
  | true =>
    obtain ⟨adc, -, -, ht⟩ := operate_of_isTick s hi
    rw [ht, (sameHostRegs_tickState cfg adc s).chan c]
  | false => exact hostStep_deb_of_latched (hostStep_of_operate s hi hr) hl

/-- Settles O26: neither agent's operations but `RESET` write a latched counter. -/
theorem onlyResetClearsALatch : Obligations.OnlyResetClearsALatch := by
  intro i s t c hr h hneg
  rw [exec_next h]
  exact operate_deb_of_latched hr ((latched_iff _).mpr hneg)

/-! ## The heater enable -/

theorem eq_sentinelOver_iff (d : BitVec 8) : d = sentinelOver ↔ d.toInt = -1 := BitVec.toInt_inj.symm

theorem eq_sentinelUnder_iff (d : BitVec 8) : d = sentinelUnder ↔ d.toInt = -2 := BitVec.toInt_inj.symm

/-- With the heaters disabled a leading edge asserts no pin (R182). -/
theorem tickState_heat_of_disabled {cfg : Config} {s : Block cfg.nExt} (adc : BitVec 16) (hen : s.heatEn = false) (h0 : s.pwmCnt = 0)
    (c : Chan cfg.nExt) : ((tickState cfg adc s).ch c).heat = (s.ch c).heat := by
  rw [(tickState_pwm cfg adc s c).2]
  rcases pwmStep_ch_cases s c with ⟨-, hk⟩ | ⟨hne, -⟩
  · rw [hk, hen, Bool.and_false, Bool.false_or]
  · exact absurd h0 hne

/-- At every other tick no pin is asserted, whether or not the heaters are enabled (R183). -/
theorem tickState_heat_of_low {cfg : Config} {s : Block cfg.nExt} (adc : BitVec 16) (h0 : s.pwmCnt ≠ 0) {c : Chan cfg.nExt}
    (hlow : (s.ch c).heat = false) : ((tickState cfg adc s).ch c).heat = false := by
  rw [(tickState_pwm cfg adc s c).2]
  rcases pwmStep_ch_cases s c with ⟨hz, -⟩ | ⟨-, hk⟩
  · exact absurd hz h0
  · rw [hk, hlow, Bool.false_and]

/-- Settles O38: the two latch predicates are about the two sentinels, and the enable is what a leading edge asks. -/
theorem heatersEnabledIffNoLatchAndNotStopped : Obligations.HeatersEnabledIffNoLatchAndNotStopped := by
  refine fun s => ⟨?_, fun hen h0 adc ha => ⟨_, exec_tick ha s, tickState_heat_of_disabled adc hen h0⟩⟩
  rw [heatEn_iff]
  simp only [ne_eq, eq_sentinelOver_iff, eq_sentinelUnder_iff, not_exists, forall_and]

/-! ## A latched block -/

/-- In a good state a latched counter holds a sentinel (R21), so it disables the heaters. -/
theorem heatEn_eq_false_of_someLatched {cfg : Config} {s : Block cfg.nExt} (h : BlockInv cfg s) (hl : SomeLatched s) :
    s.heatEn = false := by
  obtain ⟨c, hneg⟩ := hl
  have hlow : -2 ≤ (s.ch c).deb.toInt := (h.chan c).le_deb
  refine Bool.eq_false_iff.mpr fun hen => ?_
  obtain ⟨hover, hunder⟩ := ((heatEn_iff s).mp hen).2 c
  rw [ne_eq, eq_sentinelOver_iff] at hover
  rw [ne_eq, eq_sentinelUnder_iff] at hunder
  omega

/-- R186: in a good state every pin is low at a leading edge. -/
theorem allOff_of_leadingEdge {cfg : Config} {s : Block cfg.nExt} (h : BlockInv cfg s) (h0 : s.pwmCnt = 0) : AllOff s := by
  intro c
  refine Bool.eq_false_iff.mpr fun hhigh => ?_
  have hpos : 1 ≤ s.pwmCnt.toNat := ((h.chan c).heat_high hhigh).1
  rw [h0] at hpos
  exact absurd hpos (by decide)

/-- What a latched block keeps until `RESET`. -/
structure LatchedOff (cfg : Config) (s : Block cfg.nExt) : Prop where
  inv : BlockInv cfg s
  latched : SomeLatched s
  off : AllOff s

theorem someLatched_operate {cfg : Config} {i : Instr} {s : Block cfg.nExt} (hr : i ≠ .reset) (h : SomeLatched s) :
    SomeLatched (operate cfg i s).1 := by
  obtain ⟨c, hneg⟩ := h
  refine ⟨c, ?_⟩
  rwa [operate_deb_of_latched hr ((latched_iff _).mpr hneg)]

/-- No operation but `RESET` asserts a pin of a latched block: a tick finds the heaters disabled, and the pins are none of the host
agent's (R39). -/
theorem allOff_operate {cfg : Config} {i : Instr} {s : Block cfg.nExt} (hr : i ≠ .reset) (h : LatchedOff cfg s) :
    AllOff (operate cfg i s).1 := by
  intro c
  cases hi : isTick cfg i with
  | true =>
    obtain ⟨adc, -, -, ht⟩ := operate_of_isTick s hi
    rw [ht]
    by_cases h0 : s.pwmCnt = 0
    · rw [tickState_heat_of_disabled adc (heatEn_eq_false_of_someLatched h.inv h.latched) h0]
      exact h.off c
    · exact tickState_heat_of_low adc h0 (h.off c)
  | false =>
    obtain ⟨-, -, -, hheat⟩ := (sameTimerRegs_of_hostStep (hostStep_of_operate s hi hr)).chan c
    exact hheat.trans (h.off c)

theorem latchedOff_operate {cfg : Config} {i : Instr} {s : Block cfg.nExt} (hr : i ≠ .reset) (h : LatchedOff cfg s) :
    LatchedOff cfg (operate cfg i s).1 :=
  ⟨blockInv_operate i h.inv, someLatched_operate hr h.latched, allOff_operate hr h⟩

/-- A property of the block that every operation but `RESET` keeps outlives any sequence of them. -/
theorem foldl_stateAfter_keeps {P : Block config.nExt → Prop} (hP : ∀ i s, i ≠ .reset → P s → P (operate config i s).1)
    {is : List Instr} {s : State} (hreset : .reset ∉ is) (h : P s.toBlock) : P (is.foldl stateAfter s).toBlock := by
  induction is generalizing s with
  | nil => exact h
  | cons i is ih =>
    obtain ⟨hi, hreset⟩ := not_or.mp (mt List.mem_cons.mpr hreset)
    exact ih (s := stateAfter s i) hreset (hP i s.toBlock (Ne.symm hi) h)

/-- Settles O25: at the leading edge every pin is low, and `LatchedOff` holds from there on. -/
theorem latchedBlockNeverHeats : Obligations.LatchedBlockNeverHeats := by
  intro is s hinv hlatched h0 hreset
  have hstart : LatchedOff config s.toBlock := ⟨hinv, hlatched, allOff_of_leadingEdge hinv h0⟩
  have hend := foldl_stateAfter_keeps (fun _ _ => latchedOff_operate) hreset hstart
  exact ⟨_, execAll_eq_next is s, hend.off, hend.latched⟩

end Sys2Proof.Proofs
end

section
/-! The family 43_safety_monitor.md, `REG` through the Safety Monitor: a reading out of range (R164 to R166, R172, R173), a bed between two
gated checks (R168), and a bed above its absolute maximum (R169). -/

namespace Sys2Proof.Proofs

open Sys2Proof.Machine Sys2Proof.Safety Sys2Proof.Laws

/-! ## The duty and the PID state out of range -/

theorem storedDuty_of_outOfRange {cfg : Config} {c : Chan cfg.nExt} {s : Block cfg.nExt}
    (hout : (s.ch c).rawMax.toNat ≤ (s.ch c).snap.toNat ∨ (s.ch c).snap.toNat < (s.ch c).rawMin.toNat) : storedDuty cfg c s = 0 :=
  if_pos (hout.imp_right .inl)

/-- A channel after `REG`, latched or not: the regulator's registers, the monitor's verdict and the stored duty. -/
theorem regulate_ch_eq_handed (cfg : Config) (c : Chan cfg.nExt) (s : Block cfg.nExt) :
    (regulate cfg c s).1.ch c = { (handedChannel cfg c s).1 with
      deb := ((regulate cfg c s).1.ch c).deb
      rawTgt := ((regulate cfg c s).1.ch c).rawTgt
      duty := storedDuty cfg c s } := by
  have hmon := safetyState_ch cfg c (s.ch c).snap (measuredTemp cfg c s) (handedBlock cfg c s)
  rw [handedBlock_ch] at hmon
  rw [regulate_eq_safety, ch_modCh_same]
  exact congrArg (fun k : Channel => { k with duty := storedDuty cfg c s }) hmon

/-- The target `REG` regulates a channel on (R163). -/
theorem heldChannel_rawTgt (k : Channel) : (heldChannel k).rawTgt = if k.deb.toInt < 0 then 0 else k.rawTgt :=
  if_congr (latched_iff k) rfl rfl

/-- The registers the regulator of the mode of `c` leaves on that target: a PID's are updated, a bang-bang channel's are not (R133,
R148). -/
def pidRegisters (cfg : Config) (c : Chan cfg.nExt) (s : Block cfg.nExt) (k : Channel) : Channel :=
  match cfg.mode c with
  | .pid =>
    (pidChannel cfg s (cfg.rawToTemp c k.cal (if k.deb.toInt < 0 then 0 else k.rawTgt)) (cfg.rawToTemp c k.cal k.snap) k).1
  | .bangbang => k

theorem handedChannel_eq_pidRegisters (cfg : Config) (c : Chan cfg.nExt) (s : Block cfg.nExt) :
    (handedChannel cfg c s).1 = { pidRegisters cfg c s (s.ch c) with pend := false, rawTgt := (heldChannel (s.ch c)).rawTgt } := by
  unfold handedChannel regulatedChannel pidRegisters
  rw [← heldChannel_rawTgt]
  cases cfg.mode c with
  | bangbang => rfl
  | pid =>
    have hmap := pidChannel_map cfg s (cfg.rawToTemp c (s.ch c).cal (heldChannel (s.ch c)).rawTgt)
      (cfg.rawToTemp c (s.ch c).cal (s.ch c).snap) (g := fun k => { k with rawTgt := (heldChannel (s.ch c)).rawTgt })
      (fun _ _ _ _ _ => rfl) (s.ch c)
    exact congrArg (fun q : Channel × Duty => { q.1 with pend := false }) hmap

/-- Settles O40: the monitor gates the duty after the regulator has run (R137). -/
theorem outOfRangeReadingStoresZeroDuty : Obligations.OutOfRangeReadingStoresZeroDuty := by
  intro c s h k hk hp hout
  subst hk
  have hexec := exec_reg h hp
  have hch := regulate_ch_eq_handed config ⟨c.toNat, h⟩ s.toBlock
  rw [handedChannel_eq_pidRegisters, storedDuty_of_outOfRange hout] at hch
  rw [regulate_snd, storedDuty_of_outOfRange hout] at hexec
  refine ⟨_, hexec, ?_⟩
  dsimp only
  rw [hch]
  exact ⟨rfl, rfl, rfl, rfl, rfl, rfl⟩

/-! ## An extruder out of range -/

theorem rangeFault_extruder {n : Nat} {c : Chan n} (hc : c ≠ bed) (hi : Bool) :
    rangeFault c hi = (if hi then .maxTemp else .minTemp, 0) := if_neg hc

/-- The monitor's verdict on an extruder that is not latched and out of range: a count, or at the threshold the sentinel and the
notification of the bound crossed (R164, R165, R172). -/
theorem regulate_verdict_of_outOfRange {cfg : Config} {c : Chan cfg.nExt} {s : Block cfg.nExt} (hc : c ≠ bed)
    (hout : (s.ch c).rawMax.toNat ≤ (s.ch c).snap.toNat ∨ (s.ch c).snap.toNat < (s.ch c).rawMin.toNat)
    (h0 : 0 ≤ (s.ch c).deb.toInt) (h2 : (s.ch c).deb.toInt ≤ 2) :
    ((regulate cfg c s).1.ch c).deb.toInt =
        (if (s.ch c).deb.toInt ≤ 1 then (s.ch c).deb.toInt + 1 else if (s.ch c).rawMax.toNat ≤ (s.ch c).snap.toNat then -1 else -2) ∧
      (regulate cfg c s).1.notify = s.notify ++
        (if s.stopped then [] else if (s.ch c).deb.toInt ≤ 1 then []
        else [⟨if (s.ch c).rawMax.toNat ≤ (s.ch c).snap.toNat then .maxTemp else .minTemp, 0, c.val⟩]) := by
  have hin : ¬ (¬ (s.ch c).rawMax.toNat ≤ (s.ch c).snap.toNat ∧ ¬ (s.ch c).snap.toNat < (s.ch c).rawMin.toNat) := by
    rwa [← not_or, not_not]
  have hdeb := debounce_deb (s := handedBlock cfg c s) (((handedBlock cfg c s).ch c).over (s.ch c).snap)
    (((handedBlock cfg c s).ch c).under (s.ch c).snap) (by rwa [handedBlock_deb]) (by rwa [handedBlock_deb])
  have hnotify := debounce_notify (s := handedBlock cfg c s) (((handedBlock cfg c s).ch c).over (s.ch c).snap)
    (((handedBlock cfg c s).ch c).under (s.ch c).snap) (by rwa [handedBlock_deb])
  rw [rangeFault_extruder hc] at hnotify
  simp only [over_iff, under_iff, handedBlock_rawMin, handedBlock_rawMax, handedBlock_deb, hin, if_false, false_or] at hdeb hnotify
  rw [regulate_eq_safety, ch_modCh_same, modCh_notify, safetyState_extruder hc]
  exact ⟨hdeb, hnotify⟩

/-- Settles O41: below the threshold the debounce only counts. -/
theorem outOfRangeWindowCounts : Obligations.OutOfRangeWindowCounts := by
  intro c s h k hc hk hp hout h0 h1
  subst hk
  obtain ⟨hdeb, hnotify⟩ := regulate_verdict_of_outOfRange (mt (chan_eq_bed_iff h).mp hc) hout h0 (h1.trans (by decide))
  rw [if_pos h1] at hdeb
  rw [if_pos h1, ite_self, List.append_nil] at hnotify
  have hunlatched : ¬ ((regulate config ⟨c.toNat, h⟩ s.toBlock).1.ch ⟨c.toNat, h⟩).deb.toInt < 0 := by omega
  have hch := regulate_ch_of_unlatched ((latched_eq_false_iff _).mpr h0)
  rw [if_neg hunlatched] at hch
  exact ⟨_, exec_reg h hp, hdeb, (congrArg Channel.rawTgt hch :), hnotify⟩

/-- Settles O42: at the threshold the debounce latches the channel, which zeroes its target. -/
theorem thirdOutOfRangeWindowLatches : Obligations.ThirdOutOfRangeWindowLatches := by
  intro c s h k hc hk hp hout h2
  subst hk
  have hthreshold : ¬ (s.ch ⟨c.toNat, h⟩).deb.toInt ≤ 1 := by omega
  obtain ⟨hdeb, hnotify⟩ := regulate_verdict_of_outOfRange (mt (chan_eq_bed_iff h).mp hc) hout (by omega) h2.le
  rw [if_neg hthreshold] at hdeb hnotify
  have hlatched : ((regulate config ⟨c.toNat, h⟩ s.toBlock).1.ch ⟨c.toNat, h⟩).deb.toInt < 0 := by
    rw [hdeb]
    split <;> decide
  have hch := regulate_ch_of_unlatched ((latched_eq_false_iff (s.ch ⟨c.toNat, h⟩)).mpr (by omega))
  rw [if_pos hlatched, storedDuty_of_outOfRange hout] at hch
  have hexec := exec_reg h hp
  rw [regulate_snd, storedDuty_of_outOfRange hout] at hexec
  refine ⟨_, hexec, hdeb, congrArg Channel.rawTgt hch, congrArg Channel.duty hch, rfl, hnotify.trans ?_⟩
  split
  · exact List.append_nil _
  · rfl

/-! ## The bed between two gated checks -/

/-- The absolute-maximum check moves the counter of a bed only to latch it (R169). -/
theorem bedAbsCheck_deb (cfg : Config) (t : Temp) (s : Block cfg.nExt) :
    ((bedAbsCheck cfg t s).ch bed).deb.toInt =
      if cfg.bedAbsMax.toInt < t.toInt ∧ 0 ≤ (s.ch bed).deb.toInt then -1 else (s.ch bed).deb.toInt := by
  have hlatches : bedTooHot cfg t = true ∧ (s.ch bed).latched = false ↔ cfg.bedAbsMax.toInt < t.toInt ∧ 0 ≤ (s.ch bed).deb.toInt :=
    and_congr decide_eq_true_iff (latched_eq_false_iff _)
  rw [bedAbsCheck_ch]
  simp only [hlatches]
  split <;> rfl

/-- With the gate closed `REG` does not record the time of a check, and the absolute maximum alone can move the counter (R168). -/
theorem regulate_bed_of_closed {cfg : Config} {s : Block cfg.nExt} (hg : (s.ticks - s.bedLast).toNat < cfg.bedInterval) :
    (regulate cfg bed s).1.bedLast = s.bedLast ∧ ((regulate cfg bed s).1.ch bed).deb.toInt =
      if cfg.bedAbsMax.toInt < (measuredTemp cfg bed s).toInt ∧ 0 ≤ (s.ch bed).deb.toInt then -1 else (s.ch bed).deb.toInt := by
  have hsafe := safetyState_bed_of_closed (s := handedBlock cfg bed s) (s.ch bed).snap (measuredTemp cfg bed s) hg
  have hdeb := bedAbsCheck_deb cfg (measuredTemp cfg bed s) (handedBlock cfg bed s)
  rw [handedBlock_deb] at hdeb
  rw [regulate_eq_safety, hsafe, ch_modCh_same]
  exact ⟨bedAbsCheck_bedLast .., hdeb⟩

/-- Settles O44: with the gate closed the monitor's part for the bed is the absolute-maximum check alone. -/
theorem closedBedGateKeepsTheCount : Obligations.ClosedBedGateKeepsTheCount := by
  intro s k hk hp hg
  subst hk
  obtain ⟨hlast, hdeb⟩ := regulate_bed_of_closed hg
  exact ⟨_, exec_reg_bed hp, hlast, hdeb⟩

/-! ## The bed above its absolute maximum -/

/-- A bed that is not latched is latched at once above its absolute maximum, at a gated check or between two (R169). -/
theorem safetyState_bed_of_hot {cfg : Config} {s : Block cfg.nExt} (r : Raw) {t : Temp} (hl : (s.ch bed).latched = false)
    (hot : cfg.bedAbsMax.toInt < t.toInt) :
    ∃ b, safetyState cfg bed r t s = latch bed sentinelOver .bedTemp 3 { s with bedLast := b } := by
  rcases Nat.lt_or_ge (s.ticks - s.bedLast).toNat cfg.bedInterval with hg | hg
  · exact ⟨s.bedLast, by rw [safetyState_bed_of_closed r t hg, bedAbsCheck_of_unlatched t hl, if_pos hot]⟩
  · exact ⟨s.ticks, safetyState_bed_of_open_hot r hg hl hot⟩

theorem safetyDuty_bed_of_hot {cfg : Config} (r : Raw) {t : Temp} (d : Duty) (s : Block cfg.nExt) (hot : cfg.bedAbsMax.toInt < t.toInt) :
    safetyDuty cfg bed r t d s = 0 := by
  rw [safetyDuty_eq]
  exact if_pos (.inr (.inr ⟨rfl, hot⟩))

/-- Settles O46: the fault of a bed that is not latched, and the monitor's silence on one that is. -/
theorem bedAbsoluteMaximumActsAtOnce : Obligations.BedAbsoluteMaximumActsAtOnce := by
  intro cfg r t d s hot
  refine ⟨safetyDuty_bed_of_hot r d s hot, fun h0 => ?_, fun hneg => ?_⟩
  · obtain ⟨b, hsafe⟩ := safetyState_bed_of_hot r ((latched_eq_false_iff (s.ch bed)).mpr h0) hot
    have hch := latch_ch bed bed sentinelOver .bedTemp 3 { s with bedLast := b }
    rw [if_pos rfl, ← hsafe] at hch
    exact ⟨congrArg (fun k : Channel => k.deb.toInt) hch, congrArg Channel.rawTgt hch,
      (congrArg Block.notify hsafe).trans (latch_notify ..)⟩
  · have hsafe := safetyState_of_latched r t ((latched_iff (s.ch bed)).mpr hneg)
    exact ⟨(congrArg (fun b : Block cfg.nExt => (b.ch bed).deb) hsafe :), (congrArg Block.notify hsafe :)⟩

end Sys2Proof.Proofs
end

section
/-! The family 44_pwm_driver.md: what a tick does at the leading edge (R182) and at any other tick (R183), the free-running counter (R184),
and that a pin is high for as many ticks of an enabled period as its duty at the leading edge says (R185, R187 to R189). -/

namespace Sys2Proof.Proofs

open Sys2Proof.Machine Sys2Proof.Safety Sys2Proof.Laws

/-! ## The two edges -/

/-- A tick at the leading edge (R182). -/
theorem tickState_leadingEdge {cfg : Config} {s : Block cfg.nExt} (adc : BitVec 16) (h0 : s.pwmCnt = 0) (c : Chan cfg.nExt) :
    ((tickState cfg adc s).ch c).pwmSnap = (s.ch c).duty ∧
      ((tickState cfg adc s).ch c).heat = (decide ((s.ch c).duty ≠ 0) && s.heatEn || (s.ch c).heat) := by
  obtain ⟨hsnap, hheat⟩ := tickState_pwm cfg adc s c
  rw [hsnap, hheat]
  rcases pwmStep_ch_cases s c with ⟨-, hk⟩ | ⟨hne, -⟩
  · rw [hk]
    exact ⟨rfl, rfl⟩
  · exact absurd h0 hne

/-- A tick at any other count (R183). -/
theorem tickState_trailingEdge {cfg : Config} {s : Block cfg.nExt} (adc : BitVec 16) (h0 : s.pwmCnt ≠ 0) (c : Chan cfg.nExt) :
    ((tickState cfg adc s).ch c).pwmSnap = (s.ch c).pwmSnap ∧
      ((tickState cfg adc s).ch c).heat = ((s.ch c).heat && decide (s.pwmCnt.toNat < (s.ch c).pwmSnap.toNat)) := by
  obtain ⟨hsnap, hheat⟩ := tickState_pwm cfg adc s c
  rw [hsnap, hheat]
  rcases pwmStep_ch_cases s c with ⟨hz, -⟩ | ⟨-, hk⟩
  · exact absurd hz h0
  · rw [hk]
    exact ⟨rfl, rfl⟩

/-- Settles O19: the pin of a nonzero duty is asserted while the heaters are enabled, and any other pin is left. -/
theorem leadingEdgeSnapshotsAndAsserts : Obligations.LeadingEdgeSnapshotsAndAsserts := by
  intro adc s ha h0
  refine ⟨_, exec_tick ha s, fun c => ?_⟩
  obtain ⟨hsnap, hheat⟩ := tickState_leadingEdge adc h0 c
  refine ⟨hsnap, hheat.trans ?_⟩
  split
  · rename_i hassert
    obtain ⟨hduty, hen⟩ := hassert
    rw [hen, decide_eq_true hduty, Bool.and_true, Bool.true_or]
  · rename_i hassert
    have hoff : (decide ((s.ch c).duty ≠ 0) && s.heatEn) = false := by simpa using hassert
    rw [hoff, Bool.false_or]

/-- Settles O20: the snapshot is kept, and a pin stays high only while the counter is below it. -/
theorem trailingEdgeDeasserts : Obligations.TrailingEdgeDeasserts := by
  intro adc s ha h0
  refine ⟨_, exec_tick ha s, fun c => ?_⟩
  obtain ⟨hsnap, hheat⟩ := tickState_trailingEdge adc h0 c
  refine ⟨hsnap, hheat.trans ?_⟩
  split
  · rename_i hmet
    rw [decide_eq_false hmet.not_gt, Bool.and_false]
  · rename_i hmet
    rw [decide_eq_true (Nat.lt_of_not_ge hmet), Bool.and_true]

/-! ## The counter -/

/-- Settles O21: a tick counts whatever else the state holds, and a host operation spares the timer agent's registers (R39). -/
theorem pwmCounterIsFreeRunning : Obligations.PwmCounterIsFreeRunning := by
  refine ⟨fun adc s ha => ⟨_, exec_tick ha s, ?_⟩, fun i s t hi hr h => ?_⟩
  · exact (congrArg BitVec.toNat (tickState_pwmCnt_succ config adc s.toBlock)).trans (BitVec.toNat_add ..)
  · obtain ⟨hregs, -⟩ := hostOperationsKeepTimerRegisters i s t hi hr h
    obtain ⟨-, -, hcnt, -⟩ := hregs.block
    exact hcnt

/-! ## A period -/

/-- `s` is a block after tick `k` of a period, at whose leading edge, tick 0, the heaters were enabled or not as `en` says and the channels
had the duties `duty`. -/
structure PeriodProgress {n : Nat} (en : Bool) (duty : Chan n → Duty) (k : Nat) (s : Block n) : Prop where
  pwmCnt_eq : s.pwmCnt = BitVec.ofNat 7 (k + 1)
  pwmSnap_eq : ∀ c, (s.ch c).pwmSnap = duty c
  heat_eq : ∀ c, (s.ch c).heat = (en && decide (k < (duty c).toNat))

namespace PeriodProgress

variable {cfg : Config} {en : Bool} {duty : Chan cfg.nExt → Duty} {k : Nat} {s t : Block cfg.nExt}

/-- The leading edge of a period with every pin low. -/
theorem start (adc : BitVec 16) (h0 : s.pwmCnt = 0) (hoff : AllOff s) :
    PeriodProgress s.heatEn (fun c => (s.ch c).duty) 0 (tickState cfg adc s) where
  pwmCnt_eq := by
    rw [tickState_pwmCnt_succ, h0]
    rfl
  pwmSnap_eq c := (tickState_leadingEdge adc h0 c).1
  heat_eq c := by
    have hpos : (s.ch c).duty ≠ 0 ↔ 0 < (s.ch c).duty.toNat := by bv_omega
    rw [(tickState_leadingEdge adc h0 c).2, hoff c, Bool.or_false, Bool.and_comm, decide_eq_decide.mpr hpos]

/-- An operation that spares the timer agent's registers touches neither the counter, nor a snapshot, nor a pin. -/
theorem of_sameTimerRegs (h : PeriodProgress en duty k s) (hst : SameTimerRegs s t) : PeriodProgress en duty k t where
  pwmCnt_eq := by
    obtain ⟨-, -, hcnt, -⟩ := hst.block
    rw [hcnt, h.pwmCnt_eq]
  pwmSnap_eq c := by
    obtain ⟨-, -, hsnap, -⟩ := hst.chan c
    rw [hsnap, h.pwmSnap_eq]
  heat_eq c := by
    obtain ⟨-, -, -, hheat⟩ := hst.chan c
    rw [hheat, h.heat_eq]

/-- The next tick of the period finds the counter at its own number, so it lowers the pins whose duty is met (R183, R185). -/
theorem tick (h : PeriodProgress en duty k s) (adc : BitVec 16) (hk : k + 1 ≤ 127) :
    PeriodProgress en duty (k + 1) (tickState cfg adc s) := by
  have hcnt : s.pwmCnt.toNat = k + 1 := by
    rw [h.pwmCnt_eq, BitVec.toNat_ofNat]
    exact Nat.mod_eq_of_lt (Nat.lt_succ_of_le hk)
  have h0 : s.pwmCnt ≠ 0 := by
    intro hz
    rw [hz] at hcnt
    exact Nat.succ_ne_zero k hcnt.symm
  refine ⟨?_, fun c => (tickState_trailingEdge adc h0 c).1.trans (h.pwmSnap_eq c), fun c => ?_⟩
  · rw [tickState_pwmCnt_succ, h.pwmCnt_eq, BitVec.ofNat_add (k + 1) 1]
    rfl
  · have hboth : k < (duty c).toNat ∧ k + 1 < (duty c).toNat ↔ k + 1 < (duty c).toNat := and_iff_right_of_imp Nat.lt_of_succ_lt
    rw [(tickState_trailingEdge adc h0 c).2, h.heat_eq, h.pwmSnap_eq, hcnt, Bool.and_assoc, ← Bool.decide_and,
      decide_eq_decide.mpr hboth]

/-- Any operations but `RESET` take the period on by the ticks they hold, if they stay within it. -/
theorem foldl {duty : Chan config.nExt → Duty} {is : List Instr} {s : State} (h : PeriodProgress en duty k s.toBlock)
    (hreset : .reset ∉ is) (hk : k + tickCount config is ≤ 127) :
    PeriodProgress en duty (k + tickCount config is) (is.foldl stateAfter s).toBlock := by
  induction is generalizing k s with
  | nil => exact h
  | cons i is ih =>
    obtain ⟨hi, hreset⟩ := not_or.mp (mt List.mem_cons.mpr hreset)
    cases htick : isTick config i with
    | true =>
      obtain ⟨adc, -, -, ht⟩ := operate_of_isTick s.toBlock htick
      rw [tickCount_cons_tick is htick, ← Nat.add_assoc, Nat.add_right_comm] at hk ⊢
      have hnext := h.tick adc ((Nat.le_add_right ..).trans hk)
      rw [← ht] at hnext
      exact ih (s := stateAfter s i) hnext hreset hk
    | false =>
      rw [tickCount_cons_other is htick] at hk ⊢
      have hnext := h.of_sameTimerRegs (sameTimerRegs_of_hostStep (hostStep_of_operate s.toBlock htick (Ne.symm hi)))
      exact ih (s := stateAfter s i) hnext hreset hk

end PeriodProgress

/-- Settles O22: the tick at the leading edge starts the period, and the operations after it take it on. -/
theorem pinIsHighForDutyTicks : Obligations.PinIsHighForDutyTicks := by
  intro adc is s ha h0 hoff hreset hk
  have hexec : execAll (.tick adc :: is) s = .next (is.foldl stateAfter (stateAfter s (.tick adc))) := execAll_eq_next _ s
  have htick : (stateAfter s (.tick adc)).toBlock = tickState config adc s.toBlock := congrArg Prod.fst (tickOp_of_ok ha s.toBlock)
  have hstart : PeriodProgress s.heatEn (fun c => (s.ch c).duty) 0 (stateAfter s (.tick adc)).toBlock := by
    rw [htick]
    exact .start adc h0 hoff
  have hend := hstart.foldl hreset (by rwa [Nat.zero_add])
  rw [Nat.zero_add] at hend
  exact ⟨_, hexec, hend.heat_eq⟩

end Sys2Proof.Proofs
end

section
/-! The family 46_access_ops.md: the operations that write one register of a channel (R216, R217, R220, R224), `SETSTOP` (R226), `NOP` (R228)
and the pseudo-operation `SETPID` (R231), each as its exact next state. -/

namespace Sys2Proof.Proofs

open Sys2Proof.Machine Sys2Proof.Safety Sys2Proof.Laws

/-! ## Writing one register of a channel -/

section

variable {cfg : Config} {c : BitVec 4}

/-- R216: the conversion uses the channel's calibration as it is. -/
theorem operate_settgt_of_ok (h : ChannelOk cfg c) (t : Temp) (s : Block cfg.nExt) :
    operate cfg (.settgt c t) s = respondOk (zextResult (cfg.tempToRaw ⟨c.toNat, h⟩ (s.ch ⟨c.toNat, h⟩).cal t))
      (s.modCh ⟨c.toNat, h⟩ fun k => { k with rawTgt := cfg.tempToRaw ⟨c.toNat, h⟩ (s.ch ⟨c.toNat, h⟩).cal t }) := by
  simp only [operate, settgtOp, channel?_of_ok h]

theorem operate_clrtgt_of_ok (h : ChannelOk cfg c) (s : Block cfg.nExt) :
    operate cfg (.clrtgt c) s = respondOk 0 (s.modCh ⟨c.toNat, h⟩ fun k => { k with rawTgt := 0 }) := by
  simp only [operate, clrtgtOp, channel?_of_ok h]

theorem operate_setduty_of_ok {d : Duty} (h : ChannelOk cfg c) (hd : DutyOk cfg d) (s : Block cfg.nExt) :
    operate cfg (.setduty c d) s = respondOk 0 (s.modCh ⟨c.toNat, h⟩ fun k => { k with duty := d }) := by
  simp only [operate, setdutyOp, channel?_of_ok h, duty?_of_ok hd]

theorem operate_setcal_of_ok {j : BitVec 4} (h : ChannelOk cfg c) (hj : CellOk j) (v : BitVec 16) (s : Block cfg.nExt) :
    operate cfg (.setcal c j v) s = respondOk 0 (s.modCh ⟨c.toNat, h⟩ fun k => { k with cal := k.cal.set j.toNat v hj }) := by
  simp only [operate, setcalOp, channel?_of_ok h, cell?_of_ok hj]

end

/-- Settles O48: the value answered is the one stored, zero-extended (R69). -/
theorem settgtStoresConvertedTarget : Obligations.SettgtStoresConvertedTarget := by
  intro c t s h
  simp only [← zextResult_eq]
  exact exec_of_respondOk (operate_settgt_of_ok h t s.toBlock)

/-- Settles O49: the rule writes the one register `RAW_TGT`. -/
theorem clrtgtClearsTarget : Obligations.ClrtgtClearsTarget := fun _ s h =>
  exec_of_respondOk (operate_clrtgt_of_ok h s.toBlock)

/-- Settles O51: with both operands in range the rule writes the one register `DUTY`. -/
theorem setdutyStoresDuty : Obligations.SetdutyStoresDuty := fun _ _ s h hd =>
  exec_of_respondOk (operate_setduty_of_ok h hd s.toBlock)

/-- Settles O53: the rule writes one cell and recomputes nothing from it. -/
theorem setcalWritesOneCell : Obligations.SetcalWritesOneCell := fun _ _ v s h hj =>
  exec_of_respondOk (operate_setcal_of_ok h hj v s.toBlock)

/-! ## SETSTOP and NOP -/

/-- R83: the one-bit immediate is the level. -/
theorem stopImm_eq_getLsbD : ∀ v : BitVec 1, stopImm v = v.getLsbD 0 := by decide

/-- Settles O54: `STOPPED` is the only register the rule writes, a latch being in `DEB` (R21). -/
theorem setstopSetsTheLevel : Obligations.SetstopSetsTheLevel := by
  intro v s
  rw [← stopImm_eq_getLsbD]
  exact exec_of_respondOk (t := { s.toBlock with stopped := stopImm v }) rfl

/-- Settles O56: the all-zero word is the one `NOP` is encoded as, so it decodes to `NOP`, which responds with the block as it is. -/
theorem nopDoesNothing : Obligations.NopDoesNothing := by
  have hword : encode .nop = 0x00000000 := by decide
  refine ⟨hword, ?_, fun s => exec_of_respondOk (t := s.toBlock) rfl⟩
  rw [← hword]
  exact decodeFor_encode rfl

/-! ## SETPID -/

theorem execAll_cons_of_next {i : Instr} {s t : State} (h : exec i s = .next t) (is : List Instr) :
    execAll (i :: is) s = execAll is t := by
  rw [execAll, h]

/-- Settles O60: the four writes in a row, each to a gain register of its own (R63, R222). -/
theorem setpidWritesAllFourGains : Obligations.SetpidWritesAllFourGains := by
  intro p i d m s
  rw [Pseudo.expand, execAll_cons_of_next (exec_setgain (r := .kp) rfl p s), execAll_cons_of_next (exec_setgain (r := .ki) rfl i _),
    execAll_cons_of_next (exec_setgain (r := .kd) rfl d _), execAll_cons_of_next (exec_setgain (r := .kimax) rfl m _)]
  rfl

end Sys2Proof.Proofs
end

section
/-! The family 60_exceptions.md: a notification as one word (R243). -/

namespace Sys2Proof.Proofs

open Sys2Proof.Machine Sys2Proof.Safety Sys2Proof.Laws

/-- R243: the three fields stand side by side, each in four bits, whenever the channel number fits its own. -/
theorem notificationWord_toNat (cause : Cause) (sub : BitVec 4) {c : Nat} (hc : c < 16) :
    (Notification.word ⟨cause, sub, c⟩).toNat = cause.code.toNat * 256 + sub.toNat * 16 + c := by
  have hchan : (BitVec.ofNat 4 c).toNat = c := by rw [BitVec.toNat_ofNat, Nat.mod_eq_of_lt hc]
  have hword : (Notification.word ⟨cause, sub, c⟩).toNat = (cause.code.toNat * 2 ^ 4 + sub.toNat) * 2 ^ 4 + c := by
    rw [Notification.word, append_toNat, append_toNat, hchan]
  omega

/-- R10: a channel number is at most `N_EXT`, so it fits the word's four bits. -/
theorem chan_val_lt_sixteen {cfg : Config} (c : Chan cfg.nExt) : c.val < 16 :=
  calc c.val < cfg.nExt + 1 := c.isLt
    _ ≤ 4 := Nat.succ_le_succ cfg.nExt_le
    _ < 16 := by decide

/-- Settles O57: the packing for any cause, at the three codes. -/
theorem notificationWordPacksItsFields : Obligations.NotificationWordPacksItsFields := fun sub c =>
  have hc := chan_val_lt_sixteen c
  ⟨notificationWord_toNat .maxTemp sub hc, notificationWord_toNat .minTemp sub hc, notificationWord_toNat .bedTemp sub hc⟩

end Sys2Proof.Proofs
end
